-- ==== Sys2Proof/Word.lean ====
section
/-! DEFINITION. The words of the block: bytes, command words, port words, 32-bit lanes (00_scope R10, 30_encoding R62, R63). -/

namespace Sys2Proof

/-- A byte is 8 bits (00_scope R10). -/
abbrev Byte := BitVec 8

/-- The 16-bit command word `cw` (00_scope R8 `CW_W`, 30_encoding R60). -/
abbrev CommandWord := BitVec 16

/-- The 16-byte operand or result port (00_scope R8 `OPD_BYTES`, `RES_BYTES`). -/
abbrev PortWord := BitVec 128

/-- A 32-bit integer lane of a port (00_scope R8 `VALUE_W`, 30_encoding R63). -/
abbrev Lane := BitVec 32

end Sys2Proof
end

