-- ==== Sys2Proof/Config.lean ====
section
/-! DEFINITION. What an instance of the block is built with (00_scope R8, R9, 10_state R25), and the free values the spec leaves open. -/

namespace Sys2Proof

/-- `FAM`: the device family an instance is bound to for its whole life (00_scope R2, R9). -/
inductive Family where
  | adc
  | mag
  deriving DecidableEq, Repr

/-- `ADC_CONT_POLL`: the transaction RDR uses for the ADC in Continuous (00_scope R8, 43_device_mode R141). -/
inductive ContPoll where
  | rdataPoll
  | streamPoll
  deriving DecidableEq, Repr

/-- The direction of a register access (00_scope R9). -/
inductive Direction where
  | read
  | write
  deriving DecidableEq, Repr

/-- A register access as `UNSAFE` sees it: start address, byte count, direction (00_scope R9). -/
structure Access where
  addr  : Nat
  count : Nat
  dir   : Direction
  deriving DecidableEq, Repr

/-- The predicate `UNSAFE(addr, count, dir)` as plain data (00_scope R9): every access (the spec's
conservative choice), or exactly the accesses listed. DESIGN CHOICE (log 12), safe: the accesses the
builders can make are finitely many, so a list can say any predicate over them. -/
inductive GatePolicy where
  | every
  | listed (accesses : List Access)
  deriving DecidableEq, Repr

/-- `UNSAFE(addr, count, dir)` (43_device_mode R139). -/
def GatePolicy.covers : GatePolicy → Access → Bool
  | .every,    _ => true
  | .listed l, a => decide (a ∈ l)

/-- The three line handles, each opaque or absent, fixed at construction (10_state R25, 70_reset R230). -/
structure ControlLines where
  startLine : Option Nat
  readyLine : Option Nat
  resetLine : Option Nat
  deriving DecidableEq, Repr

/-- The configuration of one instance: constant for its life (10_state R25), the open parameters of
00_scope R9 among it. It is held in State so that a statement about every state holds for every
configuration (log 1). -/
structure BlockConfig where
  fam         : Family
  lines       : ControlLines
  gate        : GatePolicy
  adcContPoll : ContPoll
  magFiller   : Byte
  startPulse  : Nat
  tick        : Nat
  deriving DecidableEq, Repr

/-- Only configurations with `start_line` and `ready_line` present are admitted (10_state R25). -/
def BlockConfig.admitted (c : BlockConfig) : Bool :=
  c.lines.startLine.isSome && c.lines.readyLine.isSome

/-- `MAG_FILLER` of the instance `State.reset` stands for: left open (00_scope R9), a free value (log 2). -/
opaque Config.magFiller : Byte

/-- `START_PULSE` of the instance `State.reset` stands for: left open (00_scope R9), a free value (log 2). -/
opaque Config.startPulse : Nat

/-- `TICK` of the instance `State.reset` stands for: left open (00_scope R9), a free value (log 2). -/
opaque Config.tick : Nat

/-- Free draw `n`: the data-ready line is active when a wait begins (60_exceptions R192, R195; log 4). -/
opaque Config.freeLineAtStart : Nat → Bool

/-- Free draw `n`: the line is seen active later in the wait, before its bound (60_exceptions R193; log 4). -/
opaque Config.freeLineLater : Nat → Bool

/-- Free draw `n`: the host raises the cancel request during the wait (60_exceptions R194; log 4). -/
opaque Config.freeCancel : Nat → Bool

/-- Free draw `n`: the request is seen before, or wins a tie with, ready and expiry (60_exceptions R194; log 4, log 5). -/
opaque Config.freeCancelFirst : Nat → Bool

/-- Free draw `n`: what the bus transport returns, `none` for a failure (20_memory R46; log 4). -/
opaque Config.freeReply : Nat → Option (List Byte)

/-- Free value `n`: `res_o` of a response whose status is not OK (30_encoding R64; 93 U17; log 7). -/
opaque Config.errorResult : Nat → PortWord

/-- Free value `n`: `res_len_o` of a response whose status is not OK (30_encoding R64; 93 U17; log 7). -/
opaque Config.errorResultLength : Nat → BitVec 5

end Sys2Proof
end

