-- ==== Sys2Proof/Syntax.lean ====
section
/-! DEFINITION. The instructions: one constructor per row of spec/opcode_table.json (30_encoding R66, R68 to R71). Fields are the unsigned integers of the encoding, with no scaling (30_encoding R73). -/

namespace Sys2Proof

/-- The eleven operations of the command port and the eleven rows of wire bytes. Operands that do not
stand in the word (byte sequences, lanes, data) arrive beside it (30_encoding R63). -/
inductive Instr where
  /-- DECS, `bit_width` (40_codec R82). -/
  | decs (width : Nat)
  /-- ENCS, `bit_width` (40_codec R84). -/
  | encs (width : Nat)
  /-- DECF, `bit_width` (40_codec R86). -/
  | decf (width : Nat)
  /-- CVADC (44_measurement R162). -/
  | cvadc
  /-- CVMAG (44_measurement R164). -/
  | cvmag
  /-- STS (43_device_mode R132). -/
  | sts
  /-- RDR (43_device_mode R133). -/
  | rdr
  /-- STC (43_device_mode R134). -/
  | stc
  /-- STP (43_device_mode R135). -/
  | stp
  /-- RRG, `cnt` (the count itself) and `addr` (43_device_mode R136). -/
  | rrg (cnt addr : Nat)
  /-- WRG, `cnt` and `addr` (43_device_mode R137). -/
  | wrg (cnt addr : Nat)
  /-- ADC.RREG, address and count minus one (30_encoding R68). -/
  | adcRreg (address countMinusOne : Nat)
  /-- ADC.WREG, address and count minus one (30_encoding R69). -/
  | adcWreg (address countMinusOne : Nat)
  /-- ADC.RESET, byte 0x06 (30_encoding R70). -/
  | adcReset
  /-- ADC.WAKE, byte 0x00 (30_encoding R70). -/
  | adcWake
  /-- ADC.SLEEP, byte 0x02 (30_encoding R70). -/
  | adcSleep
  /-- ADC.NOP, byte 0xFF (30_encoding R70). -/
  | adcNop
  /-- ADC.RDATA, byte 0x12 (30_encoding R70, 42_transactions R116). -/
  | adcRdata
  /-- ADC.RDATAC, byte 0x14 (30_encoding R70). -/
  | adcRdatac
  /-- ADC.SDATAC, byte 0x16 (30_encoding R70). -/
  | adcSdatac
  /-- MAG.READ, address (30_encoding R71). -/
  | magRead (address : Nat)
  /-- MAG.WRITE, address (30_encoding R71). -/
  | magWrite (address : Nat)
  deriving DecidableEq, Repr

end Sys2Proof
end

