-- ==== Sys2Proof/WellFormed.lean ====
section
/-! DEFINITION. Which terms of Instr have an encoding: every field fits its bits (30_encoding R61, R68 to R71). Values inside the bits that an operation refuses (a width of 12, a count of 0) are well formed: they are operand errors, not reserved encodings (30_encoding R67). -/

namespace Sys2Proof

/-- Every field fits the bits its encoding gives it. -/
def Instr.wf : Instr → Bool
  | .decs w      => decide (w < 256)
  | .encs w      => decide (w < 256)
  | .decf w      => decide (w < 256)
  | .cvadc       => true
  | .cvmag       => true
  | .sts         => true
  | .rdr         => true
  | .stc         => true
  | .stp         => true
  | .rrg c a     => decide (c < 32) && decide (a < 128)
  | .wrg c a     => decide (c < 32) && decide (a < 128)
  | .adcRreg a n => decide (a < 16) && decide (n < 16)
  | .adcWreg a n => decide (a < 16) && decide (n < 16)
  | .adcReset    => true
  | .adcWake     => true
  | .adcSleep    => true
  | .adcNop      => true
  | .adcRdata    => true
  | .adcRdatac   => true
  | .adcSdatac   => true
  | .magRead a   => decide (a < 128)
  | .magWrite a  => decide (a < 128)

end Sys2Proof
end

