-- ==== Sys2Proof/Decode.lean ====
section
/-! DEFINITION. The two levels of encoding (30_encoding R60): command words and wire bytes, the decoder of each, and after them the encoder, written from the same tables of the spec. -/

namespace Sys2Proof

/-- `v[hi:lo]` as an unsigned integer (00_scope R10). -/
def bits (v hi lo : Nat) : Nat := v / 2 ^ lo % 2 ^ (hi - lo + 1)

/-- What is decoded. Rows of different levels or families are never decoded against each other
(30_encoding, opening), so a wire image carries its family. -/
inductive Image where
  /-- A command word on the command port (30_encoding R60). -/
  | command (cw : CommandWord)
  /-- The opcode bytes that open a transaction on a family's bus, first byte first (30_encoding R68 to R71). -/
  | wire (fam : Family) (opcode : List Byte)
  deriving DecidableEq, Repr

/-- Why an image is no instruction. -/
inductive DecodeError where
  /-- `op` is 0x0, 0x6, 0x7, 0xE or 0xF (30_encoding R67). -/
  | reservedOperation
  /-- A format K or M word with a bit of its reserved field set (30_encoding R61, R67). -/
  | reservedBits
  /-- A single byte that is none of the ADC's seven bare opcodes (30_encoding R70). -/
  | unlistedAdcByte
  /-- Opcode bytes of a number or shape no row of the family has (30_encoding R68 to R71). -/
  | malformedOpcode
  deriving DecidableEq, Repr

/-- Format K (30_encoding R61): bits 11:8 must be zero, `W` in bits 7:0. -/
def formatK (v : Nat) (mk : Nat → Instr) : Except DecodeError Instr :=
  if bits v 11 8 = 0 then .ok (mk (bits v 7 0)) else .error .reservedBits

/-- Format M (30_encoding R61): bits 11:0 must be zero. -/
def formatM (v : Nat) (i : Instr) : Except DecodeError Instr :=
  if bits v 11 0 = 0 then .ok i else .error .reservedBits

/-- Format R (30_encoding R61): `cnt` in bits 11:7, `addr` in bits 6:0. -/
def formatR (v : Nat) (mk : Nat → Nat → Instr) : Except DecodeError Instr :=
  .ok (mk (bits v 11 7) (bits v 6 0))

/-- The operation map (30_encoding R66), with the reserved words of R67 rejected. -/
def decodeCommand (cw : CommandWord) : Except DecodeError Instr :=
  match bits cw.toNat 15 12 with
  | 0x1 => formatK cw.toNat .decs
  | 0x2 => formatK cw.toNat .encs
  | 0x3 => formatK cw.toNat .decf
  | 0x4 => formatM cw.toNat .cvadc
  | 0x5 => formatM cw.toNat .cvmag
  | 0x8 => formatM cw.toNat .sts
  | 0x9 => formatM cw.toNat .rdr
  | 0xA => formatM cw.toNat .stc
  | 0xB => formatM cw.toNat .stp
  | 0xC => formatR cw.toNat .rrg
  | 0xD => formatR cw.toNat .wrg
  | _   => .error .reservedOperation

/-- The ADC's bare opcodes (30_encoding R70). -/
def decodeAdcBare (b : Byte) : Except DecodeError Instr :=
  match b.toNat with
  | 0x06 => .ok .adcReset
  | 0x00 => .ok .adcWake
  | 0x02 => .ok .adcSleep
  | 0xFF => .ok .adcNop
  | 0x12 => .ok .adcRdata
  | 0x14 => .ok .adcRdatac
  | 0x16 => .ok .adcSdatac
  | _    => .error .unlistedAdcByte

/-- The ADC's two opcode bytes of a register access (30_encoding R68, R69). -/
def decodeAdcPair (first second : Byte) : Except DecodeError Instr :=
  if bits second.toNat 7 4 = 0 then
    match bits first.toNat 7 4 with
    | 0x2 => .ok (.adcRreg (bits first.toNat 3 0) (bits second.toNat 3 0))
    | 0x4 => .ok (.adcWreg (bits first.toNat 3 0) (bits second.toNat 3 0))
    | _   => .error .malformedOpcode
  else .error .malformedOpcode

/-- The magnetometer's one opcode byte: bit 7 is read, bits 6:0 the address (30_encoding R71). -/
def decodeMagByte (b : Byte) : Instr :=
  if bits b.toNat 7 7 = 1 then .magRead (bits b.toNat 6 0) else .magWrite (bits b.toNat 6 0)

/-- The opcode bytes of a transaction on the bus of a family (30_encoding R68 to R71). On the magnetometer's
bus every byte opens a register access, also one that no payload follows: it is never read as a bare
command (log 9). -/
def decodeWire : Family → List Byte → Except DecodeError Instr
  | .adc, [b]      => decodeAdcBare b
  | .adc, [b0, b1] => decodeAdcPair b0 b1
  | .mag, [b]      => .ok (decodeMagByte b)
  | _,    _        => .error .malformedOpcode

/-- The decoder, total on every image. -/
def decode : Image → Except DecodeError Instr
  | .command cw     => decodeCommand cw
  | .wire fam bytes => decodeWire fam bytes

/-- A format K or M command word: `op` in bits 15:12, `W` (or zero) in bits 7:0 (30_encoding R61). -/
def wordK (op w : Nat) : CommandWord := BitVec.ofNat 16 (op * 2 ^ 12 + w)

/-- A format R command word (30_encoding R61). -/
def wordR (op cnt addr : Nat) : CommandWord := BitVec.ofNat 16 (op * 2 ^ 12 + cnt * 2 ^ 7 + addr)

/-- First opcode byte of an ADC register read: `0x20 | address` (30_encoding R68). -/
def adcReadByte (address : Nat) : Byte := 0x20#8 ||| BitVec.ofNat 8 address

/-- First opcode byte of an ADC register write: `0x40 | address` (30_encoding R69). -/
def adcWriteByte (address : Nat) : Byte := 0x40#8 ||| BitVec.ofNat 8 address

/-- Second opcode byte of an ADC register access: `0x00 | (count - 1)` (30_encoding R68, R69). -/
def adcCountByte (countMinusOne : Nat) : Byte := 0x00#8 ||| BitVec.ofNat 8 countMinusOne

/-- Opcode byte of a magnetometer register read: `0x80 | address` (30_encoding R71). -/
def magReadByte (address : Nat) : Byte := 0x80#8 ||| BitVec.ofNat 8 address

/-- Opcode byte of a magnetometer register write: `0x00 | address` (30_encoding R71). -/
def magWriteByte (address : Nat) : Byte := 0x00#8 ||| BitVec.ofNat 8 address

/-- ADC reset (30_encoding R70). -/
def adcResetByte : Byte := 0x06#8
/-- ADC wake (30_encoding R70). -/
def adcWakeByte : Byte := 0x00#8
/-- ADC sleep (30_encoding R70). -/
def adcSleepByte : Byte := 0x02#8
/-- ADC no-op, which is also the ADC filler `ADC_FILLER` (00_scope R7, 30_encoding R70, R72). -/
def adcNopByte : Byte := 0xFF#8
/-- ADC read-data (30_encoding R70). -/
def adcRdataByte : Byte := 0x12#8
/-- ADC read-data-continuous (30_encoding R70). -/
def adcRdatacByte : Byte := 0x14#8
/-- ADC stop-read-continuous (30_encoding R70). -/
def adcSdatacByte : Byte := 0x16#8

/-- The encoder: the image of a well-formed instruction (30_encoding R66, R68 to R71). -/
def encode : Instr → Image
  | .decs w      => .command (wordK 0x1 w)
  | .encs w      => .command (wordK 0x2 w)
  | .decf w      => .command (wordK 0x3 w)
  | .cvadc       => .command (wordK 0x4 0)
  | .cvmag       => .command (wordK 0x5 0)
  | .sts         => .command (wordK 0x8 0)
  | .rdr         => .command (wordK 0x9 0)
  | .stc         => .command (wordK 0xA 0)
  | .stp         => .command (wordK 0xB 0)
  | .rrg c a     => .command (wordR 0xC c a)
  | .wrg c a     => .command (wordR 0xD c a)
  | .adcRreg a n => .wire .adc [adcReadByte a, adcCountByte n]
  | .adcWreg a n => .wire .adc [adcWriteByte a, adcCountByte n]
  | .adcReset    => .wire .adc [adcResetByte]
  | .adcWake     => .wire .adc [adcWakeByte]
  | .adcSleep    => .wire .adc [adcSleepByte]
  | .adcNop      => .wire .adc [adcNopByte]
  | .adcRdata    => .wire .adc [adcRdataByte]
  | .adcRdatac   => .wire .adc [adcRdatacByte]
  | .adcSdatac   => .wire .adc [adcSdatacByte]
  | .magRead a   => .wire .mag [magReadByte a]
  | .magWrite a  => .wire .mag [magWriteByte a]

/-- The images a word of the opcode table can stand for, in the order they are tried: the table's
word carries neither its level nor its family (log 11). Of a 16-bit wire word the first byte on the
bus is bits 15:8 (30_encoding R68). -/
def tableImages (nbits w : Nat) : List Image :=
  if nbits = 16 then
    [.command (BitVec.ofNat 16 w), .wire .adc [BitVec.ofNat 8 (bits w 15 8), BitVec.ofNat 8 (bits w 7 0)]]
  else if nbits = 8 then
    [.wire .adc [BitVec.ofNat 8 w], .wire .mag [BitVec.ofNat 8 w]]
  else []

/-- Whether an image decodes. -/
def Image.decodes (im : Image) : Bool :=
  match decode im with
  | .ok _    => true
  | .error _ => false

/-- The first image of a table word that decodes; a word none of whose images decodes stays the
(reserved) command word. -/
def tableImage (nbits w : Nat) : Image :=
  match (tableImages nbits w).find? Image.decodes with
  | some im => im
  | none    => .command (BitVec.ofNat 16 w)

/-- The instruction the decoder reads from a word of the opcode table; `none` where it refuses. -/
def decodeTableWord (nbits w : Nat) : Option Instr :=
  match (tableImages nbits w).find? Image.decodes with
  | some im => (decode im).toOption
  | none    => none

end Sys2Proof
end

