-- ==== Sys2Proof/Machine/Params.lean ====
section
/-! DEFINITION. The fixed parameters of the block (00_scope R7, R8) and the addresses the source gives (20_memory R41). -/

namespace Sys2Proof.Machine.Params

/-- `WIDTHS`, the legal values of `bit_width` (00_scope R8, 40_codec R81). -/
def widths : List Nat := [8, 16, 24]

/-- `CODE_W` (00_scope R7). -/
def codeW : Nat := 24

/-- `GAIN_SCALE` (00_scope R7, 40_codec R88). -/
def gainScale : Nat := 0x400000

/-- `COUNT_MIN` (00_scope R7, 42_transactions R111). -/
def countMin : Nat := 1

/-- `COUNT_MAX` (00_scope R7, 42_transactions R111). -/
def countMax : Nat := 15

/-- `ADC_ADDR_MAX` (00_scope R8, 20_memory R42). -/
def adcAddrMax : Nat := 15

/-- `REG_ADDR_MAX` (00_scope R7, 20_memory R42). -/
def regAddrMax : Nat := 127

/-- `ADC_SAMPLE_BYTES` (00_scope R7, 42_transactions R116). -/
def adcSampleBytes : Nat := 3

/-- `MAG_FRAME_BYTES` (00_scope R7, 44_measurement R163). -/
def magFrameBytes : Nat := 10

/-- `MAG_DIVISOR`, counts per microtesla (00_scope R7, 44_measurement R166). -/
def magDivisor : Nat := 75

/-- `ADC_FILLER` (00_scope R7, 30_encoding R72). -/
def adcFiller : Byte := adcNopByte

/-- The largest register address of a family (20_memory R42). -/
def addrMax : Family → Nat
  | .adc => adcAddrMax
  | .mag => regAddrMax

/-- The magnetometer's cycle-count registers (20_memory R41). -/
def magCycleCountAddrs : List Nat := [0x04, 0x06, 0x08]

/-- The magnetometer's continuous-mode register (20_memory R41). -/
def magContinuousModeAddr : Nat := 0x01

/-- The magnetometer's measurement registers (20_memory R41). -/
def magMeasurementAddrs : List Nat := [0x24, 0x27, 0x2A]

end Sys2Proof.Machine.Params
end

