-- ==== Sys2Proof/Machine/State.lean ====
section
/-! DEFINITION. The state of one instance: the two state registers, what is in progress, the response port, the configuration, the record of line and bus events, and the inputs still to come (10_state R20 to R34). -/

namespace Sys2Proof.Machine

/-- The values of the 2-bit register `mode` (10_state R22). The code 0b11 is never written and has no
constructor (93 U12). -/
inductive DeviceMode where
  | idle
  | conversionPending
  | continuous
  deriving DecidableEq, Repr

/-- The error outcomes (60_exceptions R181). An error is an ordinary response, not a fault of the
machine (R204), and records nothing but its code (R203). -/
inductive OpError where
  | rangeError
  | invalidFieldError
  | unknownFieldError
  | countRangeError
  | illegalStateError
  | timeoutError
  | transportError
  | cancelled
  | reservedOp
  deriving DecidableEq, Repr

/-- The three outcomes of a data-ready wait (20_memory R49). -/
inductive WaitOutcome where
  | ready
  | timedOut
  | cancelled
  deriving DecidableEq, Repr

/-- What can be asked of the system in one step: a command on the command port with its operand port
(30_encoding R62, R63), or a transaction on the host's own path to the device (43_device_mode R140),
which names its opcode bytes and its data (log 8). -/
inductive Request where
  | command (cw : CommandWord) (opd : PortWord) (opdLen : BitVec 5)
  | wire (opcode : List Byte) (data : List Byte)
  deriving DecidableEq, Repr

/-- What the environment does in one step (00_scope R18): the reset input, the request presented,
what a data-ready wait in this step would see, and what an exchange in this step would return. -/
structure InputSample where
  /-- `rst_i` (70_reset_and_hazards R210). -/
  rst         : Bool
  /-- `cmd_valid_i` with its operands, or a request of the host's own path (30_encoding R62). -/
  request     : Option Request
  /-- The data-ready line is active when the wait begins (60_exceptions R195). -/
  lineAtStart : Bool
  /-- The line is seen active later, before the bound expires (60_exceptions R193). -/
  lineLater   : Bool
  /-- `cancel_i` is raised during the wait (60_exceptions R194). -/
  cancel      : Bool
  /-- The cancel request is seen before ready and expiry, or wins a tie with them (60_exceptions R194, log 5). -/
  cancelFirst : Bool
  /-- The reply of the bus transport; `none` is a failure at the collaborator boundary (20_memory R46). -/
  reply       : Option (List Byte)
  deriving DecidableEq, Repr

/-- The events outside the block, totally ordered (20_memory R52). Line events are on `start_line`,
the only line the block drives; the wait is on `ready_line` (60_exceptions R196). -/
inductive Event where
  /-- `set_level(start_line, active)` (20_memory R47). -/
  | setLevel (active : Bool)
  /-- `pulse(start_line, duration)` (20_memory R48). -/
  | pulse (duration : Nat)
  /-- `wait_until_active(ready_line, ticks)`, a tick lasting `tick`, and how the wait ended (60_exceptions R192, R193). -/
  | wait (ticks tick : Nat) (outcome : WaitOutcome)
  /-- `exchange(out)`: the bytes handed to the bus transport and the reply accepted (20_memory R46). With a
  reply all of `out` went out; with `none`, a transport failure, how much of it did is unknown (log 17). -/
  | exchange (out : List Byte) (reply : Option (List Byte))
  /-- A reset abandoned this command; how far it had got is not known (70_reset_and_hazards R212, log 10). -/
  | abandoned (request : Request)
  deriving DecidableEq, Repr

/-- The response port while `rsp_valid_o` is 1 (30_encoding R64). -/
structure Response where
  st     : BitVec 4
  res    : PortWord
  resLen : BitVec 5
  deriving DecidableEq, Repr

/-- What a transaction on the host's own path returned: the last `response_length` reply bytes, or the
error that ended it (42_transactions R110, log 8). -/
inductive WireReply where
  | bytes (response : List Byte)
  | failed (e : OpError)
  deriving DecidableEq, Repr

/-- One instance of the block, its ports and the inputs still to come. -/
structure State where
  /-- The configuration, constant for the life of the instance (10_state R25). -/
  cfg        : BlockConfig
  /-- The device-mode register `mode` (10_state R22). -/
  mode       : DeviceMode
  /-- The start-line output register `start_level` (10_state R23). -/
  startLevel : Bool
  /-- The request accepted and not yet answered, with its port latches (10_state R28). -/
  pending    : Option Request
  /-- The response port; `none` while `rsp_valid_o` is 0 (30_encoding R64). -/
  rsp        : Option Response
  /-- What the host's own path returned in this step (log 8). -/
  wireRsp    : Option WireReply
  /-- The record of line movements, waits and exchanges, oldest first (20_memory R52). -/
  trace      : List Event
  /-- The input samples of the coming steps, next first (log 4). -/
  inputs     : List InputSample
  /-- The number of steps taken: indexes the free draws and free values (log 4, log 7). -/
  draws      : Nat
  deriving DecidableEq, Repr

/-- The machine has no fault: every error outcome is a response, after which the block is in a defined
state and goes on (60_exceptions R204). -/
inductive Fault where
  deriving DecidableEq, Repr

/-- Why a step has no meaning. Each is safe: the model stops where the spec gives no meaning. -/
inductive Refusal where
  /-- Raised by an arm of `exec` whose instruction has no meaning yet. Safe. -/
  | notModelled (mnemonic : String)
  /-- Raised by `step`: the configuration lacks `start_line` or `ready_line` (10_state R25, 60_exceptions R204). Safe. -/
  | lineAbsent
  /-- Raised by `step`: a command is presented while `busy_o` = 1 (70_reset_and_hazards R221, 60_exceptions R204, 93 U16). Safe. -/
  | requestWhileBusy
  /-- Raised by `step`: the opcode bytes on the host's own path, of which there may be none as in a
  filler-only poll, open no transaction of the family (log 9). Safe. -/
  | malformedWireOpcode
  /-- Raised by a wire-level meaning on an instance of the other family: rows of different families are
  never decoded against each other (30_encoding, opening). `step` never reaches it. Safe. -/
  | otherFamily
  deriving DecidableEq, Repr

/-- `mode_o[1:0]` (10_state R22). -/
def DeviceMode.code : DeviceMode → BitVec 2
  | .idle              => 0b00#2
  | .conversionPending => 0b01#2
  | .continuous        => 0b10#2

/-- The output port `mode_o` (10_state R22). -/
def State.modeO (s : State) : BitVec 2 := s.mode.code

/-- `busy_o`: 1 from acceptance of a command to its response (10_state R28). -/
def State.busyO (s : State) : Bool :=
  match s.pending with
  | some (.command _ _ _) => true
  | _                     => false

/-- An instance of configuration `c` right after reset (10_state R33): Idle, start line deasserted,
not busy. No response, no event, no input: the model's own fields (log 3). -/
def State.built (c : BlockConfig) : State :=
  { cfg := c, mode := .idle, startLevel := false, pending := none, rsp := none, wireRsp := none,
    trace := [], inputs := [], draws := 0 }

/-- The configuration of the instance `State.reset` stands for. DESIGN CHOICE (log 2): the family, the
line handles and the conservative `UNSAFE` are chosen, the rest is the spec's default or free. -/
def defaultConfig : BlockConfig :=
  { fam := .adc, lines := { startLine := some 0, readyLine := some 1, resetLine := none },
    gate := .every, adcContPoll := .streamPoll, magFiller := Config.magFiller,
    startPulse := Config.startPulse, tick := Config.tick }

/-- The machine right after reset (10_state R33). -/
def State.reset : State := State.built defaultConfig

end Sys2Proof.Machine
end

