-- ==== Sys2Proof/Machine/Operands.lean ====
section
/-! DEFINITION. Byte order, two's complement, and the layout of the operand and result ports (00_scope R11, R12, 30_encoding R63, R64, R66). -/

namespace Sys2Proof.Machine

/-- `be(s)`: the big-endian unsigned value, `s[0]` most significant (00_scope R12, 20_memory R43). -/
def be : List Byte → Nat
  | []     => 0
  | b :: s => b.toNat * 256 ^ s.length + be s

/-- The fold of two's complement: an unsigned `W`-bit value at or above `2^(W-1)` stands for itself
less `2^W` (40_codec R82). -/
def foldSigned (w u : Nat) : Int :=
  if 2 ^ (w - 1) ≤ u then (u : Int) - 2 ^ w else (u : Int)

/-- The bytes of `u`, most significant first, `n` of them (40_codec R84). -/
def bigEndianBytes (n u : Nat) : List Byte :=
  (List.range n).map fun i => BitVec.ofNat 8 (u >>> (8 * (n - 1 - i)))

/-- `B[i]` of a port word: bits `8*i+7 : 8*i` (30_encoding R63). -/
def portByte (p : PortWord) (i : Nat) : Byte := p.extractLsb' (8 * i) 8

/-- Lane `k` of a port word: bits `32*k+31 : 32*k` (30_encoding R63, R64). -/
def portLane (p : PortWord) (k : Nat) : Lane := p.extractLsb' (32 * k) 32

/-- The byte-sequence operand `B[0]` to `B[n-1]` (30_encoding R63). Lengths above 16 are refused by
every operation on their length alone (log 13). -/
def portBytes (p : PortWord) (n : Nat) : List Byte := (List.range n).map (portByte p)

/-- The value of a result's bytes laid out from `R[0]` upward, `R[0]` lowest (30_encoding R64). -/
def packNat : List Byte → Nat
  | []     => 0
  | b :: s => b.toNat + 256 * packNat s

/-- A result of bytes, `R[i]` in bits `8*i+7 : 8*i`, unused bits 0 (30_encoding R64). -/
def packBytes (s : List Byte) : PortWord := BitVec.ofNat 128 (packNat s)

/-- The value of a result's lanes, lane 0 lowest (30_encoding R64). -/
def packLanesNat : List Lane → Nat
  | []     => 0
  | l :: s => l.toNat + 2 ^ 32 * packLanesNat s

/-- A result of 32-bit lanes from lane 0, unused bits 0 (30_encoding R64). -/
def packLanes (s : List Lane) : PortWord := BitVec.ofNat 128 (packLanesNat s)

/-- `sext_32` of a signed value (00_scope R11). -/
def sext32 (v : Int) : Lane := BitVec.ofInt 32 v

/-- A rational `num/den`, not reduced (00_scope R11, 40_codec R86). -/
structure Fraction where
  num : Int
  den : Nat
  deriving DecidableEq, Repr

/-- Two rationals are equal when their cross products are (00_scope R11). -/
def Fraction.same (a b : Fraction) : Bool := decide (a.num * b.den = b.num * a.den)

/-- The magnetometer's MeasurementFrame: counts after the axis transform, and the status flag (44_measurement R160). -/
structure MagFrame where
  x      : Int
  y      : Int
  z      : Int
  status : Bool
  deriving DecidableEq, Repr

/-- The result of a successful operation (30_encoding R66, column "result on OK"). -/
inductive Result where
  | none
  | code (v : Int)
  | fraction (f : Fraction)
  | frame (f : MagFrame)
  | bytes (s : List Byte)
  deriving DecidableEq, Repr

/-- `res_o` of a result (30_encoding R66); the status flag is bit 96. -/
def Result.port : Result → PortWord
  | .none       => 0#128
  | .code v     => packLanes [sext32 v]
  | .fraction f => packLanes [sext32 f.num, BitVec.ofNat 32 f.den]
  | .frame f    => packLanes [sext32 f.x, sext32 f.y, sext32 f.z, if f.status then 1#32 else 0#32]
  | .bytes s    => packBytes s

/-- `res_len_o` of a result (30_encoding R66). -/
def Result.length : Result → Nat
  | .none       => 0
  | .code _     => 4
  | .fraction _ => 8
  | .frame _    => 13
  | .bytes s    => s.length

/-- The latched operand port of the command in progress (10_state R28). -/
def State.operandPort (s : State) : PortWord :=
  match s.pending with
  | some (.command _ opd _) => opd
  | _                       => 0#128

/-- The latched `opd_len_i` of the command in progress (10_state R28). -/
def State.operandLength (s : State) : Nat :=
  match s.pending with
  | some (.command _ _ n) => n.toNat
  | _                     => 0

/-- The byte-sequence operand of the command in progress (30_encoding R63). -/
def State.operandBytes (s : State) : List Byte := portBytes s.operandPort s.operandLength

/-- Integer lane `k` of the command in progress, read as `signed_32` (30_encoding R63). -/
def State.signedLane (s : State) (k : Nat) : Int := (portLane s.operandPort k).toInt

/-- Integer lane `k` of the command in progress, read as unsigned (30_encoding R63). -/
def State.unsignedLane (s : State) (k : Nat) : Nat := (portLane s.operandPort k).toNat

/-- The data of the transaction in progress on the host's own path (log 8). -/
def State.wireData (s : State) : List Byte :=
  match s.pending with
  | some (.wire _ data) => data
  | _                   => []

/-- A command of the command port, not a transaction of the host's own path (log 8). -/
def Request.isCommand : Request → Bool
  | .command _ _ _ => true
  | .wire _ _      => false

/-- What the decoder reads of a request on an instance of a family (30_encoding R60). -/
def Request.image (fam : Family) : Request → Image
  | .command cw _ _ => .command cw
  | .wire opcode _  => .wire fam opcode

end Sys2Proof.Machine
end

