-- ==== Sys2Proof/Machine/Builders.lean ====
section
/-! DEFINITION. The transaction builders (42_transactions R110 to R120): pure functions of their operands and the family constants. -/

namespace Sys2Proof.Machine

/-- A TransactionRequest (42_transactions R110). -/
structure TransactionRequest where
  opcodeBytes    : List Byte
  payload        : List Byte
  responseLength : Nat
  deriving DecidableEq, Repr

/-- `bytes_out = opcode_bytes ++ payload`, handed to `Exchange` whole (42_transactions R110). -/
def TransactionRequest.bytesOut (q : TransactionRequest) : List Byte := q.opcodeBytes ++ q.payload

/-- The response of a transaction: the last `response_length` bytes of the reply, the earlier ones
discarded as echo or garbage (42_transactions R110). -/
def TransactionRequest.response (q : TransactionRequest) (reply : List Byte) : List Byte :=
  reply.drop (reply.length - q.responseLength)

/-- The filler byte of the instance's family (30_encoding R72). -/
def fillerByte (c : BlockConfig) : Byte :=
  match c.fam with
  | .adc => Params.adcFiller
  | .mag => c.magFiller

/-- `1 <= count <= 15` (42_transactions R111). -/
def countInDomain (count : Nat) : Bool :=
  decide (Params.countMin ≤ count) && decide (count ≤ Params.countMax)

/-- The opcode bytes of a register read (30_encoding R68, R71). -/
def readOpcode (fam : Family) (addr count : Nat) : List Byte :=
  match fam with
  | .adc => [adcReadByte addr, adcCountByte (count - 1)]
  | .mag => [magReadByte addr]

/-- The opcode bytes of a register write (30_encoding R69, R71). -/
def writeOpcode (fam : Family) (addr count : Nat) : List Byte :=
  match fam with
  | .adc => [adcWriteByte addr, adcCountByte (count - 1)]
  | .mag => [magWriteByte addr]

/-- `build_read_register(FAM, addr, count)` (42_transactions R112, R114): count is tested first. -/
def buildReadRegister (c : BlockConfig) (addr count : Nat) : Except OpError TransactionRequest :=
  if countInDomain count = false then .error .countRangeError
  else if Params.addrMax c.fam < addr then .error .rangeError
  else .ok { opcodeBytes := readOpcode c.fam addr count
             payload := List.replicate count (fillerByte c)
             responseLength := count }

/-- `build_write_register(FAM, addr, count, data)` (42_transactions R113, R115): the count, then the
length of the data, then the address. -/
def buildWriteRegister (c : BlockConfig) (addr count : Nat) (data : List Byte) : Except OpError TransactionRequest :=
  if countInDomain count = false then .error .countRangeError
  else if data.length ≠ count then .error .countRangeError
  else if Params.addrMax c.fam < addr then .error .rangeError
  else .ok { opcodeBytes := writeOpcode c.fam addr count, payload := data, responseLength := 0 }

/-- `build_bare(opcode)`: one byte sent, its reply discarded (42_transactions R118). -/
def buildBare (opcode : Byte) : TransactionRequest :=
  { opcodeBytes := [opcode], payload := [], responseLength := 0 }

/-- `build_rdata_poll()`, the ADC's data-producing poll (42_transactions R116). -/
def buildRdataPoll : TransactionRequest :=
  { opcodeBytes := [adcRdataByte]
    payload := List.replicate Params.adcSampleBytes Params.adcFiller
    responseLength := Params.adcSampleBytes }

/-- The full sample-frame width of a family (42_transactions R117). -/
def frameBytes : Family → Nat
  | .adc => Params.adcSampleBytes
  | .mag => Params.magFrameBytes

/-- `build_streaming_poll(FAM)`: filler only, as long as the family's sample frame (42_transactions R117). -/
def buildStreamingPoll (c : BlockConfig) : TransactionRequest :=
  { opcodeBytes := []
    payload := List.replicate (frameBytes c.fam) (fillerByte c)
    responseLength := frameBytes c.fam }

/-- `ResultTxn(FAM, mode)`, the transaction RDR uses (43_device_mode R141). The Idle row does not
exist: RDR refuses in Idle before it asks. -/
def resultTxn (c : BlockConfig) (m : DeviceMode) : TransactionRequest :=
  match c.fam, m, c.adcContPoll with
  | .mag, _,           _           => buildStreamingPoll c
  | .adc, .continuous, .streamPoll => buildStreamingPoll c
  | .adc, .continuous, .rdataPoll  => buildRdataPoll
  | .adc, _,           _           => buildRdataPoll

end Sys2Proof.Machine
end

