-- ==== Sys2Proof/Machine/Flags.lean ====
section
/-! DEFINITION. The block has no condition codes (10_state R27). What it computes in their place: the status code of an outcome (60_exceptions R181) and the magnetometer frame's status flag (44_measurement R167). -/

namespace Sys2Proof.Machine

/-- The code of OK on `st_o` (60_exceptions R181). -/
def okCode : BitVec 4 := 0x0#4

/-- The code of an error on `st_o` (60_exceptions R181). -/
def OpError.code : OpError → BitVec 4
  | .rangeError        => 0x1#4
  | .invalidFieldError => 0x2#4
  | .unknownFieldError => 0x3#4
  | .countRangeError   => 0x4#4
  | .illegalStateError => 0x5#4
  | .timeoutError      => 0x6#4
  | .transportError    => 0x7#4
  | .cancelled         => 0x8#4
  | .reservedOp        => 0xF#4

/-- The status flag of a magnetometer frame: bit 7 of its first byte (44_measurement R167). -/
def statusFlag (s : List Byte) : Bool :=
  match s with
  | b :: _ => bits b.toNat 7 7 == 1
  | []     => false

/-- The response of an outcome: the result on OK; after an error the result port carries no
information, a free value (30_encoding R64, 93 U17, log 7). `n` indexes the free value. -/
def response (n : Nat) : Except OpError Result → Response
  | .ok r    => { st := okCode, res := r.port, resLen := BitVec.ofNat 5 r.length }
  | .error e => { st := e.code, res := Config.errorResult n, resLen := Config.errorResultLength n }

end Sys2Proof.Machine
end

