-- ==== Sys2Proof/Machine/Ops.lean ====
section
/-! DEFINITION. The shared operations: the inputs of a step, the response, the lines, the wait, the exchange, the gate, acceptance, and reset. What stands in the place of taking an exception is `State.respond` with an error: no state register is written and the next operation runs (60_exceptions R190, R200). -/

namespace Sys2Proof.Machine

/-- The input sample of this step: the next one given, or, when none is given, no request and free
draws (log 4). -/
def State.sample (s : State) : InputSample :=
  match s.inputs with
  | p :: _ => p
  | []     =>
    { rst := false, request := none
      lineAtStart := Config.freeLineAtStart s.draws, lineLater := Config.freeLineLater s.draws
      cancel := Config.freeCancel s.draws, cancelFirst := Config.freeCancelFirst s.draws
      reply := Config.freeReply s.draws }

/-- The end of a step: its sample is used up, the draw counter advances, and neither port keeps a value
(10_state R20). -/
def State.consume (s : State) : State :=
  { s with inputs := s.inputs.tail, draws := s.draws + 1, rsp := none, wireRsp := none }

/-- The one response of an accepted command; `busy_o` falls with it (30_encoding R64, 60_exceptions
R180). An error writes no state register, saves nothing and transfers control nowhere (R190). -/
def State.respond (s : State) (o : Except OpError Result) : State :=
  { s.consume with pending := none, rsp := some (Sys2Proof.Machine.response s.draws o) }

/-- The end of a transaction on the host's own path (log 8). -/
def State.respondWire (s : State) (o : Except OpError (List Byte)) : State :=
  { s.consume with
    pending := none
    wireRsp := some (match o with
                     | .ok r    => .bytes r
                     | .error e => .failed e) }

/-- An event outside the block (20_memory R52). -/
def State.emit (s : State) (e : Event) : State := { s with trace := s.trace ++ [e] }

/-- `SetLevel(start_line, b); start_level <- b` (20_memory R47, 10_state R23). -/
def State.setStart (s : State) (active : Bool) : State :=
  { s.emit (.setLevel active) with startLevel := active }

/-- `Pulse(start_line, START_PULSE)`: the line goes active and inactive again, so `start_level` ends
at 0 (20_memory R48, 43_device_mode R132). -/
def State.pulseStart (s : State) : State :=
  { s.emit (.pulse s.cfg.startPulse) with startLevel := false }

/-- How a data-ready wait bounded by `t` ticks ends (60_exceptions R192 to R195). A bound of 0 is one
look at the line. A cancel request ends the wait when it is seen first or wins a tie (log 5). -/
def InputSample.waitOutcome (p : InputSample) (t : Nat) : WaitOutcome :=
  if p.cancel && p.cancelFirst then .cancelled
  else if p.lineAtStart || (decide (0 < t) && p.lineLater) then .ready
  else .timedOut

/-- `WaitReady(t)` on `ready_line` (20_memory R49). -/
def State.waitReady (s : State) (t : Nat) : State × WaitOutcome :=
  (s.emit (.wait t s.cfg.tick (s.sample.waitOutcome t)), s.sample.waitOutcome t)

/-- The reply of the bus transport to `n` bytes: a reply of any other length is a transport failure (20_memory R46). -/
def State.acceptedReply (s : State) (n : Nat) : Option (List Byte) :=
  match s.sample.reply with
  | some r => if r.length = n then some r else none
  | none   => none

/-- One transaction: `bytes_out` is exchanged whole, and its response is what the request keeps of the
reply; a failure is TransportError (20_memory R44 to R46, 42_transactions R110, 60_exceptions R188). The record
then names the bytes handed over, not how many of them went out (log 17). -/
def State.transact (s : State) (q : TransactionRequest) : State × Except OpError (List Byte) :=
  (s.emit (.exchange q.bytesOut (s.acceptedReply q.bytesOut.length)),
   match s.acceptedReply q.bytesOut.length with
   | some r => .ok (q.response r)
   | none   => .error .transportError)

/-- The gate: outside Idle an access to a register unsafe during conversion is refused (43_device_mode R139). -/
def State.gateRefuses (s : State) (a : Access) : Bool :=
  match s.mode with
  | .idle => false
  | _     => s.cfg.gate.covers a

/-- A transaction requiring register access: what the builder made is sent unless the builder or the
gate refuses, in that order (43_device_mode R136 to R139). -/
def State.gatedAccess (s : State) (a : Access) (built : Except OpError TransactionRequest) :
    State × Except OpError (List Byte) :=
  match built with
  | .error e => (s, .error e)
  | .ok q    => if s.gateRefuses a then (s, .error .illegalStateError) else s.transact q

/-- `MemRead(addr, count)` behind the gate (20_memory R44, 43_device_mode R136). -/
def State.registerRead (s : State) (addr count : Nat) : State × Except OpError (List Byte) :=
  s.gatedAccess { addr := addr, count := count, dir := .read } (buildReadRegister s.cfg addr count)

/-- `MemWrite(addr, count, data)` behind the gate (20_memory R45, 43_device_mode R137). -/
def State.registerWrite (s : State) (addr count : Nat) (data : List Byte) : State × Except OpError (List Byte) :=
  s.gatedAccess { addr := addr, count := count, dir := .write } (buildWriteRegister s.cfg addr count data)

/-- Nothing is presented: the step only uses up its sample. -/
def State.idleStep (s : State) : State := s.consume

/-- Acceptance of a request while nothing is in progress: it is latched, and for a command `busy_o` rises (30_encoding R62, 10_state R28). -/
def State.accept (s : State) (r : Request) : State := { s.consume with pending := some r }

/-- A request presented while a transaction of the host's own path runs, or such a transaction presented
while a command runs, is latched as the running one ends: `busy_o` does not bar it, and the bus carries
one transaction at a time (30_encoding R62, 43_device_mode R140, 20_memory R51, log 15). -/
def State.followedBy (s : State) (presented : Option Request) : State :=
  { s with pending := presented.or s.pending }

/-- The end of a step in which a request ran and `presented` was presented. -/
def thenAccept (presented : Option Request) :
    Host.Outcome State Fault Refusal → Host.Outcome State Fault Refusal
  | .next t    => .next (t.followedBy presented)
  | .fault e   => .fault e
  | .refused e => .refused e

/-- A command presented while a command is in progress, that is while `busy_o` = 1 (70_reset_and_hazards
R221, 93 U16). -/
def commandsOverlap (running : Request) : Option Request → Bool
  | some r => running.isCommand && r.isCommand
  | none   => false

/-- The event of abandoning the command that was in progress (70_reset_and_hazards R212, log 10). -/
def State.abandonEvents (s : State) : List Event :=
  match s.pending with
  | some (.command cw opd n) => [.abandoned (.command cw opd n)]
  | _                        => []

/-- The event of the start line following `start_level` to inactive (70_reset_and_hazards R211). -/
def State.dropLineEvents (s : State) : List Event := if s.startLevel then [.setLevel false] else []

/-- The reset event: the state registers go to the values of 10_state R33, an operation in progress is
abandoned without a response, no byte is sent and no line but the start line moves
(70_reset_and_hazards R210 to R212). The configuration stays as built. A transaction of the host's own
path is outside the block (43_device_mode R140): it stays in progress; nothing presented in the step is
accepted (log 10). -/
def State.resetEvent (s : State) : State :=
  { s.consume with
    mode := .idle
    startLevel := false
    pending := s.pending.filter fun r => !r.isCommand
    trace := s.trace ++ s.abandonEvents ++ s.dropLineEvents }

/-- The number of operand bytes an instruction takes, for a word placed without its operands (log 11). -/
def naturalLength : Instr → Nat
  | .decs w      => w / 8
  | .cvadc       => Params.adcSampleBytes
  | .cvmag       => Params.magFrameBytes
  | .wrg c _     => c
  | .adcWreg _ n => n + 1
  | .magRead _   => 1
  | .magWrite _  => 1
  | _            => 0

/-- The request that places a word of the opcode table, with operands of zeros (log 11). -/
def placedRequest (nbits w : Nat) : Request :=
  match tableImage nbits w with
  | .command cw    => .command cw 0#128 (BitVec.ofNat 5 (((decodeTableWord nbits w).map naturalLength).getD 0))
  | .wire _ opcode => .wire opcode (List.replicate (((decodeTableWord nbits w).map naturalLength).getD 0) 0x00#8)

/-- The family an instance must have for a word of the opcode table to run on it: a wire row's own, the
instance's for a command word (log 11). -/
def placedFamily (fam : Family) (nbits w : Nat) : Family :=
  match tableImage nbits w with
  | .command _   => fam
  | .wire fam' _ => fam'

/-- The coming inputs with no reset and no request in the next step (log 11). -/
def quietNext : List InputSample → List InputSample
  | []        => []
  | p :: rest => { p with rst := false, request := none } :: rest

end Sys2Proof.Machine
end

