-- ==== Sys2Proof/Machine/Codec.lean ====
section
/-! DEFINITION. The codec: DECS, ENCS, DECF (40_codec R80 to R90) and the pseudo-operations over them (30_encoding R76). -/

namespace Sys2Proof.Machine

/-- `W in WIDTHS` (40_codec R81). -/
def widthLegal (w : Nat) : Bool := decide (w ∈ Params.widths)

/-- `-2^(W-1) <= v <= 2^(W-1) - 1` (40_codec R84, R86). -/
def fitsSigned (w : Nat) (v : Int) : Bool := decide (-(2 ^ (w - 1) : Int) ≤ v) && decide (v ≤ 2 ^ (w - 1) - 1)

/-- `decode_signed` (40_codec R82). -/
def decodeSigned (w : Nat) (s : List Byte) : Except OpError Int :=
  if widthLegal w = false then .error .rangeError
  else if s.length ≠ w / 8 then .error .rangeError
  else .ok (foldSigned w (be s))

/-- `encode_signed`: rejects what does not fit, never clamps (40_codec R84). -/
def encodeSigned (w : Nat) (v : Int) : Except OpError (List Byte) :=
  if widthLegal w = false then .error .rangeError
  else if fitsSigned w v = false then .error .rangeError
  else .ok (bigEndianBytes (w / 8) (v % 2 ^ w).toNat)

/-- `decode_fraction`: the exact, unreduced rational (40_codec R86). -/
def decodeFraction (w : Nat) (c k : Int) : Except OpError Fraction :=
  if widthLegal w = false then .error .rangeError
  else if fitsSigned w c = false then .error .rangeError
  else if k < 1 then .error .rangeError
  else .ok { num := c, den := k.toNat }

/-- `OFFSET.DEC` (30_encoding R76, 40_codec R87). -/
def offsetDecode (s : List Byte) : Except OpError Int := decodeSigned Params.codeW s

/-- `OFFSET.ENC` (30_encoding R76, 40_codec R87). -/
def offsetEncode (v : Int) : Except OpError (List Byte) := encodeSigned Params.codeW v

/-- `GAIN.DEC` (30_encoding R76, 40_codec R88). -/
def gainDecode (s : List Byte) : Except OpError Fraction :=
  match decodeSigned Params.codeW s with
  | .ok c    => decodeFraction Params.codeW c Params.gainScale
  | .error e => .error e

/-- `GAIN.ENC` on the integer code (30_encoding R76). -/
def gainEncode (c : Int) : Except OpError (List Byte) := encodeSigned Params.codeW c

/-- DECS (40_codec R82). -/
def execDecs (w : Nat) (s : State) : Host.Outcome State Fault Refusal :=
  .next (s.respond ((decodeSigned w s.operandBytes).map .code))

/-- ENCS: the value is lane 0, signed (40_codec R84). -/
def execEncs (w : Nat) (s : State) : Host.Outcome State Fault Refusal :=
  .next (s.respond ((encodeSigned w (s.signedLane 0)).map .bytes))

/-- DECF: the code is lane 0, signed, the scale lane 1, unsigned (40_codec R86). -/
def execDecf (w : Nat) (s : State) : Host.Outcome State Fault Refusal :=
  .next (s.respond ((decodeFraction w (s.signedLane 0) (s.unsignedLane 1)).map .fraction))

end Sys2Proof.Machine
end

