-- ==== Sys2Proof/Machine/Measurement.lean ====
section
/-! DEFINITION. Measurement conversion: CVADC, CVMAG (44_measurement R160 to R168). -/

namespace Sys2Proof.Machine

/-- The ADC frame `{code}` of 3 sample bytes (44_measurement R162). -/
def convertAdc (s : List Byte) : Except OpError Int :=
  if s.length ≠ Params.adcSampleBytes then .error .rangeError else decodeSigned Params.codeW s

/-- The signed 24-bit value of source axis `i`: bytes `3i+1` to `3i+3` of the frame (44_measurement R163). -/
def sourceAxis (s : List Byte) (i : Nat) : Int := foldSigned Params.codeW (be ((s.drop (3 * i + 1)).take 3))

/-- The magnetometer frame of 10 bytes, with the axis transform (y, x, -z), exact (44_measurement R164, R165). -/
def convertMag (s : List Byte) : Except OpError MagFrame :=
  if s.length ≠ Params.magFrameBytes then .error .rangeError
  else .ok { x := sourceAxis s 1, y := sourceAxis s 0, z := -sourceAxis s 2, status := statusFlag s }

/-- The physical value of an axis in microtesla: count over `MAG_DIVISOR`, exact (44_measurement R166). -/
def microtesla (count : Int) : Fraction := { num := count, den := Params.magDivisor }

/-- CVADC (44_measurement R162). -/
def execCvadc (s : State) : Host.Outcome State Fault Refusal :=
  .next (s.respond ((convertAdc s.operandBytes).map .code))

/-- CVMAG (44_measurement R164). -/
def execCvmag (s : State) : Host.Outcome State Fault Refusal :=
  .next (s.respond ((convertMag s.operandBytes).map .frame))

end Sys2Proof.Machine
end

