-- ==== Sys2Proof/Machine/ModeOps.lean ====
section
/-! DEFINITION. The device-mode state machine and the gated register access: STS, RDR, STC, STP, RRG, WRG (43_device_mode R130 to R143). -/

namespace Sys2Proof.Machine

/-- STS: legal only from Idle, pulses the start line, enters ConversionPending (43_device_mode R132). -/
def State.startSingle (s : State) : State × Except OpError Result :=
  match s.mode with
  | .idle => ({ s.pulseStart with mode := .conversionPending }, .ok .none)
  | _     => (s, .error .illegalStateError)

/-- STC: legal only from Idle, holds the start line active, enters Continuous (43_device_mode R134). -/
def State.startContinuous (s : State) : State × Except OpError Result :=
  match s.mode with
  | .idle => ({ s.setStart true with mode := .continuous }, .ok .none)
  | _     => (s, .error .illegalStateError)

/-- STP: legal from any mode but Idle, deasserts the start line, returns to Idle (43_device_mode R135). -/
def State.stopConversion (s : State) : State × Except OpError Result :=
  match s.mode with
  | .idle => (s, .error .illegalStateError)
  | _     => ({ s.setStart false with mode := .idle }, .ok .none)

/-- The conversion at the end of RDR: CVADC or CVMAG by family (43_device_mode R133). -/
def convertSample (fam : Family) (d : List Byte) : Except OpError Result :=
  match fam with
  | .adc => (convertAdc d).map .code
  | .mag => (convertMag d).map .frame

/-- The read of RDR: the result transaction of the mode, then the conversion (43_device_mode R133, R141). -/
def State.readSample (s : State) : State × Except OpError Result :=
  match s.transact (resultTxn s.cfg s.mode) with
  | (s', .ok d)    => (s', convertSample s'.cfg.fam d)
  | (s', .error e) => (s', .error e)

/-- What RDR does once a conversion was pending and the line came: Idle again, but only after a read
that succeeded (43_device_mode R133). -/
def State.readPending (s : State) : State × Except OpError Result :=
  match s.readSample with
  | (s', .ok r)    => ({ s' with mode := .idle }, .ok r)
  | (s', .error e) => (s', .error e)

/-- RDR with the bound `t`: the wait is in ConversionPending and nowhere else (43_device_mode R133, R142). -/
def State.readResult (s : State) (t : Nat) : State × Except OpError Result :=
  match s.mode with
  | .idle              => (s, .error .illegalStateError)
  | .continuous        => s.readSample
  | .conversionPending =>
    match s.waitReady t with
    | (s', .timedOut)  => (s', .error .timeoutError)
    | (s', .cancelled) => (s', .error .cancelled)
    | (s', .ready)     => s'.readPending

/-- STS (43_device_mode R132). -/
def execSts (s : State) : Host.Outcome State Fault Refusal :=
  .next (s.startSingle.1.respond s.startSingle.2)

/-- RDR: the timeout is lane 0, unsigned (43_device_mode R133). -/
def execRdr (s : State) : Host.Outcome State Fault Refusal :=
  .next ((s.readResult (s.unsignedLane 0)).1.respond (s.readResult (s.unsignedLane 0)).2)

/-- STC (43_device_mode R134). -/
def execStc (s : State) : Host.Outcome State Fault Refusal :=
  .next (s.startContinuous.1.respond s.startContinuous.2)

/-- STP (43_device_mode R135). -/
def execStp (s : State) : Host.Outcome State Fault Refusal :=
  .next (s.stopConversion.1.respond s.stopConversion.2)

/-- RRG (43_device_mode R136). -/
def execRrg (cnt addr : Nat) (s : State) : Host.Outcome State Fault Refusal :=
  .next ((s.registerRead addr cnt).1.respond ((s.registerRead addr cnt).2.map .bytes))

/-- WRG: the data is the byte-sequence operand, the reply is discarded (43_device_mode R137). -/
def execWrg (cnt addr : Nat) (s : State) : Host.Outcome State Fault Refusal :=
  .next ((s.registerWrite addr cnt s.operandBytes).1.respond
    ((s.registerWrite addr cnt s.operandBytes).2.map fun _ => .none))

end Sys2Proof.Machine
end

