-- ==== Sys2Proof/Machine/WirePath.lean ====
section
/-! DEFINITION. The rows of wire bytes (30_encoding R68 to R71) as transactions on the host's own path to the device (42_transactions R118, 43_device_mode R140): the block's mode and start line take no notice of them (log 8). -/

namespace Sys2Proof.Machine

/-- A transaction of one family, on an instance of that family. -/
def onFamily (fam : Family) (s : State) (run : State × Except OpError (List Byte)) : Host.Outcome State Fault Refusal :=
  if s.cfg.fam = fam then .next (run.1.respondWire run.2) else .refused .otherFamily

/-- A bare command of the ADC (42_transactions R118); data the host names beside it is not sent (log 9). -/
def adcBare (opcode : Byte) (s : State) : Host.Outcome State Fault Refusal :=
  onFamily .adc s (s.transact (buildBare opcode))

/-- ADC.RREG: a register read of `countMinusOne + 1` bytes, behind the gate; data the host
names beside it is not sent (30_encoding R68, 42_transactions R112, log 9). -/
def execAdcRreg (address countMinusOne : Nat) (s : State) : Host.Outcome State Fault Refusal :=
  onFamily .adc s (s.registerRead address (countMinusOne + 1))

/-- ADC.WREG: a register write of `countMinusOne + 1` bytes, behind the gate (30_encoding R69, 42_transactions R113, log 9). -/
def execAdcWreg (address countMinusOne : Nat) (s : State) : Host.Outcome State Fault Refusal :=
  onFamily .adc s (s.registerWrite address (countMinusOne + 1) s.wireData)

/-- ADC.RESET (30_encoding R70). -/
def execAdcReset (s : State) : Host.Outcome State Fault Refusal := adcBare adcResetByte s

/-- ADC.WAKE (30_encoding R70). -/
def execAdcWake (s : State) : Host.Outcome State Fault Refusal := adcBare adcWakeByte s

/-- ADC.SLEEP (30_encoding R70). -/
def execAdcSleep (s : State) : Host.Outcome State Fault Refusal := adcBare adcSleepByte s

/-- ADC.NOP (30_encoding R70). -/
def execAdcNop (s : State) : Host.Outcome State Fault Refusal := adcBare adcNopByte s

/-- ADC.RDATA: the data-producing poll; data the host names beside it is not sent (30_encoding R70,
42_transactions R116, log 9). -/
def execAdcRdata (s : State) : Host.Outcome State Fault Refusal :=
  onFamily .adc s (s.transact buildRdataPoll)

/-- ADC.RDATAC (30_encoding R70). -/
def execAdcRdatac (s : State) : Host.Outcome State Fault Refusal := adcBare adcRdatacByte s

/-- ADC.SDATAC (30_encoding R70). -/
def execAdcSdatac (s : State) : Host.Outcome State Fault Refusal := adcBare adcSdatacByte s

/-- MAG.READ: as many bytes as the payload has, each sent as filler (30_encoding R71, 42_transactions R114).
A lone byte is an access of count 0, so CountRangeError and nothing sent, not a bare command (log 9). -/
def execMagRead (address : Nat) (s : State) : Host.Outcome State Fault Refusal :=
  onFamily .mag s (s.registerRead address s.wireData.length)

/-- MAG.WRITE: as many bytes as the payload has (30_encoding R71, 42_transactions R115). A lone byte is an
access of count 0, so CountRangeError and nothing sent, not a bare command (log 9). -/
def execMagWrite (address : Nat) (s : State) : Host.Outcome State Fault Refusal :=
  onFamily .mag s (s.registerWrite address s.wireData.length s.wireData)

/-- A request whose image is no instruction. A reserved command word is answered ReservedOp
(30_encoding R67). One opcode byte that is no row of the ADC's is a bare command (42_transactions
R118 takes any byte), without data (log 9). Other opcode bytes open no transaction: two or more that are no
row, and none at all, the shape of the filler-only poll of R117, which the model lets only RDR send (log 9). -/
def execUndecoded (r : Request) (s : State) : Host.Outcome State Fault Refusal :=
  match r with
  | .command _ _ _ => .next (s.respond (.error .reservedOp))
  | .wire [b] _    => adcBare b s
  | .wire _ _      => .refused .malformedWireOpcode

end Sys2Proof.Machine
end

