-- ==== Sys2Proof/Machine/Dispatch.lean ====
section
/-! DEFINITION. One arm per constructor of Instr: each calls its meaning. -/

namespace Sys2Proof.Machine

def exec (i : Instr) (s : State) : Host.Outcome State Fault Refusal :=
  match i with
  -- codec
  | .decs w => Sys2Proof.Machine.execDecs w s
  | .encs w => Sys2Proof.Machine.execEncs w s
  | .decf w => Sys2Proof.Machine.execDecf w s
  -- measurement
  | .cvadc => Sys2Proof.Machine.execCvadc s
  | .cvmag => Sys2Proof.Machine.execCvmag s
  -- device mode
  | .sts => Sys2Proof.Machine.execSts s
  | .rdr => Sys2Proof.Machine.execRdr s
  | .stc => Sys2Proof.Machine.execStc s
  | .stp => Sys2Proof.Machine.execStp s
  | .rrg cnt addr => Sys2Proof.Machine.execRrg cnt addr s
  | .wrg cnt addr => Sys2Proof.Machine.execWrg cnt addr s
  -- wire bytes, ADC
  | .adcRreg address n => Sys2Proof.Machine.execAdcRreg address n s
  | .adcWreg address n => Sys2Proof.Machine.execAdcWreg address n s
  | .adcReset => Sys2Proof.Machine.execAdcReset s
  | .adcWake => Sys2Proof.Machine.execAdcWake s
  | .adcSleep => Sys2Proof.Machine.execAdcSleep s
  | .adcNop => Sys2Proof.Machine.execAdcNop s
  | .adcRdata => Sys2Proof.Machine.execAdcRdata s
  | .adcRdatac => Sys2Proof.Machine.execAdcRdatac s
  | .adcSdatac => Sys2Proof.Machine.execAdcSdatac s
  -- wire bytes, magnetometer
  | .magRead address => Sys2Proof.Machine.execMagRead address s
  | .magWrite address => Sys2Proof.Machine.execMagWrite address s

end Sys2Proof.Machine
end

