-- ==== Sys2Proof/Machine/Cycle.lean ====
section
/-! DEFINITION. What happens in one step of an admitted configuration: reset, acceptance of a request, or the whole of the operation in progress (00_scope R14, R18, 10_state R28, 70_reset_and_hazards R210 to R212, R221). -/

namespace Sys2Proof.Machine

/-- The operation in progress runs as a whole and is answered (00_scope R14). -/
def runPending (r : Request) (s : State) : Host.Outcome State Fault Refusal :=
  match decode (r.image s.cfg.fam) with
  | .ok i    => exec i s
  | .error _ => execUndecoded r s

/-- A request in progress runs, and what is presented meanwhile is accepted as it ends, but for a command
presented while a command is in progress, which is refused (70_reset_and_hazards R221). -/
def serve (r : Request) (s : State) : Host.Outcome State Fault Refusal :=
  if commandsOverlap r s.sample.request then .refused .requestWhileBusy
  else thenAccept s.sample.request (runPending r s)

/-- A step of an admitted configuration. `rst_i` goes before everything else (log 10). -/
def admittedStep (s : State) : Host.Outcome State Fault Refusal :=
  if s.sample.rst then .next s.resetEvent
  else
    match s.pending, s.sample.request with
    | some r, _      => serve r s
    | none,   some r => .next (s.accept r)
    | none,   none   => .next s.idleStep

end Sys2Proof.Machine
end

