-- ==== Sys2Proof/Machine/Step.lean ====
section
/-! DEFINITION. One step: reset, acceptance of a request, or the whole of the operation in progress (00_scope R14, R18, 10_state R28, 70_reset_and_hazards R210 to R212, R221). -/

namespace Sys2Proof.Machine

/-- One step of the system. A configuration without `start_line` or `ready_line` is refused (10_state R25). -/
def step (s : State) : Host.Outcome State Fault Refusal :=
  if s.cfg.admitted then admittedStep s else .refused .lineAbsent

/-- The state with the instruction of an opcode-table word placed where `step` takes its next
instruction: accepted and in progress, with operands of zeros, on an instance of the row's family, and
no reset or request in the next input sample (log 11). -/
def State.withFetchWord (s : State) (nbits w : Nat) : State :=
  { s with
    cfg := { s.cfg with fam := placedFamily s.cfg.fam nbits w }
    pending := some (placedRequest nbits w)
    inputs := quietNext s.inputs }

end Sys2Proof.Machine
end

