-- ==== Sys2Proof/Machine/Fields.lean ====
section
/-! DEFINITION. Register sub-field packing, the pure function FPK (41_register_fields R100 to R106). It has no operation code and touches no state. -/

namespace Sys2Proof.Machine

/-- A sub-field: its bits are `offset + width - 1` down to `offset`, bit 0 least significant (41_register_fields R100). -/
structure Subfield where
  offset : Nat
  width  : Nat
  min    : Int
  max    : Int
  deriving DecidableEq, Repr

/-- A register descriptor; a field is named by its index in the list (41_register_fields R100, R101). -/
structure RegDescriptor where
  address    : Nat
  widthBytes : Nat
  subfields  : List Subfield
  deriving DecidableEq, Repr

/-- Bit `p` lies in the span of the field (41_register_fields R100). -/
def Subfield.spans (f : Subfield) (p : Nat) : Bool := decide (f.offset ≤ p) && decide (p < f.offset + f.width)

/-- Two spans share no bit; the span of a field of width 0 has none. -/
def Subfield.apart (f g : Subfield) : Bool :=
  decide (f.width = 0) || decide (g.width = 0) || decide (f.offset + f.width ≤ g.offset) || decide (g.offset + g.width ≤ f.offset)

/-- No two spans of a list share a bit. -/
def spansApart : List Subfield → Bool
  | []     => true
  | f :: l => l.all f.apart && spansApart l

/-- The invariant of a descriptor: an address of the register space, a definite width of 1 to 3 bytes,
spans that fit and never overlap (41_register_fields R100; "(or variable)" has no descriptor, 93 U6).
A sub-field of width 0, on which the spec is silent, is admitted at an offset of at most `8 * widthBytes`
and refused above it, though its span has no bit that could fail to fit (log 14). -/
def RegDescriptor.wf (r : RegDescriptor) : Bool :=
  decide (r.address ≤ 127) && decide (1 ≤ r.widthBytes) && decide (r.widthBytes ≤ 3)
    && r.subfields.all (fun f => decide (f.offset + f.width ≤ 8 * r.widthBytes)) && spansApart r.subfields

/-- A field update: field index and value (41_register_fields R102). -/
abbrev FieldUpdate := Nat × Int

/-- Insert an update in ascending order of its field. -/
def insertUpdate (u : FieldUpdate) : List FieldUpdate → List FieldUpdate
  | []     => [u]
  | v :: l => if u.1 ≤ v.1 then u :: v :: l else v :: insertUpdate u l

/-- The updates in ascending order of their fields, the order in which they are examined (41_register_fields R102). -/
def ascending : List FieldUpdate → List FieldUpdate
  | []     => []
  | u :: l => insertUpdate u (ascending l)

/-- The first test an update fails: the field exists, `[min,max]`, then the bit width (41_register_fields R102). -/
def updateError (r : RegDescriptor) (u : FieldUpdate) : Option OpError :=
  match r.subfields[u.1]? with
  | none   => some .unknownFieldError
  | some f =>
    if f.min ≤ u.2 ∧ u.2 ≤ f.max ∧ 0 ≤ u.2 ∧ u.2 < 2 ^ f.width then none else some .invalidFieldError

/-- The first error of a list of updates, in its order. -/
def firstError (r : RegDescriptor) : List FieldUpdate → Option OpError
  | []     => none
  | u :: l =>
    match updateError r u with
    | some e => some e
    | none   => firstError r l

/-- `(new & ~mask) | (x << off(f))`, the complement over the register's bits (41_register_fields R102). -/
def applyUpdate (r : RegDescriptor) (v : Nat) (u : FieldUpdate) : Nat :=
  match r.subfields[u.1]? with
  | none   => v
  | some f =>
    (v &&& ((2 ^ (8 * r.widthBytes) - 1) ^^^ ((2 ^ f.width - 1) <<< f.offset))) ||| (u.2.toNat <<< f.offset)

/-- `field_pack`: everything is validated before any bit is changed (41_register_fields R102). The spec defines
it for descriptors that keep R100 alone (93 U6); the model does not ask for `RegDescriptor.wf` and runs the
same loop on any other descriptor, overlapping fields in ascending order (log 14). -/
def fieldPack (r : RegDescriptor) (cur : Nat) (upd : List FieldUpdate) : Except OpError Nat :=
  if 2 ^ (8 * r.widthBytes) ≤ cur then .error .rangeError
  else
    match firstError r (ascending upd) with
    | some e => .error e
    | none   => .ok ((ascending upd).foldl (applyUpdate r) cur)

/-- The content of a field in a register value (41_register_fields R106). -/
def fieldUnpack (f : Subfield) (v : Nat) : Nat := (v >>> f.offset) &&& (2 ^ f.width - 1)

/-- The register value of the bytes RRG returned, and the bytes WRG is handed: big-endian (41_register_fields R103). -/
def registerValue (s : List Byte) : Nat := be s

/-- The bytes of a register value, for WRG (41_register_fields R103). -/
def registerBytes (r : RegDescriptor) (v : Nat) : List Byte := bigEndianBytes r.widthBytes v

end Sys2Proof.Machine
end

