-- ==== Sys2Proof/Safety.lean ====
section
/-! DEFINITION. What claims about the block are stated in: what an operation leaves alone, how a step answers, the invariant of a good state, and the language of successful operations. -/

namespace Sys2Proof.Machine

/-- Both state registers are as they were, no line moved, no byte was sent, no wait was begun (43_device_mode R131 "Illegal"). -/
def Untouched (s t : State) : Prop := t.mode = s.mode ∧ t.startLevel = s.startLevel ∧ t.trace = s.trace

/-- The request in progress is done: the configuration is as built, nothing is in progress any more,
one input sample is used up. -/
def Completed (s t : State) : Prop :=
  t.cfg = s.cfg ∧ t.pending = none ∧ t.inputs = s.inputs.tail ∧ t.draws = s.draws + 1

/-- The step answers the command in progress with the response `r`. -/
def Answers (s t : State) (r : Response) : Prop := t.rsp = some r ∧ t.wireRsp = none ∧ Completed s t

/-- The step answers with the error `e`; the result port is then of no meaning (30_encoding R64). -/
def AnswersError (s t : State) (e : OpError) : Prop := ∃ r, Answers s t r ∧ r.st = e.code

/-- The step answers OK with no result: an empty result port of length 0 (30_encoding R66). -/
def AnswersDone (s t : State) : Prop := Answers s t { st := 0x0#4, res := 0#128, resLen := 0#5 }

/-- The step ends a transaction on the host's own path with its response bytes. -/
def Returns (s t : State) (l : List Byte) : Prop := t.wireRsp = some (.bytes l) ∧ t.rsp = none ∧ Completed s t

/-- The step ends a transaction on the host's own path with an error. -/
def ReturnsError (s t : State) (e : OpError) : Prop := t.wireRsp = some (.failed e) ∧ t.rsp = none ∧ Completed s t

/-- The two's-complement value of a big-endian byte sequence of `w` bits (40_codec R82). -/
def signedValue (w : Nat) (s : List Byte) : Int :=
  if 2 ^ (w - 1) ≤ be s then (be s : Int) - 2 ^ w else (be s : Int)

/-- An OK response that carries the ADC frame of the sample bytes `d`: lane 0 the code, the rest 0 (30_encoding R66 CVADC). -/
def CarriesAdcFrame (r : Response) (d : List Byte) : Prop :=
  r.st = 0x0#4 ∧ (portLane r.res 0).toInt = signedValue 24 d ∧ r.res.toNat < 2 ^ 32 ∧ r.resLen = 4#5

/-- An OK response that carries the magnetometer frame of ten bytes `d`: lanes 0 to 2 are source axis
1, source axis 0 and minus source axis 2, bit 96 is bit 7 of the first byte, the rest 0
(30_encoding R66 CVMAG, 44_measurement R163 to R167). -/
def CarriesMagFrame (r : Response) (d : List Byte) : Prop :=
  ∃ b0 b1 b2 b3 b4 b5 b6 b7 b8 b9 : Byte,
    d = [b0, b1, b2, b3, b4, b5, b6, b7, b8, b9] ∧
    r.st = 0x0#4 ∧
    (portLane r.res 0).toInt = signedValue 24 [b4, b5, b6] ∧
    (portLane r.res 1).toInt = signedValue 24 [b1, b2, b3] ∧
    (portLane r.res 2).toInt = -signedValue 24 [b7, b8, b9] ∧
    portLane r.res 3 = (if b0.getLsbD 7 then 1#32 else 0#32) ∧
    r.resLen = 13#5

/-- An OK response that carries the frame of the instance's family (43_device_mode R133). -/
def CarriesFrame (fam : Family) (r : Response) (d : List Byte) : Prop :=
  match fam with
  | .adc => CarriesAdcFrame r d
  | .mag => CarriesMagFrame r d

/-- `start_level` is 1 exactly when `mode` is Continuous (10_state R24). -/
def State.lineMatchesMode (s : State) : Prop := s.startLevel = true ↔ s.mode = .continuous

/-- The level of the start line after an event, from its level before. -/
def lineStep (level : Bool) : Event → Bool
  | .setLevel b  => b
  | .pulse _     => false
  | .wait _ _ _  => level
  | .exchange _ _ => level
  | .abandoned _ => level

/-- The level of the start line after a record of events, from inactive. -/
def lineLevel (trace : List Event) : Bool := trace.foldl lineStep false

/-- The start line as recorded is at the level of `start_level` (10_state R23). -/
def State.lineFollows (s : State) : Prop := lineLevel s.trace = s.startLevel

/-- The codes `st_o` can carry (60_exceptions R181): FPK's two and 0x9 to 0xE are never produced. -/
def producedCodes : List (BitVec 4) := [0x0#4, 0x1#4, 0x4#4, 0x5#4, 0x6#4, 0x7#4, 0x8#4, 0xF#4]

/-- A response on the port carries a code the block produces. -/
def State.statusProduced (s : State) : Prop := ∀ r, s.rsp = some r → r.st ∈ producedCodes

/-- A response is there only when no command is in progress (30_encoding R64: `busy_o` falls with it). -/
def State.responseEnds (s : State) : Prop := s.rsp ≠ none → s.busyO = false ∧ s.wireRsp = none

/-- An event is one a builder can cause: an exchange sends 1 to 17 bytes and its accepted reply is as
long (42_transactions R120, 20_memory R46). -/
def Event.legal : Event → Prop
  | .exchange out reply => 1 ≤ out.length ∧ out.length ≤ 17 ∧ ∀ r, reply = some r → r.length = out.length
  | _                   => True

/-- Every recorded event is legal. -/
def State.eventsLegal (s : State) : Prop := ∀ e ∈ s.trace, e.legal

/-- The invariant of the block. -/
def State.Inv (s : State) : Prop :=
  s.lineMatchesMode ∧ s.lineFollows ∧ s.statusProduced ∧ s.responseEnds ∧ s.eventsLegal

/-- The operation ended in success: OK on the response port, or a response on the host's own path. -/
def State.succeeded (t : State) : Prop :=
  (∃ r, t.rsp = some r ∧ r.st = 0x0#4) ∨ (∃ l, t.wireRsp = some (.bytes l))

/-- The operation ended in an error. -/
def State.failed (t : State) : Prop :=
  (∃ r, t.rsp = some r ∧ r.st ≠ 0x0#4) ∨ (∃ e, t.wireRsp = some (.failed e))

/-- The transition table (43_device_mode R131): the mode after success, `none` where the cell is
Illegal. RRG and WRG, legal unless the gate refuses, and every other operation leave the mode. -/
def transition (m : DeviceMode) (i : Instr) : Option DeviceMode :=
  match i, m with
  | .sts, .idle              => some .conversionPending
  | .sts, _                  => none
  | .stc, .idle              => some .continuous
  | .stc, _                  => none
  | .rdr, .idle              => none
  | .rdr, .conversionPending => some .idle
  | .rdr, .continuous        => some .continuous
  | .stp, .idle              => none
  | .stp, _                  => some .idle
  | _,    m                  => some m

/-- The four operations that move the mode (43_device_mode R140). -/
def movesMode (i : Instr) : Bool :=
  match i with
  | .sts | .rdr | .stc | .stp => true
  | _                         => false

/-- The pure operations: the codec and the two conversions (40_codec R80, 44_measurement R161). -/
def isPure (i : Instr) : Bool :=
  match i with
  | .decs _ | .encs _ | .decf _ | .cvadc | .cvmag => true
  | _                                             => false

/-- The gate is closed to an access: a conversion is active and the access is declared unsafe (43_device_mode R139). -/
def gateClosed (s : State) (a : Access) : Prop := s.mode ≠ .idle ∧ s.cfg.gate.covers a = true

/-- The largest register address of a family (20_memory R42). -/
def lastAddress : Family → Nat
  | .adc => 15
  | .mag => 127

/-- The bytes a register read puts on the bus (42_transactions R112, R114). -/
def readBytes (c : BlockConfig) (addr cnt : Nat) : List Byte :=
  match c.fam with
  | .adc => BitVec.ofNat 8 (0x20 + addr) :: BitVec.ofNat 8 (cnt - 1) :: List.replicate cnt 0xFF#8
  | .mag => BitVec.ofNat 8 (0x80 + addr) :: List.replicate cnt c.magFiller

/-- The bytes a register write puts on the bus (42_transactions R113, R115). -/
def writeBytes (c : BlockConfig) (addr cnt : Nat) (data : List Byte) : List Byte :=
  match c.fam with
  | .adc => BitVec.ofNat 8 (0x40 + addr) :: BitVec.ofNat 8 (cnt - 1) :: data
  | .mag => BitVec.ofNat 8 addr :: data

/-- The bytes RDR puts on the bus (43_device_mode R141). -/
def resultBytes (c : BlockConfig) (m : DeviceMode) : List Byte :=
  match c.fam with
  | .mag => List.replicate 10 c.magFiller
  | .adc =>
    if m = .continuous ∧ c.adcContPoll = .streamPoll then [0xFF#8, 0xFF#8, 0xFF#8]
    else [0x12#8, 0xFF#8, 0xFF#8, 0xFF#8]

/-- How many of the last reply bytes RDR keeps (43_device_mode R141). -/
def frameLength : Family → Nat
  | .adc => 3
  | .mag => 10

/-- The exchange of `out` in this step succeeds with the reply `r` (20_memory R46). -/
def Replies (s : State) (out r : List Byte) : Prop := s.sample.reply = some r ∧ r.length = out.length

/-- The exchange of `out` in this step fails: at the collaborator's boundary, or by a reply of another length (20_memory R46). -/
def ExchangeFails (s : State) (out : List Byte) : Prop := ∀ r, s.sample.reply = some r → r.length ≠ out.length

/-- The step changes nothing of the block but the record, which grows by `evs`. -/
def OnlyEvents (s t : State) (evs : List Event) : Prop :=
  t.mode = s.mode ∧ t.startLevel = s.startLevel ∧ t.trace = s.trace ++ evs

/-- The request is in progress, and neither a reset nor a request is presented in this step. -/
def Running (s : State) (r : Request) : Prop :=
  s.cfg.admitted = true ∧ s.sample.rst = false ∧ s.sample.request = none ∧ s.pending = some r

/-- The state with no request presented in the coming step. -/
def State.unpresented (s : State) : State :=
  { s with inputs := match s.inputs with
                     | []        => []
                     | p :: rest => { p with request := none } :: rest }

/-- The state with the reply of the coming step replaced. -/
def State.withReply (s : State) (reply : List Byte) : State :=
  { s with inputs := match s.inputs with
                     | []        => []
                     | p :: rest => { p with reply := some reply } :: rest }

/-- How many of the last reply bytes an instruction keeps (42_transactions R110, R112 to R118). -/
def keptBytes (s : State) (i : Instr) : Nat :=
  match i with
  | .rdr         => frameLength s.cfg.fam
  | .rrg cnt _   => cnt
  | .adcRreg _ n => n + 1
  | .adcRdata    => 3
  | .magRead _   => s.wireData.length
  | _            => 0

/-- An update the descriptor refuses: no such field, or a value outside `[min,max]` or the field's bits (41_register_fields R102). -/
def badUpdate (r : RegDescriptor) (u : FieldUpdate) : Prop :=
  ∀ f, r.subfields[u.1]? = some f → ¬(f.min ≤ u.2 ∧ u.2 ≤ f.max ∧ 0 ≤ u.2 ∧ u.2 < 2 ^ f.width)

/-- At most one update per field (41_register_fields R102). -/
def distinctFields (upd : List FieldUpdate) : Prop := (upd.map Prod.fst).Nodup

/-- A sequence of operations that all succeed, from `s` to `u`. Between two operations the host may do
anything that leaves the two state registers alone: requests are accepted, inputs come. -/
inductive SuccessfulRun : State → List Instr → State → Prop
  | nil {s : State} : SuccessfulRun s [] s
  | cons {s t t' u : State} {i : Instr} {l : List Instr}
      (runs : exec i s = .next t) (ok : t.succeeded)
      (sameMode : t'.mode = t.mode) (sameLevel : t'.startLevel = t.startLevel)
      (rest : SuccessfulRun t' l u) : SuccessfulRun s (i :: l) u

/-- The words `( STS (RDR | STP) | STC RDR* STP )*` over the operations that move the mode (43_device_mode R143 law e). -/
inductive ModeWord : List Instr → Prop
  | nil : ModeWord []
  | single {i : Instr} {l : List Instr} (ends : i = .rdr ∨ i = .stp) (rest : ModeWord l) :
      ModeWord (.sts :: i :: l)
  | continuous {n : Nat} {l : List Instr} (rest : ModeWord l) :
      ModeWord (.stc :: (List.replicate n .rdr ++ .stp :: l))

end Sys2Proof.Machine
end

