-- ==== Sys2Proof/Certificates/Slice0/Obligations.lean ====
section
/-! DEFINITION. The statements for the provers. Each docstring names the rules of spec/ it formalises. -/

open Sys2Proof Sys2Proof.Machine

/-! ## Encoding -/

/-- 30_encoding R61, R66, R68 to R71: decoding the encoding of a well-formed instruction gives it back. -/
def Obligations.DecodeOfEncodeIsIdentity : Prop :=
  ∀ i : Instr, i.wf = true → decode (encode i) = .ok i

/-- 30_encoding R61, R66 to R71: an image that decodes is the encoding of the well-formed instruction it
decodes to, so every word has one meaning and no bit of it is dropped. -/
def Obligations.EncodeOfDecodeIsIdentity : Prop :=
  ∀ (im : Image) (i : Instr), decode im = .ok i → i.wf = true ∧ encode i = im

/-- 30_encoding R66, R68 to R71: words written out bit by bit decode to what the tables say. -/
def Obligations.WrittenOutWordsDecode : Prop :=
  decodeCommand 0b0001000000011000#16 = .ok (.decs 24) ∧
  decodeCommand 0b0101000000000000#16 = .ok .cvmag ∧
  decodeCommand 0b1001000000000000#16 = .ok .rdr ∧
  decodeCommand 0b1101000100000011#16 = .ok (.wrg 2 3) ∧
  decodeWire .adc [0b00101010#8, 0b00000010#8] = .ok (.adcRreg 10 2) ∧
  decodeWire .adc [0b00010010#8] = .ok .adcRdata ∧
  decodeWire .mag [0b10100100#8] = .ok (.magRead 0x24)

/-- 30_encoding R67: which command words are reserved, and that one is accepted, answered with
ReservedOp, writes no state, sends no byte and moves no line. -/
def Obligations.ReservedWordsAnswerReservedOp : Prop :=
  (∀ cw : CommandWord, (∃ e, decodeCommand cw = .error e) ↔
    (bits cw.toNat 15 12 ∈ [0x0, 0x6, 0x7, 0xE, 0xF] ∨
     (bits cw.toNat 15 12 ∈ [0x1, 0x2, 0x3] ∧ bits cw.toNat 11 8 ≠ 0) ∨
     (bits cw.toNat 15 12 ∈ [0x4, 0x5, 0x8, 0x9, 0xA, 0xB] ∧ bits cw.toNat 11 0 ≠ 0))) ∧
  (∀ (s : State) (cw : CommandWord) (opd : PortWord) (n : BitVec 5),
    s.cfg.admitted = true → s.sample.rst = false → s.pending = none →
    s.sample.request = some (.command cw opd n) →
    ∃ t, step s = .next t ∧ t.pending = some (.command cw opd n) ∧ Untouched s t) ∧
  (∀ (s : State) (cw : CommandWord) (opd : PortWord) (n : BitVec 5),
    Running s (.command cw opd n) → (∃ e, decodeCommand cw = .error e) →
    ∃ t, step s = .next t ∧ AnswersError s t .reservedOp ∧ Untouched s t)

/-! ## The step -/

/-- 00_scope R14, R18, 30_encoding R60: a step with an instruction in progress is `exec` of that
instruction, nothing added; a request presented meanwhile, but for a command while a command runs, is
in progress after it (30_encoding R62; that it is latched in that very step is log 15). -/
def Obligations.StepRunsTheDecodedInstruction : Prop :=
  (∀ (s : State) (r : Request) (i : Instr),
    Running s r → decode (r.image s.cfg.fam) = .ok i → step s = exec i s) ∧
  (∀ (s t : State) (r r' : Request) (i : Instr),
    s.cfg.admitted = true → s.sample.rst = false → s.pending = some r → s.sample.request = some r' →
    (r.isCommand = false ∨ r'.isCommand = false) → decode (r.image s.cfg.fam) = .ok i →
    exec i s = .next t → step s = .next { t with pending := some r' })

/-- 30_encoding R62, 10_state R28: a command presented while not busy is accepted: its word and operands
are latched and `busy_o` rises, nothing else of the block moves. That acceptance is a step of its own
is the model's choice (log 15). -/
def Obligations.CommandIsAcceptedWhenNotBusy : Prop :=
  ∀ (s : State) (cw : CommandWord) (opd : PortWord) (n : BitVec 5),
    s.cfg.admitted = true → s.sample.rst = false → s.pending = none →
    s.sample.request = some (.command cw opd n) →
    ∃ t, step s = .next t ∧ t.busyO = true ∧ t.operandPort = opd ∧ t.operandLength = n.toNat ∧
      t.pending = some (.command cw opd n) ∧ t.rsp = none ∧ t.cfg = s.cfg ∧ Untouched s t

/-- 10_state R20, R27: with nothing in progress and nothing presented, a step leaves the block as it is
and no port keeps a value. -/
def Obligations.QuietStepChangesNothing : Prop :=
  ∀ s : State, s.cfg.admitted = true → s.sample.rst = false → s.pending = none → s.sample.request = none →
    ∃ t, step s = .next t ∧ t.pending = none ∧ t.rsp = none ∧ t.wireRsp = none ∧ t.cfg = s.cfg ∧ Untouched s t

/-- 70_reset_and_hazards R221: a command presented while `busy_o` is 1 is not accepted, the model refuses. -/
def Obligations.CommandWhileBusyIsRefused : Prop :=
  ∀ (s : State) (cw : CommandWord) (opd : PortWord) (n : BitVec 5),
    s.cfg.admitted = true → s.sample.rst = false → s.busyO = true →
    s.sample.request = some (.command cw opd n) → step s = .refused .requestWhileBusy

/-- 43_device_mode R140, 42_transactions R118: a transaction of the host's own path, presented with nothing
in progress, is in progress after the step; `busy_o` stays 0 and nothing of the block moves. That it is
latched like a command, in a step of its own, is the model's (log 8, log 15). -/
def Obligations.HostPathRequestIsAccepted : Prop :=
  ∀ (s : State) (opcode data : List Byte),
    s.cfg.admitted = true → s.sample.rst = false → s.pending = none →
    s.sample.request = some (.wire opcode data) →
    ∃ t, step s = .next t ∧ t.pending = some (.wire opcode data) ∧ t.wireData = data ∧ t.busyO = false ∧
      t.rsp = none ∧ t.wireRsp = none ∧ t.cfg = s.cfg ∧ Untouched s t

/-- 30_encoding R62, 43_device_mode R140, 20_memory R51: what runs is not disturbed by what is presented
meanwhile, unless both are commands, and the presented request is in progress after it: a command behind
a transaction of the host's own path (`busy_o` was 0), such a transaction behind a command or behind
another. A stop is the stop of what runs (log 15, log 16). -/
def Obligations.RequestBehindARunningOneIsAccepted : Prop :=
  ∀ (s : State) (r r' : Request),
    s.sample.rst = false → s.pending = some r → s.sample.request = some r' →
    (r.isCommand = false ∨ r'.isCommand = false) →
    (∀ t, step s.unpresented = .next t → step s = .next { t with pending := some r' }) ∧
    (∀ e, step s.unpresented = .refused e → step s = .refused e)

/-- 10_state R25, 60_exceptions R204: a configuration without `start_line` or `ready_line` is refused,
any other is not. -/
def Obligations.ConfigurationWithoutLinesIsRefused : Prop :=
  ∀ s : State, step s = .refused .lineAbsent ↔ (s.cfg.lines.startLine = none ∨ s.cfg.lines.readyLine = none)

/-- 70_reset_and_hazards R211, R212: reset puts the state registers at their reset values whatever was
in progress, gives no response, and its only event on a line is the start line following
`start_level` to inactive. The model's own (log 10): the mark of an abandoned command in the record, that
a transaction of the host's own path stays in progress, and that nothing presented is accepted. -/
def Obligations.ResetEventReachesResetValues : Prop :=
  ∀ s : State, s.cfg.admitted = true → s.sample.rst = true →
    ∃ t, step s = .next t ∧ t.mode = .idle ∧ t.startLevel = false ∧ t.busyO = false ∧
      t.rsp = none ∧ t.wireRsp = none ∧ t.cfg = s.cfg ∧
      (∀ cw opd n, s.pending = some (.command cw opd n) → t.pending = none ∧
        t.trace = s.trace ++ [.abandoned (.command cw opd n)] ++ (if s.startLevel then [.setLevel false] else [])) ∧
      (s.busyO = false → t.pending = s.pending ∧
        t.trace = s.trace ++ (if s.startLevel then [.setLevel false] else []))

/-- 10_state R33: the reset values of the two state registers and of `busy_o`, and the configuration as
built: for an instance of every configuration right after it is built, and after the reset event, which
sends no byte and moves no line but the start line, to inactive. An abandoned command's mark in the
record is the model's (log 10). -/
def Obligations.ResetValuesOfEveryInstance : Prop :=
  (∀ c : BlockConfig, (State.built c).modeO = 0b00#2 ∧ (State.built c).startLevel = false ∧
    (State.built c).busyO = false ∧ (State.built c).cfg = c) ∧
  State.reset = State.built State.reset.cfg ∧
  (∀ s t : State, s.sample.rst = true → step s = .next t →
    t.modeO = 0b00#2 ∧ t.startLevel = false ∧ t.busyO = false ∧ t.cfg = s.cfg ∧
    ∃ evs, t.trace = s.trace ++ evs ∧ ∀ e ∈ evs, e = .setLevel false ∨ ∃ r, e = .abandoned r)

/-- 60_exceptions R180: every accepted command, whatever its word, its operands, the mode and the
environment, ends in one step with exactly one response, which carries a code the block produces and which no later
step keeps. -/
def Obligations.EveryAcceptedCommandIsAnswered : Prop :=
  ∀ (s : State) (cw : CommandWord) (opd : PortWord) (n : BitVec 5), Running s (.command cw opd n) →
    ∃ t r, step s = .next t ∧ Answers s t r ∧ r.st ∈ producedCodes ∧ t.busyO = false ∧
      ∀ t', step t = .next t' → t'.rsp = none

/-- 10_state R25, R230, 20_memory R52, R51: no step changes the configuration, and the record only
grows, by at most one exchange: no transaction is repeated, dropped or reordered. -/
def Obligations.RecordOnlyGrowsAndConfigurationStays : Prop :=
  ∀ s t : State, step s = .next t →
    t.cfg = s.cfg ∧ ∃ evs, t.trace = s.trace ++ evs ∧
      (evs.filter fun e => match e with | .exchange _ _ => true | _ => false).length ≤ 1

/-! ## The codec -/

/-- 40_codec R82: DECS, for every length the port can hold (beyond it: OperandsLongerThanThePortAreRefused). -/
def Obligations.DecsMeaning : Prop :=
  ∀ (s : State) (w : Nat),
    ((w = 8 ∨ w = 16 ∨ w = 24) → s.operandBytes.length = w / 8 →
      ∃ t r, exec (.decs w) s = .next t ∧ Answers s t r ∧ Untouched s t ∧
        r.st = 0x0#4 ∧ (portLane r.res 0).toInt = signedValue w s.operandBytes ∧
        r.res.toNat < 2 ^ 32 ∧ r.resLen = 4#5) ∧
    ((¬(w = 8 ∨ w = 16 ∨ w = 24) ∨ (s.operandLength ≤ 16 ∧ s.operandBytes.length ≠ w / 8)) →
      ∃ t, exec (.decs w) s = .next t ∧ AnswersError s t .rangeError ∧ Untouched s t)

/-- 40_codec R84: ENCS, its value lane 0 of the operand port read as a signed 32-bit integer. -/
def Obligations.EncsMeaning : Prop :=
  ∀ (s : State) (w : Nat),
    ((w = 8 ∨ w = 16 ∨ w = 24) →
      -(2 ^ (w - 1)) ≤ (portLane s.operandPort 0).toInt → (portLane s.operandPort 0).toInt ≤ 2 ^ (w - 1) - 1 →
      ∃ t r, exec (.encs w) s = .next t ∧ Answers s t r ∧ Untouched s t ∧
        r.st = 0x0#4 ∧ r.resLen.toNat = w / 8 ∧
        (be (portBytes r.res (w / 8)) : Int) = (portLane s.operandPort 0).toInt % 2 ^ w ∧
        r.res.toNat < 2 ^ w) ∧
    ((¬(w = 8 ∨ w = 16 ∨ w = 24) ∨ (portLane s.operandPort 0).toInt < -(2 ^ (w - 1)) ∨
        2 ^ (w - 1) - 1 < (portLane s.operandPort 0).toInt) →
      ∃ t, exec (.encs w) s = .next t ∧ AnswersError s t .rangeError ∧ Untouched s t)

/-- 40_codec R86: DECF, the exact unreduced pair in lanes 0 and 1; over unbounded integers a scale below
1 is refused. -/
def Obligations.DecfMeaning : Prop :=
  ∀ (s : State) (w : Nat),
    ((w = 8 ∨ w = 16 ∨ w = 24) →
      -(2 ^ (w - 1)) ≤ (portLane s.operandPort 0).toInt → (portLane s.operandPort 0).toInt ≤ 2 ^ (w - 1) - 1 →
      1 ≤ (portLane s.operandPort 1).toNat →
      ∃ t r, exec (.decf w) s = .next t ∧ Answers s t r ∧ Untouched s t ∧
        r.st = 0x0#4 ∧ r.resLen = 8#5 ∧
        portLane r.res 0 = portLane s.operandPort 0 ∧ portLane r.res 1 = portLane s.operandPort 1 ∧
        r.res.toNat < 2 ^ 64) ∧
    ((¬(w = 8 ∨ w = 16 ∨ w = 24) ∨ (portLane s.operandPort 0).toInt < -(2 ^ (w - 1)) ∨
        2 ^ (w - 1) - 1 < (portLane s.operandPort 0).toInt ∨ (portLane s.operandPort 1).toNat = 0) →
      ∃ t, exec (.decf w) s = .next t ∧ AnswersError s t .rangeError ∧ Untouched s t) ∧
    (∀ c k : Int, k < 1 → decodeFraction w c k = .error .rangeError)

/-- 40_codec R85: the round trips at every width, over unbounded integers, and the rejection outside. -/
def Obligations.CodecRoundTrips : Prop :=
  ∀ w : Nat, (w = 8 ∨ w = 16 ∨ w = 24) →
    (∀ v : Int, -(2 ^ (w - 1)) ≤ v → v ≤ 2 ^ (w - 1) - 1 →
      ∃ b, encodeSigned w v = .ok b ∧ decodeSigned w b = .ok v) ∧
    (∀ v : Int, (v < -(2 ^ (w - 1)) ∨ 2 ^ (w - 1) - 1 < v) → encodeSigned w v = .error .rangeError) ∧
    (∀ b : List Byte, b.length = w / 8 → ∃ v, decodeSigned w b = .ok v ∧ encodeSigned w v = .ok b)

/-- 40_codec R83: the laws of DECS: total, a bijection onto the signed range, a residue of `be`, and its
sign is bit 7 of the first byte. -/
def Obligations.DecodeSignedLaws : Prop :=
  ∀ w : Nat, (w = 8 ∨ w = 16 ∨ w = 24) →
    (∀ b : List Byte, b.length = w / 8 → ∃ v, decodeSigned w b = .ok v ∧
      -(2 ^ (w - 1)) ≤ v ∧ v ≤ 2 ^ (w - 1) - 1 ∧ v % 2 ^ w = (be b : Int) ∧
      (v < 0 ↔ ∃ b0 l, b = b0 :: l ∧ b0.getLsbD 7 = true)) ∧
    (∀ v : Int, -(2 ^ (w - 1)) ≤ v → v ≤ 2 ^ (w - 1) - 1 →
      ∃ b, (b.length = w / 8 ∧ decodeSigned w b = .ok v) ∧
        ∀ b', b'.length = w / 8 → decodeSigned w b' = .ok v → b' = b)

/-- 40_codec R80, 44_measurement R161: the pure operations are legal in every mode on either family,
read only their operands, write no state, send no byte and move no line. -/
def Obligations.PureOperationsReadOnlyTheirOperands : Prop :=
  ∀ (i : Instr) (s s' : State), isPure i = true → s.pending = s'.pending →
    ∃ t t' r r', exec i s = .next t ∧ exec i s' = .next t' ∧ Answers s t r ∧ Answers s' t' r' ∧
      r.st = r'.st ∧ (r.st = 0x0#4 → r = r') ∧ Untouched s t ∧ Untouched s' t'

/-- 40_codec R88: a gain code is the signed code over 0x400000: code 0x400000 is 1, code 0 is 0, the
largest is 2 - 2^-22, the smallest -2. -/
def Obligations.GainValues : Prop :=
  (∀ b : List Byte, b.length = 3 → gainDecode b = .ok { num := signedValue 24 b, den := 0x400000 }) ∧
  (∃ f, gainDecode [0x40#8, 0x00#8, 0x00#8] = .ok f ∧ f.same { num := 1, den := 1 } = true) ∧
  (∃ f, gainDecode [0x00#8, 0x00#8, 0x00#8] = .ok f ∧ f.same { num := 0, den := 1 } = true) ∧
  (∃ f, gainDecode [0x7F#8, 0xFF#8, 0xFF#8] = .ok f ∧ f.same { num := 2 * 2 ^ 22 - 1, den := 2 ^ 22 } = true) ∧
  (∃ f, gainDecode [0x80#8, 0x00#8, 0x00#8] = .ok f ∧ f.same { num := -2, den := 1 } = true)

/-- 30_encoding R63, R64: bytes and lanes laid out on a port are read back from it, and the bits above
them are 0. -/
def Obligations.PortLayoutReadsBack : Prop :=
  (∀ b : List Byte, b.length ≤ 16 → portBytes (packBytes b) b.length = b ∧ (packBytes b).toNat < 256 ^ b.length) ∧
  (∀ l : List Lane, l.length ≤ 4 → (packLanes l).toNat < (2 ^ 32) ^ l.length ∧
    ∀ (k : Nat) (x : Lane), l[k]? = some x → portLane (packLanes l) k = x)

/-! ## Measurement -/

/-- 44_measurement R162: CVADC, for every length the port can hold (beyond it:
OperandsLongerThanThePortAreRefused). -/
def Obligations.CvadcMeaning : Prop :=
  ∀ s : State,
    (s.operandBytes.length = 3 →
      ∃ t r, exec .cvadc s = .next t ∧ Answers s t r ∧ CarriesAdcFrame r s.operandBytes ∧ Untouched s t) ∧
    (s.operandLength ≤ 16 → s.operandBytes.length ≠ 3 →
      ∃ t, exec .cvadc s = .next t ∧ AnswersError s t .rangeError ∧ Untouched s t)

/-- 44_measurement R164, R165, R167: CVMAG, for every length the port can hold (beyond it:
OperandsLongerThanThePortAreRefused). -/
def Obligations.CvmagMeaning : Prop :=
  ∀ s : State,
    (s.operandBytes.length = 10 →
      ∃ t r, exec .cvmag s = .next t ∧ Answers s t r ∧ CarriesMagFrame r s.operandBytes ∧ Untouched s t) ∧
    (s.operandLength ≤ 16 → s.operandBytes.length ≠ 10 →
      ∃ t, exec .cvmag s = .next t ∧ AnswersError s t .rangeError ∧ Untouched s t)

/-- The model's choice (log 13): a length of 17 to 31 on `opd_len_i`, to which 30_encoding R62 and R63 give
no meaning, is refused like any other wrong length, and nothing is touched. -/
def Obligations.OperandsLongerThanThePortAreRefused : Prop :=
  ∀ s : State, 16 < s.operandLength →
    (∀ i ∈ [Instr.cvadc, .cvmag], ∃ t, exec i s = .next t ∧ AnswersError s t .rangeError ∧ Untouched s t) ∧
    (∀ w, ∃ t, exec (.decs w) s = .next t ∧ AnswersError s t .rangeError ∧ Untouched s t) ∧
    (∀ cnt addr, ∃ t, exec (.wrg cnt addr) s = .next t ∧ AnswersError s t .countRangeError ∧ Untouched s t)

/-- 44_measurement R168: CVADC is a bijection, CVMAG is injective on the axis bytes, zero axis bytes give
zero axes, and a physical value, which is the count over 75 exactly (R166), lies within 8388608/75
microtesla. -/
def Obligations.MeasurementLaws : Prop :=
  (∀ v : Int, -8388608 ≤ v → v ≤ 8388607 →
    ∃ b, (b.length = 3 ∧ convertAdc b = .ok v) ∧ ∀ b', convertAdc b' = .ok v → b' = b) ∧
  (∀ (b0 : Byte) (l l' : List Byte) (f : MagFrame),
    convertMag (b0 :: l) = .ok f → convertMag (b0 :: l') = .ok f → l = l') ∧
  (∀ b0 : Byte, ∃ f, convertMag (b0 :: List.replicate 9 0x00#8) = .ok f ∧ f.x = 0 ∧ f.y = 0 ∧ f.z = 0) ∧
  (∀ (b : List Byte) (f : MagFrame), convertMag b = .ok f → ∀ a ∈ [f.x, f.y, f.z],
    (microtesla a).num = a ∧ (microtesla a).den = 75 ∧ -8388608 ≤ (microtesla a).num ∧ (microtesla a).num ≤ 8388608)

/-! ## The device mode -/

/-- 43_device_mode R132: STS. -/
def Obligations.StsMeaning : Prop :=
  ∀ s : State,
    (s.mode = .idle →
      ∃ t, exec .sts s = .next t ∧ AnswersDone s t ∧ t.mode = .conversionPending ∧ t.startLevel = false ∧
        t.trace = s.trace ++ [.pulse s.cfg.startPulse]) ∧
    (s.mode ≠ .idle → ∃ t, exec .sts s = .next t ∧ AnswersError s t .illegalStateError ∧ Untouched s t)

/-- 43_device_mode R134: STC. -/
def Obligations.StcMeaning : Prop :=
  ∀ s : State,
    (s.mode = .idle →
      ∃ t, exec .stc s = .next t ∧ AnswersDone s t ∧ t.mode = .continuous ∧ t.startLevel = true ∧
        t.trace = s.trace ++ [.setLevel true]) ∧
    (s.mode ≠ .idle → ∃ t, exec .stc s = .next t ∧ AnswersError s t .illegalStateError ∧ Untouched s t)

/-- 43_device_mode R135: STP. -/
def Obligations.StpMeaning : Prop :=
  ∀ s : State,
    (s.mode ≠ .idle →
      ∃ t, exec .stp s = .next t ∧ AnswersDone s t ∧ t.mode = .idle ∧ t.startLevel = false ∧
        t.trace = s.trace ++ [.setLevel false]) ∧
    (s.mode = .idle → ∃ t, exec .stp s = .next t ∧ AnswersError s t .illegalStateError ∧ Untouched s t)

/-- 43_device_mode R133, R141, R142: RDR in every mode and for every answer of the environment. `t` ticks
are lane 0 of the operand port. -/
def Obligations.RdrMeaning : Prop :=
  ∀ s : State,
    let ticks := (portLane s.operandPort 0).toNat
    let waited := Event.wait ticks s.cfg.tick (s.sample.waitOutcome ticks)
    let out := resultBytes s.cfg s.mode
    (s.mode = .idle → ∃ t, exec .rdr s = .next t ∧ AnswersError s t .illegalStateError ∧ Untouched s t) ∧
    (s.mode = .conversionPending → s.sample.waitOutcome ticks = .timedOut →
      ∃ t, exec .rdr s = .next t ∧ AnswersError s t .timeoutError ∧ OnlyEvents s t [waited]) ∧
    (s.mode = .conversionPending → s.sample.waitOutcome ticks = .cancelled →
      ∃ t, exec .rdr s = .next t ∧ AnswersError s t .cancelled ∧ OnlyEvents s t [waited]) ∧
    (s.mode = .conversionPending → s.sample.waitOutcome ticks = .ready → ExchangeFails s out →
      ∃ t, exec .rdr s = .next t ∧ AnswersError s t .transportError ∧
        OnlyEvents s t [waited, .exchange out none]) ∧
    (∀ reply, s.mode = .conversionPending → s.sample.waitOutcome ticks = .ready → Replies s out reply →
      ∃ t r, exec .rdr s = .next t ∧ Answers s t r ∧
        CarriesFrame s.cfg.fam r (reply.drop (reply.length - frameLength s.cfg.fam)) ∧
        t.mode = .idle ∧ t.startLevel = s.startLevel ∧
        t.trace = s.trace ++ [waited, .exchange out (some reply)]) ∧
    (s.mode = .continuous → ExchangeFails s out →
      ∃ t, exec .rdr s = .next t ∧ AnswersError s t .transportError ∧ OnlyEvents s t [.exchange out none]) ∧
    (∀ reply, s.mode = .continuous → Replies s out reply →
      ∃ t r, exec .rdr s = .next t ∧ Answers s t r ∧
        CarriesFrame s.cfg.fam r (reply.drop (reply.length - frameLength s.cfg.fam)) ∧
        OnlyEvents s t [.exchange out (some reply)])

/-- 43_device_mode R136, R138, R139, 42_transactions R112, R114: RRG, its errors in their order. -/
def Obligations.RrgMeaning : Prop :=
  ∀ (s : State) (cnt addr : Nat),
    let out := readBytes s.cfg addr cnt
    let access : Access := { addr := addr, count := cnt, dir := .read }
    ((cnt < 1 ∨ 15 < cnt) →
      ∃ t, exec (.rrg cnt addr) s = .next t ∧ AnswersError s t .countRangeError ∧ Untouched s t) ∧
    (1 ≤ cnt → cnt ≤ 15 → lastAddress s.cfg.fam < addr →
      ∃ t, exec (.rrg cnt addr) s = .next t ∧ AnswersError s t .rangeError ∧ Untouched s t) ∧
    (1 ≤ cnt → cnt ≤ 15 → addr ≤ lastAddress s.cfg.fam → gateClosed s access →
      ∃ t, exec (.rrg cnt addr) s = .next t ∧ AnswersError s t .illegalStateError ∧ Untouched s t) ∧
    (1 ≤ cnt → cnt ≤ 15 → addr ≤ lastAddress s.cfg.fam → ¬gateClosed s access → ExchangeFails s out →
      ∃ t, exec (.rrg cnt addr) s = .next t ∧ AnswersError s t .transportError ∧
        OnlyEvents s t [.exchange out none]) ∧
    (∀ reply, 1 ≤ cnt → cnt ≤ 15 → addr ≤ lastAddress s.cfg.fam → ¬gateClosed s access → Replies s out reply →
      ∃ t r, exec (.rrg cnt addr) s = .next t ∧ Answers s t r ∧ r.st = 0x0#4 ∧
        portBytes r.res cnt = reply.drop (reply.length - cnt) ∧ r.res.toNat < 256 ^ cnt ∧
        r.resLen.toNat = cnt ∧ OnlyEvents s t [.exchange out (some reply)])

/-- 43_device_mode R137, R138, R139, 42_transactions R113, R115: WRG, its errors in their order. -/
def Obligations.WrgMeaning : Prop :=
  ∀ (s : State) (cnt addr : Nat),
    let data := s.operandBytes
    let out := writeBytes s.cfg addr cnt data
    let access : Access := { addr := addr, count := cnt, dir := .write }
    ((cnt < 1 ∨ 15 < cnt ∨ data.length ≠ cnt) →
      ∃ t, exec (.wrg cnt addr) s = .next t ∧ AnswersError s t .countRangeError ∧ Untouched s t) ∧
    (1 ≤ cnt → cnt ≤ 15 → data.length = cnt → lastAddress s.cfg.fam < addr →
      ∃ t, exec (.wrg cnt addr) s = .next t ∧ AnswersError s t .rangeError ∧ Untouched s t) ∧
    (1 ≤ cnt → cnt ≤ 15 → data.length = cnt → addr ≤ lastAddress s.cfg.fam → gateClosed s access →
      ∃ t, exec (.wrg cnt addr) s = .next t ∧ AnswersError s t .illegalStateError ∧ Untouched s t) ∧
    (1 ≤ cnt → cnt ≤ 15 → data.length = cnt → addr ≤ lastAddress s.cfg.fam → ¬gateClosed s access →
      ExchangeFails s out →
      ∃ t, exec (.wrg cnt addr) s = .next t ∧ AnswersError s t .transportError ∧
        OnlyEvents s t [.exchange out none]) ∧
    (∀ reply, 1 ≤ cnt → cnt ≤ 15 → data.length = cnt → addr ≤ lastAddress s.cfg.fam → ¬gateClosed s access →
      Replies s out reply →
      ∃ t, exec (.wrg cnt addr) s = .next t ∧ AnswersDone s t ∧ OnlyEvents s t [.exchange out (some reply)])

/-- 43_device_mode R131: the transition table: an Illegal cell answers IllegalStateError with no line,
no byte and no change of mode; where the operation succeeds, the mode is the table's. -/
def Obligations.TransitionTable : Prop :=
  ∀ (i : Instr) (s : State),
    (transition s.mode i = none →
      ∃ t, exec i s = .next t ∧ AnswersError s t .illegalStateError ∧ Untouched s t) ∧
    (∀ t, exec i s = .next t → t.succeeded → transition s.mode i = some t.mode)

/-- 43_device_mode R140: `mode` is written by STS, RDR, STC, STP and reset and by nothing else: no byte
sent, no reply and no transaction of the host's own path moves it. -/
def Obligations.OnlyFourOperationsAndResetMoveTheMode : Prop :=
  ∀ s t : State, step s = .next t → t.mode ≠ s.mode →
    s.sample.rst = true ∨
    ∃ cw opd n i, s.pending = some (.command cw opd n) ∧ decodeCommand cw = .ok i ∧ movesMode i = true

/-- 60_exceptions R190: an operation that ends in an error leaves both state registers as they were. -/
def Obligations.ErrorsLeaveTheStateRegisters : Prop :=
  ∀ (i : Instr) (s t : State), exec i s = .next t → t.failed →
    t.mode = s.mode ∧ t.startLevel = s.startLevel

/-- 60_exceptions R191 (stages 1 to 3), 42_transactions R119: an error of the command word, of an operand
or of the mode is raised before any line moves, any wait begins or any byte is sent. -/
def Obligations.ValidationComesBeforeEveryEvent : Prop :=
  ∀ s t : State, step s = .next t →
    (∀ r, t.rsp = some r → r.st ∈ [0x1#4, 0x4#4, 0x5#4, 0xF#4] → t.trace = s.trace) ∧
    (∀ e, t.wireRsp = some (.failed e) → e ∈ [.rangeError, .countRangeError, .illegalStateError] →
      t.trace = s.trace)

/-- 43_device_mode R143 (c) and (d): out of Idle only STS and STC lead, and one STP leads back to it from
every other mode. -/
def Obligations.WaysOutOfAndIntoIdle : Prop :=
  (∀ (i : Instr) (s t : State), exec i s = .next t → s.mode = .idle → t.mode ≠ .idle → i = .sts ∨ i = .stc) ∧
  (∀ s : State, s.mode ≠ .idle → ∃ t, exec .stp s = .next t ∧ t.mode = .idle ∧ AnswersDone s t)

/-- 43_device_mode R143 (e): the operations that move the mode, in a sequence of operations from Idle to
Idle that all succeed, spell a word of the language `( STS (RDR | STP) | STC RDR* STP )*`. -/
def Obligations.SuccessfulRunsSpellTheLanguage : Prop :=
  ∀ (s u : State) (l : List Instr), SuccessfulRun s l u → s.mode = .idle → u.mode = .idle →
    ModeWord (l.filter movesMode)

/-- 60_exceptions R187, R192 to R195: what the constraints leave of a wait's outcome, without a cancel
request and with one. Ready is given only for a line that was seen, so a line that never becomes active
ends the wait as TimedOut or Cancelled (95_test_vectors S7). A cancel request that is seen first ends every
wait as Cancelled, and one that is not changes nothing; that `cancelFirst` also stands for a tie the
request wins is the model's (log 5). -/
def Obligations.WaitOutcomeIsConstrained : Prop :=
  ∀ (p : InputSample) (t : Nat),
    (p.cancel = false → p.lineAtStart = true → p.waitOutcome t = .ready) ∧
    (p.cancel = false → p.lineAtStart = false → p.waitOutcome 0 = .timedOut) ∧
    (p.waitOutcome t = .timedOut → p.lineAtStart = false ∧ (0 < t → p.lineLater = false)) ∧
    (p.waitOutcome t = .ready → p.lineAtStart = true ∨ (0 < t ∧ p.lineLater = true)) ∧
    (p.waitOutcome t = .cancelled → p.cancel = true) ∧
    (p.cancel = true → p.cancelFirst = true → p.waitOutcome t = .cancelled) ∧
    (p.cancelFirst = false → p.waitOutcome t = { p with cancel := false }.waitOutcome t) ∧
    (p.cancel = false → p.lineAtStart = false → p.lineLater = false → p.waitOutcome t = .timedOut)

/-- 60_exceptions R194, R195, 43_device_mode R142: outside the wait of RDR from ConversionPending the
block looks neither at `cancel_i` nor at the data-ready line. -/
def Obligations.CancelAndReadyMatterOnlyInsideTheWait : Prop :=
  ∀ (i : Instr) (s : State) (p : InputSample) (rest : List InputSample) (c cf l0 l1 : Bool),
    s.inputs = p :: rest → ¬(i = .rdr ∧ s.mode = .conversionPending) →
    exec i { s with inputs := { p with cancel := c, cancelFirst := cf, lineAtStart := l0, lineLater := l1 } :: rest }
      = exec i s

/-- 42_transactions R110: the reply bytes before the last `response_length` are looked at by nothing: two
replies of one length that agree on the last bytes an instruction keeps (none for a write or a bare
command) give it the same response, on the port or on the host's own path, and the same mode. -/
def Obligations.DiscardedReplyBytesDoNotMatter : Prop :=
  ∀ (i : Instr) (s t : State) (p : InputSample) (rest : List InputSample) (reply reply' : List Byte),
    s.inputs = p :: rest → p.reply = some reply → reply'.length = reply.length →
    reply.drop (reply.length - keptBytes s i) = reply'.drop (reply.length - keptBytes s i) →
    exec i s = .next t →
    ∃ t', exec i (s.withReply reply') = .next t' ∧ t'.rsp = t.rsp ∧ t'.wireRsp = t.wireRsp ∧
      t'.mode = t.mode ∧ t'.startLevel = t.startLevel

/-- 10_state R23, R24, 60_exceptions R181, 30_encoding R64, 42_transactions R120: every step keeps the
invariant: the start level matches the mode and the line as recorded, codes on `st_o` are produced
ones, a response stands only when no command is in progress, and every exchange is of a legal length. -/
def Obligations.StepKeepsTheInvariant : Prop :=
  ∀ s t : State, s.Inv → step s = .next t → t.Inv

/-- 10_state R24, R33: an instance of every configuration meets the invariant right after reset. -/
def Obligations.ResetMeetsTheInvariant : Prop :=
  (∀ c : BlockConfig, (State.built c).Inv) ∧ State.reset.Inv

/-! ## Transaction builders -/

/-- 42_transactions R112: the ADC register read. -/
def Obligations.BuildReadRegisterAdc : Prop :=
  ∀ (c : BlockConfig) (addr count : Nat), c.fam = .adc →
    ((count < 1 ∨ 15 < count) → buildReadRegister c addr count = .error .countRangeError) ∧
    (1 ≤ count → count ≤ 15 → 15 < addr → buildReadRegister c addr count = .error .rangeError) ∧
    (1 ≤ count → count ≤ 15 → addr ≤ 15 → ∃ q, buildReadRegister c addr count = .ok q ∧
      q.opcodeBytes = [BitVec.ofNat 8 (0x20 + addr), BitVec.ofNat 8 (count - 1)] ∧
      q.payload = List.replicate count 0xFF#8 ∧ q.responseLength = count)

/-- 42_transactions R113: the ADC register write. -/
def Obligations.BuildWriteRegisterAdc : Prop :=
  ∀ (c : BlockConfig) (addr count : Nat) (data : List Byte), c.fam = .adc →
    ((count < 1 ∨ 15 < count ∨ data.length ≠ count) →
      buildWriteRegister c addr count data = .error .countRangeError) ∧
    (1 ≤ count → count ≤ 15 → data.length = count → 15 < addr →
      buildWriteRegister c addr count data = .error .rangeError) ∧
    (1 ≤ count → count ≤ 15 → data.length = count → addr ≤ 15 →
      ∃ q, buildWriteRegister c addr count data = .ok q ∧
        q.opcodeBytes = [BitVec.ofNat 8 (0x40 + addr), BitVec.ofNat 8 (count - 1)] ∧
        q.payload = data ∧ q.responseLength = 0)

/-- 42_transactions R114: the magnetometer register read. -/
def Obligations.BuildReadRegisterMag : Prop :=
  ∀ (c : BlockConfig) (addr count : Nat), c.fam = .mag →
    ((count < 1 ∨ 15 < count) → buildReadRegister c addr count = .error .countRangeError) ∧
    (1 ≤ count → count ≤ 15 → 127 < addr → buildReadRegister c addr count = .error .rangeError) ∧
    (1 ≤ count → count ≤ 15 → addr ≤ 127 → ∃ q, buildReadRegister c addr count = .ok q ∧
      q.opcodeBytes = [BitVec.ofNat 8 (0x80 + addr)] ∧
      q.payload = List.replicate count c.magFiller ∧ q.responseLength = count)

/-- 42_transactions R115: the magnetometer register write. -/
def Obligations.BuildWriteRegisterMag : Prop :=
  ∀ (c : BlockConfig) (addr count : Nat) (data : List Byte), c.fam = .mag →
    ((count < 1 ∨ 15 < count ∨ data.length ≠ count) →
      buildWriteRegister c addr count data = .error .countRangeError) ∧
    (1 ≤ count → count ≤ 15 → data.length = count → 127 < addr →
      buildWriteRegister c addr count data = .error .rangeError) ∧
    (1 ≤ count → count ≤ 15 → data.length = count → addr ≤ 127 →
      ∃ q, buildWriteRegister c addr count data = .ok q ∧
        q.opcodeBytes = [BitVec.ofNat 8 addr] ∧ q.payload = data ∧ q.responseLength = 0)

/-- 42_transactions R116, R117, R118: the polls and the bare command. -/
def Obligations.PollsAndBareCommands : Prop :=
  (buildRdataPoll.opcodeBytes = [0x12#8] ∧ buildRdataPoll.payload = [0xFF#8, 0xFF#8, 0xFF#8] ∧
    buildRdataPoll.bytesOut = [0x12#8, 0xFF#8, 0xFF#8, 0xFF#8] ∧ buildRdataPoll.responseLength = 3) ∧
  (∀ c : BlockConfig, (buildStreamingPoll c).opcodeBytes = [] ∧
    (buildStreamingPoll c).bytesOut = (buildStreamingPoll c).payload) ∧
  (∀ c : BlockConfig, c.fam = .adc →
    (buildStreamingPoll c).payload = [0xFF#8, 0xFF#8, 0xFF#8] ∧ (buildStreamingPoll c).responseLength = 3) ∧
  (∀ c : BlockConfig, c.fam = .mag →
    (buildStreamingPoll c).payload = List.replicate 10 c.magFiller ∧ (buildStreamingPoll c).responseLength = 10) ∧
  (∀ b : Byte, (buildBare b).opcodeBytes = [b] ∧ (buildBare b).payload = [] ∧ (buildBare b).bytesOut = [b] ∧
    (buildBare b).responseLength = 0)

/-- 42_transactions R120: the laws of every request a builder returns. -/
def Obligations.LawsOfEveryRequest : Prop :=
  ∀ (c : BlockConfig) (q : TransactionRequest),
    ((∃ addr count, buildReadRegister c addr count = .ok q) ∨
     (∃ addr count data, buildWriteRegister c addr count data = .ok q) ∨
     (∃ b, q = buildBare b) ∨ (c.fam = .adc ∧ q = buildRdataPoll) ∨ q = buildStreamingPoll c) →
    q.bytesOut.length = q.opcodeBytes.length + q.payload.length ∧
    1 ≤ q.bytesOut.length ∧ q.bytesOut.length ≤ 17 ∧
    (q.responseLength ≠ 0 → q.responseLength = q.payload.length ∧
      ∀ b ∈ q.payload, b = (if c.fam = .adc then 0xFF#8 else c.magFiller)) ∧
    (∀ reply : List Byte, reply.length = q.bytesOut.length →
      reply.length - (q.response reply).length =
        (if q.responseLength = 0 then q.bytesOut.length else q.opcodeBytes.length))

/-! ## Wire bytes -/

/-- 30_encoding R70, 42_transactions R118, 43_device_mode R140: a bare command of the ADC on the host's
own path sends its one byte, keeps nothing of the reply, and leaves the block's mode and line; a
failed exchange is TransportError. That rows of wire bytes run on that path is the model's (log 8), and so
is that data the host names beside the opcode is dropped (log 9). -/
def Obligations.BareWireCommandsSendTheirByte : Prop :=
  ∀ (s : State) (i : Instr) (b : Byte), s.cfg.fam = .adc →
    (i, b) ∈ [(Instr.adcReset, 0x06#8), (.adcWake, 0x00#8), (.adcSleep, 0x02#8), (.adcNop, 0xFF#8),
      (.adcRdatac, 0x14#8), (.adcSdatac, 0x16#8)] →
    (∀ reply, Replies s [b] reply →
      ∃ t, exec i s = .next t ∧ Returns s t [] ∧ OnlyEvents s t [.exchange [b] (some reply)]) ∧
    (ExchangeFails s [b] →
      ∃ t, exec i s = .next t ∧ ReturnsError s t .transportError ∧ OnlyEvents s t [.exchange [b] none])

/-- 30_encoding R70, 42_transactions R116: the ADC's read-data poll on the host's own path (log 8); data the
host names beside it is dropped, which is the model's choice (log 9). -/
def Obligations.WireReadDataReturnsTheSample : Prop :=
  ∀ s : State, s.cfg.fam = .adc →
    (∀ b0 b1 b2 b3, Replies s [0x12#8, 0xFF#8, 0xFF#8, 0xFF#8] [b0, b1, b2, b3] →
      ∃ t, exec .adcRdata s = .next t ∧ Returns s t [b1, b2, b3] ∧
        OnlyEvents s t [.exchange [0x12#8, 0xFF#8, 0xFF#8, 0xFF#8] (some [b0, b1, b2, b3])]) ∧
    (ExchangeFails s [0x12#8, 0xFF#8, 0xFF#8, 0xFF#8] →
      ∃ t, exec .adcRdata s = .next t ∧ ReturnsError s t .transportError ∧
        OnlyEvents s t [.exchange [0x12#8, 0xFF#8, 0xFF#8, 0xFF#8] none])

/-- 30_encoding R68, R71, 42_transactions R112, R114, 43_device_mode R139: the register reads of the wire
level send exactly a register read's bytes and return the last bytes of the reply; the count of
MAG.READ is the length of its payload, so a lone byte has count 0 and is no bare command, and data named
beside ADC.RREG is dropped (log 9). -/
def Obligations.WireRegisterReads : Prop :=
  ∀ (s : State) (i : Instr) (addr cnt : Nat),
    ((i = .adcRreg addr (cnt - 1) ∧ s.cfg.fam = .adc ∧ addr ≤ 15) ∨
     (i = .magRead addr ∧ s.cfg.fam = .mag ∧ addr ≤ 127 ∧ s.wireData.length = cnt)) →
    let out := readBytes s.cfg addr cnt
    let access : Access := { addr := addr, count := cnt, dir := .read }
    ((15 < cnt ∨ (cnt = 0 ∧ s.cfg.fam = .mag)) →
      ∃ t, exec i s = .next t ∧ ReturnsError s t .countRangeError ∧ Untouched s t) ∧
    (1 ≤ cnt → cnt ≤ 15 → gateClosed s access →
      ∃ t, exec i s = .next t ∧ ReturnsError s t .illegalStateError ∧ Untouched s t) ∧
    (1 ≤ cnt → cnt ≤ 15 → ¬gateClosed s access → ExchangeFails s out →
      ∃ t, exec i s = .next t ∧ ReturnsError s t .transportError ∧ OnlyEvents s t [.exchange out none]) ∧
    (∀ reply, 1 ≤ cnt → cnt ≤ 15 → ¬gateClosed s access → Replies s out reply →
      ∃ t, exec i s = .next t ∧ Returns s t (reply.drop (reply.length - cnt)) ∧
        OnlyEvents s t [.exchange out (some reply)])

/-- 30_encoding R69, R71, 42_transactions R113, R115, 43_device_mode R139: the register writes of the
wire level send exactly a register write's bytes and keep nothing of the reply; the count of MAG.WRITE is
the length of its payload, so a lone byte has count 0 and is no bare command (log 9). -/
def Obligations.WireRegisterWrites : Prop :=
  ∀ (s : State) (i : Instr) (addr cnt : Nat),
    ((i = .adcWreg addr (cnt - 1) ∧ s.cfg.fam = .adc ∧ addr ≤ 15) ∨
     (i = .magWrite addr ∧ s.cfg.fam = .mag ∧ addr ≤ 127 ∧ s.wireData.length = cnt)) →
    let out := writeBytes s.cfg addr cnt s.wireData
    let access : Access := { addr := addr, count := cnt, dir := .write }
    ((15 < cnt ∨ (1 ≤ cnt ∧ s.wireData.length ≠ cnt) ∨ (cnt = 0 ∧ s.cfg.fam = .mag)) →
      ∃ t, exec i s = .next t ∧ ReturnsError s t .countRangeError ∧ Untouched s t) ∧
    (1 ≤ cnt → cnt ≤ 15 → s.wireData.length = cnt → gateClosed s access →
      ∃ t, exec i s = .next t ∧ ReturnsError s t .illegalStateError ∧ Untouched s t) ∧
    (1 ≤ cnt → cnt ≤ 15 → s.wireData.length = cnt → ¬gateClosed s access → ExchangeFails s out →
      ∃ t, exec i s = .next t ∧ ReturnsError s t .transportError ∧ OnlyEvents s t [.exchange out none]) ∧
    (∀ reply, 1 ≤ cnt → cnt ≤ 15 → s.wireData.length = cnt → ¬gateClosed s access → Replies s out reply →
      ∃ t, exec i s = .next t ∧ Returns s t [] ∧ OnlyEvents s t [.exchange out (some reply)])

/-- 30_encoding, opening (rows of different families are never decoded against each other): a wire-level
instruction is refused on an instance of the other family, and `step` never gets there. The refusal, and
that wire rows are instructions at all, are the model's (log 9, log 8). -/
def Obligations.WireInstructionsBelongToTheirFamily : Prop :=
  (∀ (s : State) (i : Instr) (fam : Family) (opcode : List Byte), encode i = .wire fam opcode →
    s.cfg.fam ≠ fam → exec i s = .refused .otherFamily) ∧
  (∀ s : State, step s ≠ .refused .otherFamily)

/-- 42_transactions R118, 30_encoding R68 to R71: on the host's own path one byte that is no row of the
ADC's runs as a bare command, data named beside it dropped, and opcode bytes of any other shape are refused,
no opcode bytes at all, the shape of R117's filler-only poll, among them (log 9). -/
def Obligations.UndecodedWireRequests : Prop :=
  ∀ (s : State) (opcode data : List Byte), Running s (.wire opcode data) →
    (∃ e, decodeWire s.cfg.fam opcode = .error e) →
    (∀ b reply, opcode = [b] → Replies s [b] reply →
      ∃ t, step s = .next t ∧ Returns s t [] ∧ OnlyEvents s t [.exchange [b] (some reply)]) ∧
    (∀ b, opcode = [b] → ExchangeFails s [b] →
      ∃ t, step s = .next t ∧ ReturnsError s t .transportError ∧ OnlyEvents s t [.exchange [b] none]) ∧
    (opcode.length ≠ 1 → step s = .refused .malformedWireOpcode)

/-! ## Register sub-fields -/

/-- 41_register_fields R102, the errors: a current value that does not fit is RangeError; otherwise the
refused update of the lowest field decides. For a descriptor that breaks R100 this is the model's (log 14). -/
def Obligations.FieldPackRefusals : Prop :=
  ∀ (r : RegDescriptor) (cur : Nat) (upd : List FieldUpdate), distinctFields upd →
    (2 ^ (8 * r.widthBytes) ≤ cur → fieldPack r cur upd = .error .rangeError) ∧
    (∀ u ∈ upd, cur < 2 ^ (8 * r.widthBytes) → badUpdate r u →
      (∀ v ∈ upd, badUpdate r v → u.1 ≤ v.1) →
      fieldPack r cur upd =
        .error (if r.subfields[u.1]? = none then .unknownFieldError else .invalidFieldError))

/-- 41_register_fields R102, R106, the value: with every update good on a well-formed register, every
named field reads back the value given, and the new value fits the register. -/
def Obligations.FieldPackWritesTheNamedFields : Prop :=
  ∀ (r : RegDescriptor) (cur : Nat) (upd : List FieldUpdate), r.wf = true → distinctFields upd →
    cur < 2 ^ (8 * r.widthBytes) → (∀ u ∈ upd, ¬badUpdate r u) →
    ∃ new, fieldPack r cur upd = .ok new ∧ new < 2 ^ (8 * r.widthBytes) ∧
      ∀ u ∈ upd, ∀ f, r.subfields[u.1]? = some f → (fieldUnpack f new : Int) = u.2

/-- 41_register_fields R104: every bit that lies in the span of no named field is unchanged. That field_pack
gives a descriptor that breaks R100 a value at all is the model's (log 14). -/
def Obligations.FieldPackKeepsEveryOtherBit : Prop :=
  ∀ (r : RegDescriptor) (cur new : Nat) (upd : List FieldUpdate), fieldPack r cur upd = .ok new →
    ∀ p, (∀ u ∈ upd, ∀ f, r.subfields[u.1]? = some f → f.spans p = false) →
      new.testBit p = cur.testBit p
end

