-- ==== Sys2Proof/Laws/State.lean ====
section
/-! SUPPORT. One lemma per field per update of State, true by unfolding, and what the updates leave to read. -/

namespace Sys2Proof.Machine.State

@[simp] theorem consume_cfg (s : State) : (s.consume).cfg = s.cfg := rfl
@[simp] theorem consume_mode (s : State) : (s.consume).mode = s.mode := rfl
@[simp] theorem consume_startLevel (s : State) : (s.consume).startLevel = s.startLevel := rfl
@[simp] theorem consume_pending (s : State) : (s.consume).pending = s.pending := rfl
@[simp] theorem consume_rsp (s : State) : (s.consume).rsp = none := rfl
@[simp] theorem consume_wireRsp (s : State) : (s.consume).wireRsp = none := rfl
@[simp] theorem consume_trace (s : State) : (s.consume).trace = s.trace := rfl
@[simp] theorem consume_inputs (s : State) : (s.consume).inputs = s.inputs.tail := rfl
@[simp] theorem consume_draws (s : State) : (s.consume).draws = s.draws + 1 := rfl

@[simp] theorem respond_cfg (s : State) (o : Except OpError Result) : (s.respond o).cfg = s.cfg := rfl
@[simp] theorem respond_mode (s : State) (o : Except OpError Result) : (s.respond o).mode = s.mode := rfl
@[simp] theorem respond_startLevel (s : State) (o : Except OpError Result) : (s.respond o).startLevel = s.startLevel := rfl
@[simp] theorem respond_pending (s : State) (o : Except OpError Result) : (s.respond o).pending = none := rfl
@[simp] theorem respond_rsp (s : State) (o : Except OpError Result) : (s.respond o).rsp = some (response s.draws o) := rfl
@[simp] theorem respond_wireRsp (s : State) (o : Except OpError Result) : (s.respond o).wireRsp = none := rfl
@[simp] theorem respond_trace (s : State) (o : Except OpError Result) : (s.respond o).trace = s.trace := rfl
@[simp] theorem respond_inputs (s : State) (o : Except OpError Result) : (s.respond o).inputs = s.inputs.tail := rfl
@[simp] theorem respond_draws (s : State) (o : Except OpError Result) : (s.respond o).draws = s.draws + 1 := rfl

@[simp] theorem respondWire_cfg (s : State) (o : Except OpError (List Byte)) : (s.respondWire o).cfg = s.cfg := rfl
@[simp] theorem respondWire_mode (s : State) (o : Except OpError (List Byte)) : (s.respondWire o).mode = s.mode := rfl
@[simp] theorem respondWire_startLevel (s : State) (o : Except OpError (List Byte)) : (s.respondWire o).startLevel = s.startLevel := rfl
@[simp] theorem respondWire_pending (s : State) (o : Except OpError (List Byte)) : (s.respondWire o).pending = none := rfl
@[simp] theorem respondWire_rsp (s : State) (o : Except OpError (List Byte)) : (s.respondWire o).rsp = none := rfl
@[simp] theorem respondWire_wireRsp (s : State) (o : Except OpError (List Byte)) : (s.respondWire o).wireRsp = some (match o with | .ok r => .bytes r | .error e => .failed e) := rfl
@[simp] theorem respondWire_trace (s : State) (o : Except OpError (List Byte)) : (s.respondWire o).trace = s.trace := rfl
@[simp] theorem respondWire_inputs (s : State) (o : Except OpError (List Byte)) : (s.respondWire o).inputs = s.inputs.tail := rfl
@[simp] theorem respondWire_draws (s : State) (o : Except OpError (List Byte)) : (s.respondWire o).draws = s.draws + 1 := rfl

@[simp] theorem emit_cfg (s : State) (e : Event) : (s.emit e).cfg = s.cfg := rfl
@[simp] theorem emit_mode (s : State) (e : Event) : (s.emit e).mode = s.mode := rfl
@[simp] theorem emit_startLevel (s : State) (e : Event) : (s.emit e).startLevel = s.startLevel := rfl
@[simp] theorem emit_pending (s : State) (e : Event) : (s.emit e).pending = s.pending := rfl
@[simp] theorem emit_rsp (s : State) (e : Event) : (s.emit e).rsp = s.rsp := rfl
@[simp] theorem emit_wireRsp (s : State) (e : Event) : (s.emit e).wireRsp = s.wireRsp := rfl
@[simp] theorem emit_trace (s : State) (e : Event) : (s.emit e).trace = s.trace ++ [e] := rfl
@[simp] theorem emit_inputs (s : State) (e : Event) : (s.emit e).inputs = s.inputs := rfl
@[simp] theorem emit_draws (s : State) (e : Event) : (s.emit e).draws = s.draws := rfl

@[simp] theorem setStart_cfg (s : State) (b : Bool) : (s.setStart b).cfg = s.cfg := rfl
@[simp] theorem setStart_mode (s : State) (b : Bool) : (s.setStart b).mode = s.mode := rfl
@[simp] theorem setStart_startLevel (s : State) (b : Bool) : (s.setStart b).startLevel = b := rfl
@[simp] theorem setStart_pending (s : State) (b : Bool) : (s.setStart b).pending = s.pending := rfl
@[simp] theorem setStart_rsp (s : State) (b : Bool) : (s.setStart b).rsp = s.rsp := rfl
@[simp] theorem setStart_wireRsp (s : State) (b : Bool) : (s.setStart b).wireRsp = s.wireRsp := rfl
@[simp] theorem setStart_trace (s : State) (b : Bool) : (s.setStart b).trace = s.trace ++ [.setLevel b] := rfl
@[simp] theorem setStart_inputs (s : State) (b : Bool) : (s.setStart b).inputs = s.inputs := rfl
@[simp] theorem setStart_draws (s : State) (b : Bool) : (s.setStart b).draws = s.draws := rfl

@[simp] theorem pulseStart_cfg (s : State) : (s.pulseStart).cfg = s.cfg := rfl
@[simp] theorem pulseStart_mode (s : State) : (s.pulseStart).mode = s.mode := rfl
@[simp] theorem pulseStart_startLevel (s : State) : (s.pulseStart).startLevel = false := rfl
@[simp] theorem pulseStart_pending (s : State) : (s.pulseStart).pending = s.pending := rfl
@[simp] theorem pulseStart_rsp (s : State) : (s.pulseStart).rsp = s.rsp := rfl
@[simp] theorem pulseStart_wireRsp (s : State) : (s.pulseStart).wireRsp = s.wireRsp := rfl
@[simp] theorem pulseStart_trace (s : State) : (s.pulseStart).trace = s.trace ++ [.pulse s.cfg.startPulse] := rfl
@[simp] theorem pulseStart_inputs (s : State) : (s.pulseStart).inputs = s.inputs := rfl
@[simp] theorem pulseStart_draws (s : State) : (s.pulseStart).draws = s.draws := rfl

@[simp] theorem idleStep_cfg (s : State) : (s.idleStep).cfg = s.cfg := rfl
@[simp] theorem idleStep_mode (s : State) : (s.idleStep).mode = s.mode := rfl
@[simp] theorem idleStep_startLevel (s : State) : (s.idleStep).startLevel = s.startLevel := rfl
@[simp] theorem idleStep_pending (s : State) : (s.idleStep).pending = s.pending := rfl
@[simp] theorem idleStep_rsp (s : State) : (s.idleStep).rsp = none := rfl
@[simp] theorem idleStep_wireRsp (s : State) : (s.idleStep).wireRsp = none := rfl
@[simp] theorem idleStep_trace (s : State) : (s.idleStep).trace = s.trace := rfl
@[simp] theorem idleStep_inputs (s : State) : (s.idleStep).inputs = s.inputs.tail := rfl
@[simp] theorem idleStep_draws (s : State) : (s.idleStep).draws = s.draws + 1 := rfl

@[simp] theorem accept_cfg (s : State) (r : Request) : (s.accept r).cfg = s.cfg := rfl
@[simp] theorem accept_mode (s : State) (r : Request) : (s.accept r).mode = s.mode := rfl
@[simp] theorem accept_startLevel (s : State) (r : Request) : (s.accept r).startLevel = s.startLevel := rfl
@[simp] theorem accept_pending (s : State) (r : Request) : (s.accept r).pending = some r := rfl
@[simp] theorem accept_rsp (s : State) (r : Request) : (s.accept r).rsp = none := rfl
@[simp] theorem accept_wireRsp (s : State) (r : Request) : (s.accept r).wireRsp = none := rfl
@[simp] theorem accept_trace (s : State) (r : Request) : (s.accept r).trace = s.trace := rfl
@[simp] theorem accept_inputs (s : State) (r : Request) : (s.accept r).inputs = s.inputs.tail := rfl
@[simp] theorem accept_draws (s : State) (r : Request) : (s.accept r).draws = s.draws + 1 := rfl

@[simp] theorem resetEvent_cfg (s : State) : (s.resetEvent).cfg = s.cfg := rfl
@[simp] theorem resetEvent_mode (s : State) : (s.resetEvent).mode = .idle := rfl
@[simp] theorem resetEvent_startLevel (s : State) : (s.resetEvent).startLevel = false := rfl
@[simp] theorem resetEvent_pending (s : State) : (s.resetEvent).pending = s.pending.filter fun r => !r.isCommand := rfl
@[simp] theorem resetEvent_rsp (s : State) : (s.resetEvent).rsp = none := rfl
@[simp] theorem resetEvent_wireRsp (s : State) : (s.resetEvent).wireRsp = none := rfl
@[simp] theorem resetEvent_trace (s : State) : (s.resetEvent).trace = s.trace ++ s.abandonEvents ++ s.dropLineEvents := rfl
@[simp] theorem resetEvent_inputs (s : State) : (s.resetEvent).inputs = s.inputs.tail := rfl
@[simp] theorem resetEvent_draws (s : State) : (s.resetEvent).draws = s.draws + 1 := rfl

@[simp] theorem followedBy_cfg (s : State) (o : Option Request) : (s.followedBy o).cfg = s.cfg := rfl
@[simp] theorem followedBy_mode (s : State) (o : Option Request) : (s.followedBy o).mode = s.mode := rfl
@[simp] theorem followedBy_startLevel (s : State) (o : Option Request) : (s.followedBy o).startLevel = s.startLevel := rfl
@[simp] theorem followedBy_rsp (s : State) (o : Option Request) : (s.followedBy o).rsp = s.rsp := rfl
@[simp] theorem followedBy_wireRsp (s : State) (o : Option Request) : (s.followedBy o).wireRsp = s.wireRsp := rfl
@[simp] theorem followedBy_trace (s : State) (o : Option Request) : (s.followedBy o).trace = s.trace := rfl
@[simp] theorem followedBy_inputs (s : State) (o : Option Request) : (s.followedBy o).inputs = s.inputs := rfl
@[simp] theorem followedBy_draws (s : State) (o : Option Request) : (s.followedBy o).draws = s.draws := rfl
@[simp] theorem followedBy_pending (s : State) (o : Option Request) : (s.followedBy o).pending = o.or s.pending := rfl
@[simp] theorem followedBy_none (s : State) : s.followedBy none = s := rfl

@[simp] theorem emit_sample (s : State) (e : Event) : (s.emit e).sample = s.sample := rfl
@[simp] theorem setStart_sample (s : State) (b : Bool) : (s.setStart b).sample = s.sample := rfl
@[simp] theorem pulseStart_sample (s : State) : (s.pulseStart).sample = s.sample := rfl

end Sys2Proof.Machine.State
end

