-- ==== Sys2Proof/Laws/Ops.lean ====
section
/-! SUPPORT. What each shared operation can do, said once: replies, transactions, builders, the gated access, the read of RDR. -/

namespace Sys2Proof.Machine

theorem State.acceptedReply_eq_some {s : State} {n : Nat} {r : List Byte} :
    s.acceptedReply n = some r ↔ s.sample.reply = some r ∧ r.length = n := by
  unfold State.acceptedReply
  cases s.sample.reply with
  | none => simp
  | some x =>
    by_cases h : x.length = n
    · simp only [h, if_true, Option.some.injEq]
      exact ⟨fun e => ⟨e, e ▸ h⟩, fun e => e.1⟩
    · simp only [h, if_false, Option.some.injEq]
      exact ⟨fun e => (by cases e), fun e => absurd (e.1 ▸ e.2) h⟩

theorem State.acceptedReply_eq_none {s : State} {n : Nat} :
    s.acceptedReply n = none ↔ ∀ r, s.sample.reply = some r → r.length ≠ n := by
  constructor
  · intro h r hr hn
    rw [State.acceptedReply_eq_some.mpr ⟨hr, hn⟩] at h
    cases h
  · intro h
    cases hr : s.acceptedReply n with
    | none => rfl
    | some r => exact absurd (State.acceptedReply_eq_some.mp hr).2 (h r (State.acceptedReply_eq_some.mp hr).1)

theorem State.acceptedReply_length {s : State} {n : Nat} {r : List Byte} (h : s.acceptedReply n = some r) :
    r.length = n := (State.acceptedReply_eq_some.mp h).2

/-- A transaction whose exchange succeeds. -/
theorem State.transact_ok {s : State} {q : TransactionRequest} {r : List Byte}
    (h : s.acceptedReply q.bytesOut.length = some r) :
    s.transact q = (s.emit (.exchange q.bytesOut (some r)), .ok (q.response r)) := by
  simp [State.transact, h]

/-- A transaction whose exchange fails. -/
theorem State.transact_fails {s : State} {q : TransactionRequest}
    (h : s.acceptedReply q.bytesOut.length = none) :
    s.transact q = (s.emit (.exchange q.bytesOut none), .error .transportError) := by
  simp [State.transact, h]

theorem transact_cases (s : State) (q : TransactionRequest) :
    (∃ r, s.acceptedReply q.bytesOut.length = some r ∧
      s.transact q = (s.emit (.exchange q.bytesOut (some r)), .ok (q.response r))) ∨
    (s.acceptedReply q.bytesOut.length = none ∧
      s.transact q = (s.emit (.exchange q.bytesOut none), .error .transportError)) := by
  cases h : s.acceptedReply q.bytesOut.length with
  | none => exact .inr ⟨rfl, State.transact_fails h⟩
  | some r => exact .inl ⟨r, rfl, State.transact_ok h⟩

theorem response_length {q : TransactionRequest} {r : List Byte} (h : q.responseLength ≤ r.length) :
    (q.response r).length = q.responseLength := by
  simp [TransactionRequest.response]; omega

theorem countInDomain_iff {n : Nat} : countInDomain n = true ↔ 1 ≤ n ∧ n ≤ 15 := by
  simp only [countInDomain, Bool.and_eq_true, decide_eq_true_eq]
  exact Iff.rfl

theorem countInDomain_eq_false_iff {n : Nat} : countInDomain n = false ↔ n < 1 ∨ 15 < n := by
  rw [← Bool.not_eq_true, countInDomain_iff]; omega

theorem addrMax_eq (fam : Family) : Params.addrMax fam = lastAddress fam := by cases fam <;> rfl

/-- The request of a register read inside its domains. -/
def readRequest (c : BlockConfig) (addr count : Nat) : TransactionRequest :=
  { opcodeBytes := readOpcode c.fam addr count, payload := List.replicate count (fillerByte c), responseLength := count }

/-- The request of a register write inside its domains. -/
def writeRequest (c : BlockConfig) (addr count : Nat) (data : List Byte) : TransactionRequest :=
  { opcodeBytes := writeOpcode c.fam addr count, payload := data, responseLength := 0 }

theorem buildReadRegister_count {c : BlockConfig} {addr count : Nat} (h : count < 1 ∨ 15 < count) :
    buildReadRegister c addr count = .error .countRangeError := by
  simp [buildReadRegister, countInDomain_eq_false_iff.mpr h]

theorem buildReadRegister_range {c : BlockConfig} {addr count : Nat} (h1 : 1 ≤ count) (h2 : count ≤ 15)
    (h : lastAddress c.fam < addr) : buildReadRegister c addr count = .error .rangeError := by
  simp [buildReadRegister, countInDomain_iff.mpr ⟨h1, h2⟩, addrMax_eq, h]

theorem buildReadRegister_ok {c : BlockConfig} {addr count : Nat} (h1 : 1 ≤ count) (h2 : count ≤ 15)
    (h : addr ≤ lastAddress c.fam) : buildReadRegister c addr count = .ok (readRequest c addr count) := by
  simp [buildReadRegister, countInDomain_iff.mpr ⟨h1, h2⟩, addrMax_eq, Nat.not_lt.mpr h, readRequest]

theorem buildWriteRegister_count {c : BlockConfig} {addr count : Nat} {data : List Byte}
    (h : count < 1 ∨ 15 < count ∨ data.length ≠ count) :
    buildWriteRegister c addr count data = .error .countRangeError := by
  by_cases hc : count < 1 ∨ 15 < count
  · simp [buildWriteRegister, countInDomain_eq_false_iff.mpr hc]
  · have hd : data.length ≠ count := by
      rcases h with h | h | h
      · exact absurd (.inl h) hc
      · exact absurd (.inr h) hc
      · exact h
    simp [buildWriteRegister, hd]

theorem buildWriteRegister_range {c : BlockConfig} {addr count : Nat} {data : List Byte} (h1 : 1 ≤ count)
    (h2 : count ≤ 15) (hd : data.length = count) (h : lastAddress c.fam < addr) :
    buildWriteRegister c addr count data = .error .rangeError := by
  simp [buildWriteRegister, countInDomain_iff.mpr ⟨h1, h2⟩, addrMax_eq, h, hd]

theorem buildWriteRegister_ok {c : BlockConfig} {addr count : Nat} {data : List Byte} (h1 : 1 ≤ count)
    (h2 : count ≤ 15) (hd : data.length = count) (h : addr ≤ lastAddress c.fam) :
    buildWriteRegister c addr count data = .ok (writeRequest c addr count data) := by
  simp [buildWriteRegister, countInDomain_iff.mpr ⟨h1, h2⟩, addrMax_eq, Nat.not_lt.mpr h, hd, writeRequest]

theorem buildReadRegister_cases (c : BlockConfig) (addr count : Nat) :
    buildReadRegister c addr count = .error .countRangeError ∨
    buildReadRegister c addr count = .error .rangeError ∨
    (1 ≤ count ∧ count ≤ 15 ∧ addr ≤ lastAddress c.fam ∧
      buildReadRegister c addr count = .ok (readRequest c addr count)) := by
  by_cases hc : count < 1 ∨ 15 < count
  · exact .inl (buildReadRegister_count hc)
  · by_cases ha : lastAddress c.fam < addr
    · exact .inr (.inl (buildReadRegister_range (by omega) (by omega) ha))
    · exact .inr (.inr ⟨by omega, by omega, by omega, buildReadRegister_ok (by omega) (by omega) (by omega)⟩)

theorem buildWriteRegister_cases (c : BlockConfig) (addr count : Nat) (data : List Byte) :
    buildWriteRegister c addr count data = .error .countRangeError ∨
    buildWriteRegister c addr count data = .error .rangeError ∨
    (1 ≤ count ∧ count ≤ 15 ∧ data.length = count ∧ addr ≤ lastAddress c.fam ∧
      buildWriteRegister c addr count data = .ok (writeRequest c addr count data)) := by
  by_cases hc : count < 1 ∨ 15 < count ∨ data.length ≠ count
  · exact .inl (buildWriteRegister_count hc)
  · have h : 1 ≤ count ∧ count ≤ 15 ∧ data.length = count := by omega
    by_cases ha : lastAddress c.fam < addr
    · exact .inr (.inl (buildWriteRegister_range h.1 h.2.1 h.2.2 ha))
    · exact .inr (.inr ⟨h.1, h.2.1, h.2.2, by omega, buildWriteRegister_ok h.1 h.2.1 h.2.2 (by omega)⟩)

theorem or_ofNat_of_lt {base addr : Nat} (hb : base = 0x20 ∨ base = 0x40) (h : addr ≤ 15) :
    BitVec.ofNat 8 base ||| BitVec.ofNat 8 addr = BitVec.ofNat 8 (base + addr) := by
  rcases hb with rfl | rfl <;> interval_cases addr <;> rfl

theorem or_ofNat_of_lt_mag {addr : Nat} (h : addr ≤ 127) :
    BitVec.ofNat 8 0x80 ||| BitVec.ofNat 8 addr = BitVec.ofNat 8 (0x80 + addr) := by
  have : ∀ a : Fin 128, BitVec.ofNat 8 0x80 ||| BitVec.ofNat 8 a.val = BitVec.ofNat 8 (0x80 + a.val) := by decide
  exact this ⟨addr, by omega⟩

theorem adcCountByte_eq (n : Nat) : adcCountByte n = BitVec.ofNat 8 n := by
  simp [adcCountByte]

theorem magWriteByte_eq (a : Nat) : magWriteByte a = BitVec.ofNat 8 a := by
  simp [magWriteByte]

/-- The bytes of a register read inside its domains. -/
theorem readRequest_bytesOut {c : BlockConfig} {addr count : Nat} (h : addr ≤ lastAddress c.fam) :
    (readRequest c addr count).bytesOut = readBytes c addr count := by
  cases hf : c.fam with
  | adc =>
    rw [hf] at h
    simp [readRequest, TransactionRequest.bytesOut, readOpcode, readBytes, fillerByte, hf, adcCountByte_eq,
      adcReadByte, or_ofNat_of_lt (.inl rfl) h, Params.adcFiller, adcNopByte]
  | mag =>
    rw [hf] at h
    simp [readRequest, TransactionRequest.bytesOut, readOpcode, readBytes, fillerByte, hf,
      magReadByte, or_ofNat_of_lt_mag h]

/-- The bytes of a register write inside its domains. -/
theorem writeRequest_bytesOut {c : BlockConfig} {addr count : Nat} {data : List Byte} (h : addr ≤ lastAddress c.fam) :
    (writeRequest c addr count data).bytesOut = writeBytes c addr count data := by
  cases hf : c.fam with
  | adc =>
    rw [hf] at h
    simp [writeRequest, TransactionRequest.bytesOut, writeOpcode, writeBytes, hf, adcCountByte_eq,
      adcWriteByte, or_ofNat_of_lt (.inr rfl) h]
  | mag =>
    simp [writeRequest, TransactionRequest.bytesOut, writeOpcode, writeBytes, hf, magWriteByte_eq]

theorem readBytes_length (c : BlockConfig) (addr cnt : Nat) :
    cnt + 1 ≤ (readBytes c addr cnt).length ∧ (readBytes c addr cnt).length ≤ cnt + 2 := by
  cases h : c.fam <;> simp [readBytes, h]

theorem writeBytes_length (c : BlockConfig) (addr cnt : Nat) (data : List Byte) :
    data.length + 1 ≤ (writeBytes c addr cnt data).length ∧ (writeBytes c addr cnt data).length ≤ data.length + 2 := by
  cases h : c.fam <;> simp [writeBytes, h]

/-- The bytes and the response length of RDR's transaction. -/
theorem resultTxn_spec (c : BlockConfig) (m : DeviceMode) :
    (resultTxn c m).bytesOut = resultBytes c m ∧ (resultTxn c m).responseLength = frameLength c.fam := by
  cases hf : c.fam <;> cases m <;> cases hp : c.adcContPoll <;>
    simp [resultTxn, resultBytes, frameLength, hf, hp, buildStreamingPoll, buildRdataPoll, frameBytes,
      fillerByte, TransactionRequest.bytesOut, Params.adcSampleBytes, Params.magFrameBytes, Params.adcFiller,
      adcNopByte, adcRdataByte]

theorem frameLength_le_resultBytes (c : BlockConfig) (m : DeviceMode) :
    frameLength c.fam ≤ (resultBytes c m).length ∧ (resultBytes c m).length ≤ 10 := by
  cases hf : c.fam <;> simp [resultBytes, frameLength, hf]
  split <;> simp

theorem gateRefuses_iff {s : State} {a : Access} : s.gateRefuses a = true ↔ gateClosed s a := by
  unfold State.gateRefuses gateClosed
  cases s.mode <;> simp

theorem gateRefuses_eq_false_iff {s : State} {a : Access} : s.gateRefuses a = false ↔ ¬gateClosed s a := by
  rw [← gateRefuses_iff]; simp

/-- A gated access either refuses with nothing sent, or is one transaction of a built request. -/
theorem gatedAccess_cases (s : State) (a : Access) (built : Except OpError TransactionRequest) :
    (∃ e, built = .error e ∧ s.gatedAccess a built = (s, .error e)) ∨
    (gateClosed s a ∧ s.gatedAccess a built = (s, .error .illegalStateError)) ∨
    (∃ q, built = .ok q ∧ ¬gateClosed s a ∧ s.gatedAccess a built = s.transact q) := by
  cases built with
  | error e => exact .inl ⟨e, rfl, rfl⟩
  | ok q =>
    by_cases h : gateClosed s a
    · exact .inr (.inl ⟨h, by simp [State.gatedAccess, gateRefuses_iff.mpr h]⟩)
    · exact .inr (.inr ⟨q, rfl, h, by simp [State.gatedAccess, gateRefuses_eq_false_iff.mpr h]⟩)

theorem gatedAccess_closed {s : State} {a : Access} {q : TransactionRequest} (h : gateClosed s a) :
    s.gatedAccess a (.ok q) = (s, .error .illegalStateError) := by
  simp [State.gatedAccess, gateRefuses_iff.mpr h]

theorem gatedAccess_open {s : State} {a : Access} {q : TransactionRequest} (h : ¬gateClosed s a) :
    s.gatedAccess a (.ok q) = s.transact q := by
  simp [State.gatedAccess, gateRefuses_eq_false_iff.mpr h]

/-- The conversion of RDR cannot fail on the bytes its transaction keeps (43_device_mode R133). -/
theorem convertSample_ok {fam : Family} {d : List Byte} (h : d.length = frameLength fam) :
    ∃ r, convertSample fam d = .ok r := by
  cases fam with
  | adc =>
    have h3 : d.length = 3 := h
    exact ⟨_, by simp [convertSample, convertAdc, h3, Params.adcSampleBytes, decodeSigned, widthLegal, Params.widths,
      Params.codeW, Except.map]; rfl⟩
  | mag =>
    have h10 : d.length = 10 := h
    exact ⟨_, by simp [convertSample, convertMag, h10, Params.magFrameBytes, Except.map]; rfl⟩

/-- The read of RDR is one exchange of the mode's bytes: it gives a frame, or TransportError. -/
theorem readSample_cases (s : State) :
    (∃ r res, s.acceptedReply (resultBytes s.cfg s.mode).length = some r ∧
      convertSample s.cfg.fam (r.drop (r.length - frameLength s.cfg.fam)) = .ok res ∧
      s.readSample = (s.emit (.exchange (resultBytes s.cfg s.mode) (some r)), .ok res)) ∨
    (s.acceptedReply (resultBytes s.cfg s.mode).length = none ∧
      s.readSample = (s.emit (.exchange (resultBytes s.cfg s.mode) none), .error .transportError)) := by
  obtain ⟨hb, hl⟩ := resultTxn_spec s.cfg s.mode
  rcases transact_cases s (resultTxn s.cfg s.mode) with ⟨r, hr, ht⟩ | ⟨hr, ht⟩
  · rw [hb] at hr ht
    have hlen := State.acceptedReply_length hr
    have hle := (frameLength_le_resultBytes s.cfg s.mode).1
    obtain ⟨res, hres⟩ := convertSample_ok (fam := s.cfg.fam) (d := r.drop (r.length - frameLength s.cfg.fam))
      (by simp; omega)
    refine .inl ⟨r, res, hr, hres, ?_⟩
    simp [State.readSample, ht, TransactionRequest.response, hl, hres]
  · rw [hb] at hr ht
    exact .inr ⟨hr, by simp [State.readSample, ht]⟩

end Sys2Proof.Machine
end

