-- ==== Sys2Proof/Laws/Exec.lean ====
section
/-! SUPPORT. One inversion lemma for `exec`: everything an instruction can do to the block before its step is answered, and how the answer goes with it. Provers cite it instead of unfolding the meanings. -/

namespace Sys2Proof.Machine

/-- The error an outcome ends in, if it does. -/
def errorOf {α : Type} : Except OpError α → Option OpError
  | .ok _    => none
  | .error e => some e

@[simp] theorem errorOf_ok {α : Type} (a : α) : errorOf (.ok a : Except OpError α) = none := rfl
@[simp] theorem errorOf_error {α : Type} (e : OpError) : errorOf (.error e : Except OpError α) = some e := rfl
@[simp] theorem errorOf_map {α β : Type} (f : α → β) (o : Except OpError α) : errorOf (o.map f) = errorOf o := by
  cases o <;> rfl

/-- What instruction `i` can do to the block in state `s`, giving `s'` and the error it ends in. -/
inductive Effect (i : Instr) (s : State) : State → Option OpError → Prop
  /-- Refused by a test of its operands. -/
  | operandError {e : OpError} (he : e = .rangeError ∨ e = .countRangeError) (hi : movesMode i = false) :
      Effect i s s (some e)
  /-- Refused by the mode: an Illegal cell of the table, or the gate. -/
  | illegal (hm : transition s.mode i = none ∨ (movesMode i = false ∧ s.mode ≠ .idle)) :
      Effect i s s (some .illegalStateError)
  /-- A pure operation that gives its result. -/
  | pure (hi : isPure i = true) : Effect i s s none
  /-- One exchange that succeeds, with no wait before it. -/
  | exchanged {out r : List Byte} (h1 : 1 ≤ out.length) (h2 : out.length ≤ 17) (hr : r.length = out.length)
      (hi : movesMode i = false ∨ (i = .rdr ∧ s.mode = .continuous)) :
      Effect i s (s.emit (.exchange out (some r))) none
  /-- One exchange that fails, with no wait before it. -/
  | exchangeFailed {out : List Byte} (h1 : 1 ≤ out.length) (h2 : out.length ≤ 17)
      (hi : movesMode i = false ∨ (i = .rdr ∧ s.mode = .continuous)) :
      Effect i s (s.emit (.exchange out none)) (some .transportError)
  /-- RDR whose wait ended without ready. -/
  | waitEnded {t : Nat} {w : WaitOutcome} {e : OpError} (hi : i = .rdr) (hm : s.mode = .conversionPending)
      (he : e = .timeoutError ∨ e = .cancelled) :
      Effect i s (s.emit (.wait t s.cfg.tick w)) (some e)
  /-- RDR whose exchange failed after the wait. -/
  | waitedFailed {t : Nat} {w : WaitOutcome} {out : List Byte} (h1 : 1 ≤ out.length) (h2 : out.length ≤ 17)
      (hi : i = .rdr) (hm : s.mode = .conversionPending) :
      Effect i s ((s.emit (.wait t s.cfg.tick w)).emit (.exchange out none)) (some .transportError)
  /-- RDR that read a pending conversion. -/
  | waitedRead {t : Nat} {w : WaitOutcome} {out r : List Byte} (h1 : 1 ≤ out.length) (h2 : out.length ≤ 17)
      (hr : r.length = out.length) (hi : i = .rdr) (hm : s.mode = .conversionPending) :
      Effect i s { (s.emit (.wait t s.cfg.tick w)).emit (.exchange out (some r)) with mode := .idle } none
  /-- STS. -/
  | started (hi : i = .sts) (hm : s.mode = .idle) :
      Effect i s { s.pulseStart with mode := .conversionPending } none
  /-- STC. -/
  | startedContinuous (hi : i = .stc) (hm : s.mode = .idle) :
      Effect i s { s.setStart true with mode := .continuous } none
  /-- STP. -/
  | stopped (hi : i = .stp) (hm : s.mode ≠ .idle) :
      Effect i s { s.setStart false with mode := .idle } none

/-- A step is answered on the response port or, for a transaction of the host's own path, beside it. -/
def EndsWith (i : Instr) (s' t : State) (err : Option OpError) : Prop :=
  (∃ o : Except OpError Result, t = s'.respond o ∧ errorOf o = err ∧ ∃ cw, encode i = .command cw) ∨
  (∃ o : Except OpError (List Byte), t = s'.respondWire o ∧ errorOf o = err ∧ movesMode i = false)

theorem EndsWith.fields {i : Instr} {s' t : State} {err : Option OpError} (h : EndsWith i s' t err) :
    t.cfg = s'.cfg ∧ t.mode = s'.mode ∧ t.startLevel = s'.startLevel ∧ t.trace = s'.trace ∧ t.pending = none := by
  rcases h with ⟨o, rfl, -, -⟩ | ⟨o, rfl, -, -⟩ <;> exact ⟨rfl, rfl, rfl, rfl, rfl⟩

/-- A command word decodes to an operation of the command port. -/
theorem encode_of_decodeCommand {cw : CommandWord} {i : Instr} (h : decodeCommand cw = .ok i) :
    ∃ cw', encode i = .command cw' := by
  unfold decodeCommand at h
  split at h <;> (try simp only [formatK, formatM, formatR] at h) <;> (try split at h) <;> simp at h <;> subst h <;>
    exact ⟨_, rfl⟩

/-- Opcode bytes of a family's bus decode to a row of that family. -/
theorem encode_of_decodeWire {fam : Family} {l : List Byte} {i : Instr} (h : decodeWire fam l = .ok i) :
    ∃ l', encode i = .wire fam l' := by
  unfold decodeWire at h
  split at h
  · unfold decodeAdcBare at h; split at h <;> simp at h <;> subst h <;> exact ⟨_, rfl⟩
  · unfold decodeAdcPair at h; split at h <;> (try split at h) <;> simp at h <;> subst h <;> exact ⟨_, rfl⟩
  · simp at h; subst h; unfold decodeMagByte; split <;> exact ⟨_, rfl⟩
  · simp at h

/-- An instruction decoded from a request is of the request's level. -/
theorem encode_of_decode_request {r : Request} {fam : Family} {i : Instr} (h : decode (r.image fam) = .ok i) :
    (∃ cw, encode i = .command cw) ↔ r.isCommand = true := by
  cases r with
  | command cw opd n => simpa [Request.isCommand] using encode_of_decodeCommand h
  | wire l d =>
    obtain ⟨l', hl⟩ := encode_of_decodeWire h
    simp [Request.isCommand, hl]

/-- Opcode bytes of the bus never decode to an operation that moves the mode. -/
theorem movesMode_of_decodeWire {fam : Family} {l : List Byte} {i : Instr} (h : decodeWire fam l = .ok i) :
    movesMode i = false := by
  unfold decodeWire at h
  split at h
  · unfold decodeAdcBare at h; split at h <;> simp at h <;> subst h <;> rfl
  · unfold decodeAdcPair at h; split at h <;> (try split at h) <;> simp at h <;> subst h <;> rfl
  · simp at h; subst h; unfold decodeMagByte; split <;> rfl
  · simp at h

theorem decodeSigned_error {w : Nat} {b : List Byte} {e : OpError} (h : decodeSigned w b = .error e) :
    e = .rangeError := by
  unfold decodeSigned at h; split at h
  · cases h; rfl
  · split at h <;> cases h; rfl

theorem encodeSigned_error {w : Nat} {v : Int} {e : OpError} (h : encodeSigned w v = .error e) :
    e = .rangeError := by
  unfold encodeSigned at h; split at h
  · cases h; rfl
  · split at h <;> cases h; rfl

theorem decodeFraction_error {w : Nat} {c k : Int} {e : OpError} (h : decodeFraction w c k = .error e) :
    e = .rangeError := by
  unfold decodeFraction at h; split at h
  · cases h; rfl
  · split at h
    · cases h; rfl
    · split at h <;> cases h; rfl

theorem convertAdc_error {b : List Byte} {e : OpError} (h : convertAdc b = .error e) : e = .rangeError := by
  unfold convertAdc at h; split at h
  · cases h; rfl
  · exact decodeSigned_error h

theorem convertMag_error {b : List Byte} {e : OpError} (h : convertMag b = .error e) : e = .rangeError := by
  unfold convertMag at h; split at h <;> cases h; rfl

theorem pure_effect {α : Type} {i : Instr} {s : State} (hi : isPure i = true) (o : Except OpError α)
    (he : ∀ e, o = .error e → e = .rangeError) : Effect i s s (errorOf o) := by
  cases o with
  | ok a => exact .pure hi
  | error e => exact .operandError (.inl (he e rfl)) (by cases i <;> simp_all [isPure, movesMode])

theorem transact_effect {i : Instr} {s : State} {q : TransactionRequest} (h1 : 1 ≤ q.bytesOut.length)
    (h2 : q.bytesOut.length ≤ 17) (hi : movesMode i = false) :
    Effect i s (s.transact q).1 (errorOf (s.transact q).2) := by
  rcases transact_cases s q with ⟨r, hr, h⟩ | ⟨-, h⟩ <;> rw [h]
  · exact .exchanged h1 h2 (State.acceptedReply_length hr) (.inl hi)
  · exact .exchangeFailed h1 h2 (.inl hi)

theorem registerRead_effect {i : Instr} (s : State) (addr cnt : Nat) (hi : movesMode i = false) :
    Effect i s (s.registerRead addr cnt).1 (errorOf (s.registerRead addr cnt).2) := by
  unfold State.registerRead
  rcases gatedAccess_cases s { addr := addr, count := cnt, dir := .read } (buildReadRegister s.cfg addr cnt)
    with ⟨e, he, h⟩ | ⟨hg, h⟩ | ⟨q, hq, -, h⟩ <;> rw [h]
  · refine .operandError ?_ hi
    rcases buildReadRegister_cases s.cfg addr cnt with hb | hb | ⟨-, -, -, hb⟩ <;> rw [hb] at he <;> cases he
    · exact .inr rfl
    · exact .inl rfl
  · exact .illegal (.inr ⟨hi, hg.1⟩)
  · rcases buildReadRegister_cases s.cfg addr cnt with hb | hb | ⟨h1, h2, ha, hb⟩ <;> rw [hb] at hq <;> cases hq
    have hl := readBytes_length s.cfg addr cnt
    rw [← readRequest_bytesOut ha] at hl
    exact transact_effect (by omega) (by omega) hi

theorem registerWrite_effect {i : Instr} (s : State) (addr cnt : Nat) (data : List Byte) (hi : movesMode i = false) :
    Effect i s (s.registerWrite addr cnt data).1 (errorOf (s.registerWrite addr cnt data).2) := by
  unfold State.registerWrite
  rcases gatedAccess_cases s { addr := addr, count := cnt, dir := .write } (buildWriteRegister s.cfg addr cnt data)
    with ⟨e, he, h⟩ | ⟨hg, h⟩ | ⟨q, hq, -, h⟩ <;> rw [h]
  · refine .operandError ?_ hi
    rcases buildWriteRegister_cases s.cfg addr cnt data with hb | hb | ⟨-, -, -, -, hb⟩ <;> rw [hb] at he <;> cases he
    · exact .inr rfl
    · exact .inl rfl
  · exact .illegal (.inr ⟨hi, hg.1⟩)
  · rcases buildWriteRegister_cases s.cfg addr cnt data with hb | hb | ⟨h1, h2, hd, ha, hb⟩ <;> rw [hb] at hq <;>
      cases hq
    have hl := writeBytes_length s.cfg addr cnt data
    rw [← writeRequest_bytesOut ha] at hl
    exact transact_effect (by omega) (by omega) hi

/-- RDR outside Idle, when the wait is over or there is none. -/
theorem readResult_effect (s : State) (t : Nat) :
    Effect .rdr s (s.readResult t).1 (errorOf (s.readResult t).2) := by
  cases hm : s.mode with
  | idle => simp only [State.readResult, hm]; exact .illegal (.inl (by simp [transition, hm]))
  | continuous =>
    simp only [State.readResult, hm]
    obtain ⟨hf, hle⟩ := frameLength_le_resultBytes s.cfg s.mode
    have h1 : 1 ≤ (resultBytes s.cfg s.mode).length := Nat.le_trans (by cases s.cfg.fam <;> decide) hf
    rcases readSample_cases s with ⟨r, res, hr, -, h⟩ | ⟨-, h⟩ <;> rw [h]
    · exact .exchanged h1 (by omega) (State.acceptedReply_length hr) (.inr ⟨rfl, hm⟩)
    · exact .exchangeFailed h1 (by omega) (.inr ⟨rfl, hm⟩)
  | conversionPending =>
    simp only [State.readResult, hm, State.waitReady]
    cases s.sample.waitOutcome t with
    | timedOut => exact .waitEnded rfl hm (.inl rfl)
    | cancelled => exact .waitEnded rfl hm (.inr rfl)
    | ready =>
      simp only [State.readPending]
      have key := readSample_cases (s.emit (.wait t s.cfg.tick .ready))
      obtain ⟨hf, hle⟩ := frameLength_le_resultBytes (s.emit (.wait t s.cfg.tick .ready)).cfg
        (s.emit (.wait t s.cfg.tick .ready)).mode
      have h1 : 1 ≤ (resultBytes (s.emit (.wait t s.cfg.tick .ready)).cfg
        (s.emit (.wait t s.cfg.tick .ready)).mode).length :=
        Nat.le_trans (by cases (s.emit (.wait t s.cfg.tick .ready)).cfg.fam <;> decide) hf
      rcases key with ⟨r, res, hr, -, h⟩ | ⟨-, h⟩ <;> rw [h]
      · exact .waitedRead h1 (by omega) (State.acceptedReply_length hr) rfl hm
      · exact .waitedFailed h1 (by omega) rfl hm

theorem startSingle_effect (s : State) : Effect .sts s s.startSingle.1 (errorOf s.startSingle.2) := by
  cases hm : s.mode <;> simp only [State.startSingle, hm]
  · exact .started rfl hm
  all_goals exact .illegal (.inl (by simp [transition, hm]))

theorem startContinuous_effect (s : State) : Effect .stc s s.startContinuous.1 (errorOf s.startContinuous.2) := by
  cases hm : s.mode <;> simp only [State.startContinuous, hm]
  · exact .startedContinuous rfl hm
  all_goals exact .illegal (.inl (by simp [transition, hm]))

theorem stopConversion_effect (s : State) : Effect .stp s s.stopConversion.1 (errorOf s.stopConversion.2) := by
  cases hm : s.mode <;> simp only [State.stopConversion, hm]
  · exact .illegal (.inl (by simp [transition, hm]))
  all_goals exact .stopped rfl (by simp [hm])

theorem onFamily_next {fam : Family} {s : State} {run : State × Except OpError (List Byte)} {t : State}
    (h : onFamily fam s run = .next t) : s.cfg.fam = fam ∧ t = run.1.respondWire run.2 := by
  unfold onFamily at h; split at h
  · cases h; exact ⟨‹_›, rfl⟩
  · cases h

theorem adcBare_next {b : Byte} {s t : State} {i : Instr} (hi : movesMode i = false) (h : adcBare b s = .next t) :
    ∃ s' err, Effect i s s' err ∧ EndsWith i s' t err := by
  obtain ⟨-, rfl⟩ := onFamily_next h
  exact ⟨_, _, transact_effect (q := buildBare b) (by simp [buildBare, TransactionRequest.bytesOut]) (by simp [buildBare, TransactionRequest.bytesOut]) hi, .inr ⟨_, rfl, rfl, hi⟩⟩

/-- What `exec` can do when it gives a next state. -/
theorem exec_effect {i : Instr} {s t : State} (h : exec i s = .next t) :
    ∃ s' err, Effect i s s' err ∧ EndsWith i s' t err := by
  cases i with
  | decs w =>
    cases h
    exact ⟨_, _, pure_effect rfl _ fun _ => decodeSigned_error, .inl ⟨_, rfl, errorOf_map _ _, _, rfl⟩⟩
  | encs w =>
    cases h
    exact ⟨_, _, pure_effect rfl _ fun _ => encodeSigned_error, .inl ⟨_, rfl, errorOf_map _ _, _, rfl⟩⟩
  | decf w =>
    cases h
    exact ⟨_, _, pure_effect rfl _ fun _ => decodeFraction_error, .inl ⟨_, rfl, errorOf_map _ _, _, rfl⟩⟩
  | cvadc =>
    cases h
    exact ⟨_, _, pure_effect rfl _ fun _ => convertAdc_error, .inl ⟨_, rfl, errorOf_map _ _, _, rfl⟩⟩
  | cvmag =>
    cases h
    exact ⟨_, _, pure_effect rfl _ fun _ => convertMag_error, .inl ⟨_, rfl, errorOf_map _ _, _, rfl⟩⟩
  | sts => cases h; exact ⟨_, _, startSingle_effect s, .inl ⟨_, rfl, rfl, _, rfl⟩⟩
  | rdr => cases h; exact ⟨_, _, readResult_effect s _, .inl ⟨_, rfl, rfl, _, rfl⟩⟩
  | stc => cases h; exact ⟨_, _, startContinuous_effect s, .inl ⟨_, rfl, rfl, _, rfl⟩⟩
  | stp => cases h; exact ⟨_, _, stopConversion_effect s, .inl ⟨_, rfl, rfl, _, rfl⟩⟩
  | rrg c a => cases h; exact ⟨_, _, registerRead_effect s a c rfl, .inl ⟨_, rfl, errorOf_map _ _, _, rfl⟩⟩
  | wrg c a => cases h; exact ⟨_, _, registerWrite_effect s a c _ rfl, .inl ⟨_, rfl, errorOf_map _ _, _, rfl⟩⟩
  | adcRreg a n =>
    obtain ⟨-, rfl⟩ := onFamily_next h
    exact ⟨_, _, registerRead_effect s a _ rfl, .inr ⟨_, rfl, rfl, rfl⟩⟩
  | adcWreg a n =>
    obtain ⟨-, rfl⟩ := onFamily_next h
    exact ⟨_, _, registerWrite_effect s a _ _ rfl, .inr ⟨_, rfl, rfl, rfl⟩⟩
  | adcReset => exact adcBare_next rfl h
  | adcWake => exact adcBare_next rfl h
  | adcSleep => exact adcBare_next rfl h
  | adcNop => exact adcBare_next rfl h
  | adcRdata =>
    obtain ⟨-, rfl⟩ := onFamily_next h
    exact ⟨_, _, transact_effect (q := buildRdataPoll) (by decide) (by decide) rfl, .inr ⟨_, rfl, rfl, rfl⟩⟩
  | adcRdatac => exact adcBare_next rfl h
  | adcSdatac => exact adcBare_next rfl h
  | magRead a =>
    obtain ⟨-, rfl⟩ := onFamily_next h
    exact ⟨_, _, registerRead_effect s a _ rfl, .inr ⟨_, rfl, rfl, rfl⟩⟩
  | magWrite a =>
    obtain ⟨-, rfl⟩ := onFamily_next h
    exact ⟨_, _, registerWrite_effect s a _ _ rfl, .inr ⟨_, rfl, rfl, rfl⟩⟩

/-- `busy_o` is 1 exactly while a command is in progress. -/
theorem State.busyO_eq (s : State) : s.busyO = s.pending.any Request.isCommand := by
  unfold State.busyO
  cases s.pending with
  | none => rfl
  | some r => cases r <;> rfl

theorem State.resetEvent_busyO (s : State) : s.resetEvent.busyO = false := by
  rw [State.busyO_eq, State.resetEvent_pending]
  cases s.pending with
  | none => rfl
  | some r => cases r <;> rfl

theorem runPending_cases {r : Request} {s t : State} (h : runPending r s = .next t) :
    (∃ i, decode (r.image s.cfg.fam) = .ok i ∧ exec i s = .next t) ∨
    (∃ e, decode (r.image s.cfg.fam) = .error e ∧ execUndecoded r s = .next t) := by
  unfold runPending at h
  split at h
  · exact .inl ⟨_, ‹_›, h⟩
  · exact .inr ⟨_, ‹_›, h⟩

theorem thenAccept_next {o : Option Request} {x : Host.Outcome State Fault Refusal} {t : State}
    (h : thenAccept o x = .next t) : ∃ t', x = .next t' ∧ t = t'.followedBy o := by
  cases x with
  | next t' => cases h; exact ⟨t', rfl, rfl⟩
  | fault e => cases h
  | refused e => cases h

theorem serve_cases {r : Request} {s t : State} (h : serve r s = .next t) :
    commandsOverlap r s.sample.request = false ∧
      ∃ t', runPending r s = .next t' ∧ t = t'.followedBy s.sample.request := by
  unfold serve at h
  split at h
  · cases h
  · rename_i ho
    exact ⟨by simpa using ho, thenAccept_next h⟩

/-- What a step can do when it gives a next state. `t'` is the state as the request that ran leaves it;
what was presented meanwhile is latched on top of it. -/
theorem step_cases {s t : State} (h : step s = .next t) :
    (s.sample.rst = true ∧ t = s.resetEvent) ∨
    (s.sample.rst = false ∧ s.pending = none ∧ s.sample.request = none ∧ t = s.idleStep) ∨
    (∃ r, s.sample.rst = false ∧ s.pending = none ∧ s.sample.request = some r ∧ t = s.accept r) ∨
    (∃ r t', s.sample.rst = false ∧ s.pending = some r ∧ commandsOverlap r s.sample.request = false ∧
      t = t'.followedBy s.sample.request ∧
      ((∃ i, decode (r.image s.cfg.fam) = .ok i ∧ exec i s = .next t') ∨
       (∃ e, decode (r.image s.cfg.fam) = .error e ∧ execUndecoded r s = .next t'))) := by
  unfold step at h
  split at h
  · unfold admittedStep at h
    split at h
    · cases h; exact .inl ⟨‹_›, rfl⟩
    · rename_i hr
      have hr' : s.sample.rst = false := by simpa using hr
      split at h
      · obtain ⟨ho, t', ht, rfl⟩ := serve_cases h
        exact .inr (.inr (.inr ⟨_, t', hr', ‹_›, ho, rfl, runPending_cases ht⟩))
      · cases h; exact .inr (.inr (.inl ⟨_, hr', ‹_›, ‹_›, rfl⟩))
      · cases h; exact .inr (.inl ⟨hr', ‹_›, ‹_›, rfl⟩)
  · cases h

/-- An undecoded command is answered ReservedOp, an undecoded transaction is one bare command of the ADC. -/
theorem execUndecoded_cases {r : Request} {s t : State} (h : execUndecoded r s = .next t) :
    (r.isCommand = true ∧ t = s.respond (.error .reservedOp)) ∨
    (r.isCommand = false ∧ ∃ b, t = (s.transact (buildBare b)).1.respondWire (s.transact (buildBare b)).2) := by
  unfold execUndecoded at h
  split at h
  · cases h; exact .inl ⟨rfl, rfl⟩
  · exact .inr ⟨rfl, _, (onFamily_next h).2⟩
  · cases h

/-- With a request in progress and no reset, a step serves it. -/
theorem step_serve {s : State} {r : Request} (h1 : s.cfg.admitted = true) (h2 : s.sample.rst = false)
    (h3 : s.pending = some r) : step s = serve r s := by
  simp [step, h1, admittedStep, h2, h3]

theorem thenAccept_none (x : Host.Outcome State Fault Refusal) : thenAccept none x = x := by
  cases x <;> rfl

/-- Nothing presented: the request in progress runs, and that is all. -/
theorem step_running {s : State} {r : Request} (h : Running s r) : step s = runPending r s := by
  rw [step_serve h.1 h.2.1 h.2.2.2, serve, h.2.2.1]
  exact thenAccept_none _

end Sys2Proof.Machine
end

