-- ==== Sys2Proof/Laws/Bytes.lean ====
section
/-! SUPPORT. Byte order, two's complement and the layout of the ports: the small lemmas of Machine/Operands.lean. -/

namespace Sys2Proof.Machine

theorem be_lt (s : List Byte) : be s < 256 ^ s.length := by
  induction s with
  | nil => simp [be]
  | cons b s ih =>
    have hb := b.isLt
    simp only [be, List.length_cons, Nat.pow_succ]
    have : b.toNat * 256 ^ s.length ≤ 255 * 256 ^ s.length := Nat.mul_le_mul_right _ (by omega)
    omega

/-- Two sequences of one length with the same big-endian value are the same. -/
theorem be_injective : ∀ {s t : List Byte}, s.length = t.length → be s = be t → s = t
  | [], [], _, _ => rfl
  | b :: s, c :: t, hl, h => by
    have hl' : s.length = t.length := by simpa using hl
    have hs := be_lt s
    have ht := be_lt t
    simp only [be] at h
    rw [hl'] at h hs
    have hb : b.toNat = c.toNat := by
      have h1 : (b.toNat * 256 ^ t.length + be s) / 256 ^ t.length = b.toNat := by
        rw [Nat.mul_comm, Nat.mul_add_div (Nat.pos_of_ne_zero (by simp)), Nat.div_eq_of_lt hs, Nat.add_zero]
      have h2 : (c.toNat * 256 ^ t.length + be t) / 256 ^ t.length = c.toNat := by
        rw [Nat.mul_comm, Nat.mul_add_div (Nat.pos_of_ne_zero (by simp)), Nat.div_eq_of_lt ht, Nat.add_zero]
      rw [← h1, h, h2]
    rw [hb] at h
    rw [BitVec.eq_of_toNat_eq hb, be_injective hl' (by omega)]

@[simp] theorem bigEndianBytes_length (n u : Nat) : (bigEndianBytes n u).length = n := by
  simp [bigEndianBytes]

theorem bigEndianBytes_succ (n u : Nat) :
    bigEndianBytes (n + 1) u = BitVec.ofNat 8 (u >>> (8 * n)) :: bigEndianBytes n u := by
  simp only [bigEndianBytes, List.range_succ_eq_map, List.map_cons, List.map_map]
  congr 1
  apply List.map_congr_left
  intro i hi
  simp only [Function.comp, Nat.succ_eq_add_one]
  congr 3
  omega

theorem be_bigEndianBytes (n u : Nat) : be (bigEndianBytes n u) = u % 256 ^ n := by
  induction n with
  | zero => simp [bigEndianBytes, be, Nat.mod_one]
  | succ n ih =>
    have h : (2 : Nat) ^ 8 = 256 := rfl
    rw [bigEndianBytes_succ, be, ih, bigEndianBytes_length, BitVec.toNat_ofNat, Nat.shiftRight_eq_div_pow,
      Nat.pow_mul, h, Nat.pow_succ 256, Nat.mod_mul, Nat.mul_comm (256 ^ n), Nat.add_comm]

theorem bigEndianBytes_be (s : List Byte) : bigEndianBytes s.length (be s) = s :=
  be_injective (by simp) (by rw [be_bigEndianBytes, Nat.mod_eq_of_lt (be_lt s)])

theorem packNat_lt (s : List Byte) : packNat s < 256 ^ s.length := by
  induction s with
  | nil => simp [packNat]
  | cons b s ih =>
    have hb := b.isLt
    simp only [packNat, List.length_cons, Nat.pow_succ]
    omega

theorem packNat_byte {s : List Byte} {i : Nat} {b : Byte} (h : s[i]? = some b) :
    packNat s / 256 ^ i % 256 = b.toNat := by
  induction s generalizing i with
  | nil => simp at h
  | cons c s ih =>
    have hc := c.isLt
    cases i with
    | zero => simp at h; subst h; simp only [packNat]; omega
    | succ i =>
      have h' : s[i]? = some b := by simpa using h
      rw [← ih h']
      have e : packNat (c :: s) / 256 ^ (i + 1) = packNat s / 256 ^ i := by
        rw [Nat.pow_succ, Nat.mul_comm, ← Nat.div_div_eq_div_mul]
        congr 1
        simp only [packNat]; omega
      rw [e]

theorem packBytes_toNat {s : List Byte} (h : s.length ≤ 16) : (packBytes s).toNat = packNat s := by
  rw [packBytes, BitVec.toNat_ofNat, Nat.mod_eq_of_lt]
  calc packNat s < 256 ^ s.length := packNat_lt s
    _ ≤ 256 ^ 16 := Nat.pow_le_pow_right (by decide) h
    _ = 2 ^ 128 := by decide

/-- Bytes laid out on a port are read back from it (30_encoding R63, R64). -/
theorem portBytes_packBytes {s : List Byte} (h : s.length ≤ 16) : portBytes (packBytes s) s.length = s := by
  apply List.ext_getElem?
  intro i
  by_cases hi : i < s.length
  · have hb : s[i]? = some s[i] := by simp [hi]
    rw [hb]
    simp only [portBytes, List.getElem?_map, List.getElem?_range, hi, Option.map_some, Option.some.injEq]
    apply BitVec.eq_of_toNat_eq
    rw [portByte, BitVec.extractLsb'_toNat, packBytes_toNat h, Nat.shiftRight_eq_div_pow, Nat.pow_mul]
    exact packNat_byte hb
  · simp [portBytes, hi]

theorem packLanesNat_lt (s : List Lane) : packLanesNat s < (2 ^ 32) ^ s.length := by
  induction s with
  | nil => simp [packLanesNat]
  | cons b s ih =>
    have hb := b.isLt
    rw [List.length_cons, Nat.pow_succ (2 ^ 32)]
    simp only [packLanesNat]
    omega

theorem packLanesNat_lane {s : List Lane} {i : Nat} {b : Lane} (h : s[i]? = some b) :
    packLanesNat s / (2 ^ 32) ^ i % 2 ^ 32 = b.toNat := by
  induction s generalizing i with
  | nil => simp at h
  | cons c s ih =>
    have hc := c.isLt
    cases i with
    | zero => simp at h; subst h; simp only [packLanesNat]; omega
    | succ i =>
      have h' : s[i]? = some b := by simpa using h
      rw [← ih h']
      have e : packLanesNat (c :: s) / (2 ^ 32) ^ (i + 1) = packLanesNat s / (2 ^ 32) ^ i := by
        rw [Nat.pow_succ, Nat.mul_comm, ← Nat.div_div_eq_div_mul]
        congr 1
        simp only [packLanesNat]; omega
      rw [e]

theorem packLanes_toNat {s : List Lane} (h : s.length ≤ 4) : (packLanes s).toNat = packLanesNat s := by
  rw [packLanes, BitVec.toNat_ofNat, Nat.mod_eq_of_lt]
  calc packLanesNat s < (2 ^ 32) ^ s.length := packLanesNat_lt s
    _ ≤ (2 ^ 32) ^ 4 := Nat.pow_le_pow_right (by decide) h
    _ = 2 ^ 128 := by decide

/-- A lane laid out on a port is read back from it (30_encoding R63, R64). -/
theorem portLane_packLanes {s : List Lane} {k : Nat} {x : Lane} (h : s.length ≤ 4) (hk : s[k]? = some x) :
    portLane (packLanes s) k = x := by
  apply BitVec.eq_of_toNat_eq
  rw [portLane, BitVec.extractLsb'_toNat, packLanes_toNat h, Nat.shiftRight_eq_div_pow, Nat.pow_mul]
  exact packLanesNat_lane hk

/-- `sext_32` loses nothing of a value that fits 32 bits (00_scope R11). -/
theorem sext32_toInt {v : Int} (h1 : -(2 ^ 31) ≤ v) (h2 : v < 2 ^ 31) : (sext32 v).toInt = v := by
  rw [sext32, BitVec.toInt_ofInt]
  exact Int.bmod_eq_of_le (by norm_num at *; omega) (by norm_num at *; omega)

theorem foldSigned_eq_signedValue (w : Nat) (s : List Byte) : foldSigned w (be s) = signedValue w s := rfl

/-- The fold of an unsigned `w`-bit value is in the signed range and congruent to it (40_codec R83). -/
theorem foldSigned_range {w u : Nat} (hw : 1 ≤ w) (h : u < 2 ^ w) :
    -(2 ^ (w - 1)) ≤ foldSigned w u ∧ foldSigned w u ≤ 2 ^ (w - 1) - 1 ∧ foldSigned w u % 2 ^ w = u := by
  obtain ⟨k, rfl⟩ : ∃ k, w = k + 1 := ⟨w - 1, by omega⟩
  simp only [foldSigned, Nat.add_sub_cancel]
  have hp : (2 : Nat) ^ (k + 1) = 2 * 2 ^ k := by rw [Nat.pow_succ, Nat.mul_comm]
  have hpi : (2 : Int) ^ (k + 1) = 2 * 2 ^ k := by rw [Int.pow_succ, Int.mul_comm]
  have hc : ((2 ^ k : Nat) : Int) = 2 ^ k := by norm_cast
  rw [hp] at h
  rw [hpi]
  split
  · refine ⟨by omega, by omega, ?_⟩
    rw [Int.sub_emod_right]
    exact Int.emod_eq_of_lt (by omega) (by omega)
  · refine ⟨by omega, by omega, ?_⟩
    exact Int.emod_eq_of_lt (by omega) (by omega)

theorem widthLegal_iff {w : Nat} : widthLegal w = true ↔ w = 8 ∨ w = 16 ∨ w = 24 := by
  simp only [widthLegal, decide_eq_true_eq, Params.widths, List.mem_cons, List.not_mem_nil, or_false]

theorem fitsSigned_iff {w : Nat} {v : Int} : fitsSigned w v = true ↔ -(2 ^ (w - 1)) ≤ v ∧ v ≤ 2 ^ (w - 1) - 1 := by
  simp only [fitsSigned, Bool.and_eq_true, decide_eq_true_eq]

theorem decodeSigned_ok {w : Nat} {s : List Byte} (hw : w = 8 ∨ w = 16 ∨ w = 24) (h : s.length = w / 8) :
    decodeSigned w s = .ok (signedValue w s) := by
  simp [decodeSigned, widthLegal_iff.mpr hw, h, foldSigned_eq_signedValue]

theorem encodeSigned_ok {w : Nat} {v : Int} (hw : w = 8 ∨ w = 16 ∨ w = 24) (h1 : -(2 ^ (w - 1)) ≤ v)
    (h2 : v ≤ 2 ^ (w - 1) - 1) : encodeSigned w v = .ok (bigEndianBytes (w / 8) (v % 2 ^ w).toNat) := by
  simp [encodeSigned, widthLegal_iff.mpr hw, fitsSigned_iff.mpr ⟨h1, h2⟩]

theorem decodeFraction_ok {w : Nat} {c k : Int} (hw : w = 8 ∨ w = 16 ∨ w = 24) (h1 : -(2 ^ (w - 1)) ≤ c)
    (h2 : c ≤ 2 ^ (w - 1) - 1) (hk : 1 ≤ k) : decodeFraction w c k = .ok { num := c, den := k.toNat } := by
  simp [decodeFraction, widthLegal_iff.mpr hw, fitsSigned_iff.mpr ⟨h1, h2⟩, show ¬k < 1 by omega]

end Sys2Proof.Machine
end

