-- ==== Sys2Proof/Laws/Measurement.lean ====
section
/-! SUPPORT. The frames on the result port: what CVADC, CVMAG and the end of RDR put there. -/

namespace Sys2Proof.Machine

/-- The value of `w` bits of bytes lies in the signed range and has `be` as its residue (40_codec R83). -/
theorem signedValue_range {w : Nat} {b : List Byte} (hw : w = 8 ∨ w = 16 ∨ w = 24) (h : b.length = w / 8) :
    -(2 ^ (w - 1)) ≤ signedValue w b ∧ signedValue w b ≤ 2 ^ (w - 1) - 1 ∧ signedValue w b % 2 ^ w = be b := by
  apply foldSigned_range (by omega)
  have := be_lt b
  rcases hw with rfl | rfl | rfl <;> (rw [h] at this; simpa using this)

theorem signedValue24_range {b : List Byte} (h : b.length = 3) :
    -(2 ^ 23) ≤ signedValue 24 b ∧ signedValue 24 b ≤ 2 ^ 23 - 1 := by
  have := signedValue_range (w := 24) (by omega) h
  exact ⟨this.1, this.2.1⟩

/-- Three bytes are determined by their signed value. -/
theorem foldSigned24_injective {a b : List Byte} (ha : a.length = 3) (hb : b.length = 3)
    (h : foldSigned 24 (be a) = foldSigned 24 (be b)) : a = b := by
  apply be_injective (by omega)
  have h1 := (signedValue_range (w := 24) (by omega) ha).2.2
  have h2 := (signedValue_range (w := 24) (by omega) hb).2.2
  have : signedValue 24 a = signedValue 24 b := h
  rw [this, h2] at h1
  omega

/-- A code on the result port is lane 0, and the rest of the port is 0. -/
theorem resultCode_port {v : Int} (h1 : -(2 ^ 31) ≤ v) (h2 : v < 2 ^ 31) :
    (portLane (Result.code v).port 0).toInt = v ∧ (Result.code v).port.toNat < 2 ^ 32 := by
  constructor
  · simp only [Result.port]
    rw [portLane_packLanes (x := sext32 v) (by simp) (by simp), sext32_toInt h1 h2]
  · simp only [Result.port]
    rw [packLanes_toNat (by simp)]
    have := packLanesNat_lt [sext32 v]
    simpa using this

theorem convertAdc_ok {b : List Byte} (h : b.length = 3) : convertAdc b = .ok (signedValue 24 b) := by
  unfold convertAdc
  rw [Params.codeW, decodeSigned_ok (by omega) h]
  simp [h, Params.adcSampleBytes]

theorem convertMag_ok (b0 b1 b2 b3 b4 b5 b6 b7 b8 b9 : Byte) :
    convertMag [b0, b1, b2, b3, b4, b5, b6, b7, b8, b9] =
      .ok { x := signedValue 24 [b4, b5, b6], y := signedValue 24 [b1, b2, b3],
            z := -signedValue 24 [b7, b8, b9], status := b0.getLsbD 7 } := by
  have hs : statusFlag [b0, b1, b2, b3, b4, b5, b6, b7, b8, b9] = b0.getLsbD 7 := by
    simp only [statusFlag, bits, BitVec.getLsbD, Nat.testBit_eq_decide_div_mod_eq]
    rfl
  simp only [convertMag, Params.magFrameBytes, List.length_cons, List.length_nil, hs]
  rfl

theorem convertAdc_carries {b : List Byte} (h : b.length = 3) (n : Nat) :
    CarriesAdcFrame (response n ((convertAdc b).map .code)) b := by
  have hr := signedValue24_range h
  have hc := resultCode_port (v := signedValue 24 b) (by omega) (by omega)
  rw [convertAdc_ok h]
  exact ⟨rfl, hc.1, hc.2, rfl⟩

theorem convertMag_carries {b : List Byte} (h : b.length = 10) (n : Nat) :
    CarriesMagFrame (response n ((convertMag b).map .frame)) b := by
  match b, h with
  | [b0, b1, b2, b3, b4, b5, b6, b7, b8, b9], _ =>
    refine ⟨b0, b1, b2, b3, b4, b5, b6, b7, b8, b9, rfl, ?_⟩
    rw [convertMag_ok]
    have h1 := signedValue24_range (b := [b4, b5, b6]) rfl
    have h2 := signedValue24_range (b := [b1, b2, b3]) rfl
    have h3 := signedValue24_range (b := [b7, b8, b9]) rfl
    refine ⟨rfl, ?_, ?_, ?_, ?_, rfl⟩ <;> simp only [response, Except.map, Result.port]
    · rw [portLane_packLanes (by simp) (by simp; rfl), sext32_toInt (by omega) (by omega)]
    · rw [portLane_packLanes (by simp) (by simp; rfl), sext32_toInt (by omega) (by omega)]
    · rw [portLane_packLanes (by simp) (by simp; rfl), sext32_toInt (by omega) (by omega)]
    · rw [portLane_packLanes (by simp) (by simp; rfl)]; rfl

/-- The end of RDR puts the family's frame on the port. -/
theorem convertSample_carries {fam : Family} {d : List Byte} (h : d.length = frameLength fam) (n : Nat) :
    CarriesFrame fam (response n (convertSample fam d)) d := by
  cases fam with
  | adc => exact convertAdc_carries h n
  | mag => exact convertMag_carries h n

end Sys2Proof.Machine
end

