-- ==== Sys2Proof/Laws/PerInstr.lean ====
section
/-! SUPPORT. Statements made per instruction. Family TableRow: the encoding of a well-formed instruction stands in its row of spec/opcode_table.json: the row's level, family, width and fixed bits. -/

namespace Sys2Proof.Laws.TableRow

/-- The level and, at the wire level, the family of a row of the opcode table. -/
inductive Level where
  | command
  | wire (fam : Family)
  deriving DecidableEq, Repr

/-- Bits `hi` down to `lo` of a row that hold `value` in every word of it. -/
structure FixedBits where
  hi    : Nat
  lo    : Nat
  value : Nat
  deriving DecidableEq, Repr

/-- A row of spec/opcode_table.json. -/
structure Row where
  level : Level
  width : Nat
  fixed : List FixedBits
  deriving DecidableEq, Repr

/-- A row of the command level. -/
def commandRow (fixed : List FixedBits) : Row := { level := .command, width := 16, fixed := fixed }

/-- A row of one byte of the ADC's bus. -/
def adcByteRow (value : Nat) : Row := { level := .wire .adc, width := 8, fixed := [⟨7, 0, value⟩] }

/-- The opcode table, its rows in the table's order. -/
def row : Instr → Row
  | .decs _      => commandRow [⟨15, 8, 16⟩]
  | .encs _      => commandRow [⟨15, 8, 32⟩]
  | .decf _      => commandRow [⟨15, 8, 48⟩]
  | .cvadc       => commandRow [⟨15, 0, 16384⟩]
  | .cvmag       => commandRow [⟨15, 0, 20480⟩]
  | .sts         => commandRow [⟨15, 0, 32768⟩]
  | .rdr         => commandRow [⟨15, 0, 36864⟩]
  | .stc         => commandRow [⟨15, 0, 40960⟩]
  | .stp         => commandRow [⟨15, 0, 45056⟩]
  | .rrg _ _     => commandRow [⟨15, 12, 12⟩]
  | .wrg _ _     => commandRow [⟨15, 12, 13⟩]
  | .adcRreg _ _ => { level := .wire .adc, width := 16, fixed := [⟨7, 4, 0⟩, ⟨15, 12, 2⟩] }
  | .adcWreg _ _ => { level := .wire .adc, width := 16, fixed := [⟨7, 4, 0⟩, ⟨15, 12, 4⟩] }
  | .adcReset    => adcByteRow 6
  | .adcWake     => adcByteRow 0
  | .adcSleep    => adcByteRow 2
  | .adcNop      => adcByteRow 255
  | .adcRdata    => adcByteRow 18
  | .adcRdatac   => adcByteRow 20
  | .adcSdatac   => adcByteRow 22
  | .magRead _   => { level := .wire .mag, width := 8, fixed := [⟨7, 7, 1⟩] }
  | .magWrite _  => { level := .wire .mag, width := 8, fixed := [⟨7, 7, 0⟩] }

/-- The level of an image. -/
def imageLevel : Image → Level
  | .command _  => .command
  | .wire fam _ => .wire fam

/-- The number of bits of an image. -/
def imageWidth : Image → Nat
  | .command _   => 16
  | .wire _ code => 8 * code.length

/-- An image as one number, the first byte on the bus most significant (30_encoding R68). -/
def imageNumber : Image → Nat
  | .command cw  => cw.toNat
  | .wire _ code => Machine.be code

/-- The encoding of a well-formed instruction is a word of its row. -/
def Statement (i : Instr) : Prop :=
  i.wf = true →
    imageLevel (encode i) = (row i).level ∧ imageWidth (encode i) = (row i).width ∧
      ∀ f ∈ (row i).fixed, bits (imageNumber (encode i)) f.hi f.lo = f.value

theorem wordK_row {op w : Nat} (ho : op < 16) (h : w < 256) : bits (wordK op w).toNat 15 8 = 16 * op := by
  simp only [bits, wordK, BitVec.toNat_ofNat]; omega

theorem wordR_row {op c a : Nat} (ho : op < 16) (hc : c < 32) (ha : a < 128) :
    bits (wordR op c a).toNat 15 12 = op := by
  simp only [bits, wordR, BitVec.toNat_ofNat]; omega

theorem adcPair_row : ∀ a n : Fin 16,
    (bits (Machine.be [adcReadByte a, adcCountByte n]) 7 4 = 0 ∧ bits (Machine.be [adcReadByte a, adcCountByte n]) 15 12 = 2) ∧
    (bits (Machine.be [adcWriteByte a, adcCountByte n]) 7 4 = 0 ∧ bits (Machine.be [adcWriteByte a, adcCountByte n]) 15 12 = 4) := by
  decide

theorem magByte_row : ∀ a : Fin 128,
    bits (Machine.be [magReadByte a]) 7 7 = 1 ∧ bits (Machine.be [magWriteByte a]) 7 7 = 0 := by
  decide

theorem decs (w : Nat) : Statement (.decs w) := fun h =>
  ⟨rfl, rfl, by simpa [row, commandRow, encode, imageNumber] using wordK_row (by decide) (of_decide_eq_true h)⟩
theorem encs (w : Nat) : Statement (.encs w) := fun h =>
  ⟨rfl, rfl, by simpa [row, commandRow, encode, imageNumber] using wordK_row (by decide) (of_decide_eq_true h)⟩
theorem decf (w : Nat) : Statement (.decf w) := fun h =>
  ⟨rfl, rfl, by simpa [row, commandRow, encode, imageNumber] using wordK_row (by decide) (of_decide_eq_true h)⟩
theorem cvadc : Statement .cvadc := fun _ => by decide
theorem cvmag : Statement .cvmag := fun _ => by decide
theorem sts : Statement .sts := fun _ => by decide
theorem rdr : Statement .rdr := fun _ => by decide
theorem stc : Statement .stc := fun _ => by decide
theorem stp : Statement .stp := fun _ => by decide
theorem rrg (c a : Nat) : Statement (.rrg c a) := fun h => by
  simp only [Instr.wf, Bool.and_eq_true, decide_eq_true_eq] at h
  exact ⟨rfl, rfl, by simpa [row, commandRow, encode, imageNumber] using wordR_row (by decide) h.1 h.2⟩
theorem wrg (c a : Nat) : Statement (.wrg c a) := fun h => by
  simp only [Instr.wf, Bool.and_eq_true, decide_eq_true_eq] at h
  exact ⟨rfl, rfl, by simpa [row, commandRow, encode, imageNumber] using wordR_row (by decide) h.1 h.2⟩
theorem adcRreg (a n : Nat) : Statement (.adcRreg a n) := fun h => by
  simp only [Instr.wf, Bool.and_eq_true, decide_eq_true_eq] at h
  exact ⟨rfl, rfl, by simpa [row, encode, imageNumber] using (adcPair_row ⟨a, h.1⟩ ⟨n, h.2⟩).1⟩
theorem adcWreg (a n : Nat) : Statement (.adcWreg a n) := fun h => by
  simp only [Instr.wf, Bool.and_eq_true, decide_eq_true_eq] at h
  exact ⟨rfl, rfl, by simpa [row, encode, imageNumber] using (adcPair_row ⟨a, h.1⟩ ⟨n, h.2⟩).2⟩
theorem adcReset : Statement .adcReset := fun _ => by decide
theorem adcWake : Statement .adcWake := fun _ => by decide
theorem adcSleep : Statement .adcSleep := fun _ => by decide
theorem adcNop : Statement .adcNop := fun _ => by decide
theorem adcRdata : Statement .adcRdata := fun _ => by decide
theorem adcRdatac : Statement .adcRdatac := fun _ => by decide
theorem adcSdatac : Statement .adcSdatac := fun _ => by decide
theorem magRead (a : Nat) : Statement (.magRead a) := fun h =>
  ⟨rfl, rfl, by simpa [row, encode, imageNumber] using (magByte_row ⟨a, of_decide_eq_true h⟩).1⟩
theorem magWrite (a : Nat) : Statement (.magWrite a) := fun h =>
  ⟨rfl, rfl, by simpa [row, encode, imageNumber] using (magByte_row ⟨a, of_decide_eq_true h⟩).2⟩

end Sys2Proof.Laws.TableRow
end

