-- ==== Sys2Proof/Tests/Slice0.lean ====
section
/-! SUPPORT. Tests: ill-formed terms, words written out from the spec's encodings, single steps with the expected values of spec/95_test_vectors.md, and for every obligation with hypotheses a concrete input that meets them. -/

namespace Sys2Proof.Tests
open Sys2Proof Sys2Proof.Machine

/-! ## Small states -/

/-- A concrete configuration. -/
def config (fam : Family) (gate : GatePolicy) : BlockConfig :=
  { fam := fam, lines := ⟨some 0, some 1, none⟩, gate := gate, adcContPoll := .streamPoll
    magFiller := 0x55#8, startPulse := 7, tick := 3 }

/-- A step with no reset, no request, no ready line, and a failing exchange. -/
def quiet : InputSample :=
  { rst := false, request := none, lineAtStart := false, lineLater := false
    cancel := false, cancelFirst := false, reply := none }

/-- The line is ready and the exchange returns `r`. -/
def replying (r : List Byte) : InputSample := { quiet with lineAtStart := true, reply := some r }

/-- A state of the invariant in a mode, with a request in progress and one input sample. -/
def stateOf (fam : Family) (gate : GatePolicy) (m : DeviceMode) (r : Option Request) (p : InputSample) : State :=
  { cfg := config fam gate, mode := m, startLevel := decide (m = .continuous), pending := r
    rsp := none, wireRsp := none, trace := if m = .continuous then [.setLevel true] else []
    inputs := [p], draws := 0 }

/-- An ADC instance whose every access is unsafe. -/
def adc (m : DeviceMode) (r : Request) (p : InputSample) : State := stateOf .adc .every m (some r) p

/-- A magnetometer instance whose every access is unsafe. -/
def mag (m : DeviceMode) (r : Request) (p : InputSample) : State := stateOf .mag .every m (some r) p

/-- The state after a step. -/
def after (o : Host.Outcome State Fault Refusal) : Option State :=
  match o with
  | .next t => some t
  | _       => none

/-- The state after a step that gives one. -/
def next (d : State) (o : Host.Outcome State Fault Refusal) : State := (after o).getD d

/-- The whole response of a step. -/
def answer (s : State) : Option Response := (after (step s)).bind State.rsp

/-- The status code of a step. -/
def status (s : State) : Option (BitVec 4) := (answer s).map Response.st

/-- What a step's transaction on the host's own path returned. -/
def wireAnswer (s : State) : Option WireReply := (after (step s)).bind State.wireRsp

/-- The record after a step. -/
def record (s : State) : Option (List Event) := (after (step s)).map State.trace

/-- A command word with an operand port and its length. -/
def cmd (w : CommandWord) (opd : PortWord) (n : BitVec 5) : Request := .command w opd n

/-! ## WellFormed: an ill-formed term for each check -/

theorem test_wf_decs : (Instr.decs 256).wf = false := by decide
theorem test_wf_encs : (Instr.encs 256).wf = false := by decide
theorem test_wf_decf : (Instr.decf 256).wf = false := by decide
theorem test_wf_rrg : (Instr.rrg 32 0).wf = false ∧ (Instr.rrg 0 128).wf = false := by decide
theorem test_wf_wrg : (Instr.wrg 32 0).wf = false ∧ (Instr.wrg 0 128).wf = false := by decide
theorem test_wf_adcRreg : (Instr.adcRreg 16 0).wf = false ∧ (Instr.adcRreg 0 16).wf = false := by decide
theorem test_wf_adcWreg : (Instr.adcWreg 16 0).wf = false ∧ (Instr.adcWreg 0 16).wf = false := by decide
theorem test_wf_magRead : (Instr.magRead 128).wf = false := by decide
theorem test_wf_magWrite : (Instr.magWrite 128).wf = false := by decide

/-! ## Decode: words written out from 30_encoding R66, R68 to R71 -/

theorem test_word_decs : decodeCommand 0b0001000000011000#16 = .ok (.decs 24) := by decide
theorem test_word_encs : decodeCommand 0b0010000000010000#16 = .ok (.encs 16) := by decide
theorem test_word_decf : decodeCommand 0b0011000000001000#16 = .ok (.decf 8) := by decide
theorem test_word_cvadc : decodeCommand 0b0100000000000000#16 = .ok .cvadc := by decide
theorem test_word_cvmag : decodeCommand 0b0101000000000000#16 = .ok .cvmag := by decide
theorem test_word_sts : decodeCommand 0b1000000000000000#16 = .ok .sts := by decide
theorem test_word_rdr : decodeCommand 0b1001000000000000#16 = .ok .rdr := by decide
theorem test_word_stc : decodeCommand 0b1010000000000000#16 = .ok .stc := by decide
theorem test_word_stp : decodeCommand 0b1011000000000000#16 = .ok .stp := by decide
theorem test_word_rrg : decodeCommand 0b1100000110100100#16 = .ok (.rrg 3 0x24) := by decide
theorem test_word_wrg : decodeCommand 0b1101000100000011#16 = .ok (.wrg 2 3) := by decide
theorem test_word_adcRreg : decodeWire .adc [0b00101010#8, 0b00000010#8] = .ok (.adcRreg 10 2) := by decide
theorem test_word_adcWreg : decodeWire .adc [0b01000011#8, 0b00000001#8] = .ok (.adcWreg 3 1) := by decide
theorem test_word_adcReset : decodeWire .adc [0b00000110#8] = .ok .adcReset := by decide
theorem test_word_adcWake : decodeWire .adc [0b00000000#8] = .ok .adcWake := by decide
theorem test_word_adcSleep : decodeWire .adc [0b00000010#8] = .ok .adcSleep := by decide
theorem test_word_adcNop : decodeWire .adc [0b11111111#8] = .ok .adcNop := by decide
theorem test_word_adcRdata : decodeWire .adc [0b00010010#8] = .ok .adcRdata := by decide
theorem test_word_adcRdatac : decodeWire .adc [0b00010100#8] = .ok .adcRdatac := by decide
theorem test_word_adcSdatac : decodeWire .adc [0b00010110#8] = .ok .adcSdatac := by decide
theorem test_word_magRead : decodeWire .mag [0b10100100#8] = .ok (.magRead 0x24) := by decide
theorem test_word_magWrite : decodeWire .mag [0b00000100#8] = .ok (.magWrite 4) := by decide

/-- 95_test_vectors T-RSVD. -/
theorem test_reserved_words :
    [0x0000#16, 0x0FFF#16, 0x6000#16, 0x7000#16, 0xE000#16, 0xF000#16, 0xFFFF#16, 0x1118#16, 0x2F18#16,
      0x3818#16, 0x4001#16, 0x5800#16, 0x8001#16, 0x9FFF#16, 0xA010#16, 0xB100#16].all
      (fun w => (decodeCommand w).toOption.isNone) = true := by decide
theorem test_reserved_word_is_answered :
    status (adc .continuous (cmd 0x1118#16 0#128 3#5) quiet) = some 0xF#4 := by decide

/-! ## Single steps: 95_test_vectors, part 2 -/

theorem test_decs_bytes_first_is_most_significant :
    answer (adc .idle (cmd 0x1018#16 0x563412#128 3#5) quiet) = some ⟨0x0#4, 0x00123456#128, 4#5⟩ := by decide
theorem test_decs_negative_and_bad_width :
    answer (mag .continuous (cmd 0x1010#16 0x0080#128 2#5) quiet) = some ⟨0x0#4, 0xFFFF8000#128, 4#5⟩ ∧
    status (adc .idle (cmd 0x100C#16 0xFF0F#128 2#5) quiet) = some 0x1#4 := by decide
theorem test_encs_bytes :
    answer (adc .idle (cmd 0x2018#16 0xFF800000#128 0#5) quiet) = some ⟨0x0#4, 0x000080#128, 3#5⟩ := by decide
theorem test_encs_rejects :
    status (adc .idle (cmd 0x2018#16 0x00800000#128 0#5) quiet) = some 0x1#4 ∧
    status (adc .idle (cmd 0x2018#16 0xFF700001#128 0#5) quiet) = some 0x1#4 := by decide
theorem test_decf_unreduced :
    answer (adc .idle (cmd 0x3018#16 0x0000000400000002#128 0#5) quiet) =
      some ⟨0x0#4, 0x0000000400000002#128, 8#5⟩ := by decide
theorem test_decf_rejects :
    status (adc .idle (cmd 0x3018#16 0x0000000000000005#128 0#5) quiet) = some 0x1#4 ∧
    status (adc .idle (cmd 0x3010#16 0x0000800000008000#128 0#5) quiet) = some 0x1#4 := by decide
theorem test_cvadc :
    answer (mag .idle (cmd 0x4000#16 0xFEFFFF#128 3#5) quiet) = some ⟨0x0#4, 0xFFFFFFFE#128, 4#5⟩ := by decide
theorem test_cvadc_length : status (adc .idle (cmd 0x4000#16 0#128 4#5) quiet) = some 0x1#4 := by decide
/-- 95_test_vectors T-CVMAG row 4: z is +8388608, status true. -/
theorem test_cvmag_axes_and_status :
    answer (adc .idle (cmd 0x5000#16 0x000080FFFF7FFFFFFF80#128 10#5) quiet) =
      some ⟨0x0#4, 0x0000000100800000FFFFFFFF007FFFFF#128, 13#5⟩ := by decide
/-- 95_test_vectors S4: x = 2/75, y = 1/75, z = -3/75. -/
theorem test_cvmag_scenario :
    convertMag [0x00#8, 0x00#8, 0x00#8, 0x01#8, 0x00#8, 0x00#8, 0x02#8, 0x00#8, 0x00#8, 0x03#8] =
      .ok { x := 2, y := 1, z := -3, status := false } ∧
    microtesla 2 = { num := 2, den := 75 } ∧ microtesla (-3) = { num := -3, den := 75 } := by decide
theorem test_sts_from_idle :
    (next (adc .idle (cmd 0x8000#16 0#128 0#5) quiet) (step (adc .idle (cmd 0x8000#16 0#128 0#5) quiet))).modeO = 0b01#2 ∧
    record (adc .idle (cmd 0x8000#16 0#128 0#5) quiet) = some [.pulse 7] := by decide
theorem test_sts_never_stacks :
    status (adc .conversionPending (cmd 0x8000#16 0#128 0#5) quiet) = some 0x5#4 ∧
    record (adc .conversionPending (cmd 0x8000#16 0#128 0#5) quiet) = some [] := by decide
/-- 95_test_vectors P1 step 2. -/
theorem test_rdr_single_shot :
    answer (adc .conversionPending (cmd 0x9000#16 0x3E8#128 0#5) (replying [0xAB#8, 0xFF#8, 0xFF#8, 0xFE#8])) =
      some ⟨0x0#4, 0xFFFFFFFE#128, 4#5⟩ ∧
    record (adc .conversionPending (cmd 0x9000#16 0x3E8#128 0#5) (replying [0xAB#8, 0xFF#8, 0xFF#8, 0xFE#8])) =
      some [.wait 1000 3 .ready, .exchange [0x12#8, 0xFF#8, 0xFF#8, 0xFF#8] (some [0xAB#8, 0xFF#8, 0xFF#8, 0xFE#8])] := by
  decide
/-- 95_test_vectors P4 steps 2 to 4, S5. -/
theorem test_rdr_errors :
    status (adc .conversionPending (cmd 0x9000#16 10#128 0#5) quiet) = some 0x6#4 ∧
    status (adc .conversionPending (cmd 0x9000#16 10#128 0#5) { quiet with cancel := true, cancelFirst := true }) = some 0x8#4 ∧
    status (adc .conversionPending (cmd 0x9000#16 10#128 0#5) { quiet with lineAtStart := true }) = some 0x7#4 ∧
    status (adc .idle (cmd 0x9000#16 10#128 0#5) quiet) = some 0x5#4 := by decide
theorem test_stc_from_idle :
    (next (mag .idle (cmd 0xA000#16 0#128 0#5) quiet) (step (mag .idle (cmd 0xA000#16 0#128 0#5) quiet))).modeO = 0b10#2 ∧
    record (mag .idle (cmd 0xA000#16 0#128 0#5) quiet) = some [.setLevel true] := by decide
theorem test_stc_only_from_idle : status (mag .continuous (cmd 0xA000#16 0#128 0#5) quiet) = some 0x5#4 := by decide
theorem test_stp_deasserts_even_when_inactive :
    record (adc .conversionPending (cmd 0xB000#16 0#128 0#5) quiet) = some [.setLevel false] ∧
    status (adc .conversionPending (cmd 0xB000#16 0#128 0#5) quiet) = some 0x0#4 := by decide
theorem test_stp_from_idle : status (adc .idle (cmd 0xB000#16 0#128 0#5) quiet) = some 0x5#4 := by decide
/-- 95_test_vectors T-GATE row 5. -/
theorem test_rrg_adc :
    answer (adc .idle (cmd 0xC18A#16 0#128 0#5) (replying [0x01#8, 0x02#8, 0x12#8, 0x34#8, 0x56#8])) =
      some ⟨0x0#4, 0x563412#128, 3#5⟩ ∧
    record (adc .idle (cmd 0xC18A#16 0#128 0#5) (replying [0x01#8, 0x02#8, 0x12#8, 0x34#8, 0x56#8])) =
      some [.exchange [0x2A#8, 0x02#8, 0xFF#8, 0xFF#8, 0xFF#8] (some [0x01#8, 0x02#8, 0x12#8, 0x34#8, 0x56#8])] := by
  decide
/-- 95_test_vectors T-PRIO. -/
theorem test_rrg_which_error_wins :
    status (adc .continuous (cmd 0xC000#16 0#128 0#5) quiet) = some 0x4#4 ∧
    status (adc .continuous (cmd 0xC090#16 0#128 0#5) quiet) = some 0x1#4 ∧
    status (adc .idle (cmd 0xC820#16 0#128 0#5) quiet) = some 0x4#4 ∧
    status (mag .continuous (cmd 0xC1A4#16 0#128 0#5) quiet) = some 0x5#4 := by decide
/-- 95_test_vectors T-GATE row 6. -/
theorem test_wrg_adc :
    answer (adc .idle (cmd 0xD103#16 0x3412#128 2#5) (replying [0#8, 0#8, 0#8, 0#8])) = some ⟨0x0#4, 0#128, 0#5⟩ ∧
    record (adc .idle (cmd 0xD103#16 0x3412#128 2#5) (replying [0#8, 0#8, 0#8, 0#8])) =
      some [.exchange [0x43#8, 0x01#8, 0x12#8, 0x34#8] (some [0#8, 0#8, 0#8, 0#8])] := by decide
/-- 95_test_vectors S6, T-GATE row 7. -/
theorem test_wrg_errors :
    status (adc .continuous (cmd 0xD103#16 0x563412#128 3#5) quiet) = some 0x4#4 ∧
    status (adc .continuous (cmd 0xD103#16 0x3412#128 2#5) quiet) = some 0x5#4 := by decide

/-! Wire rows: the bytes are those of 95_test_vectors T-BUILD. -/

theorem test_adcRreg_bytes :
    record (adc .idle (.wire [0x2A#8, 0x02#8] []) (replying [0#8, 0#8, 1#8, 2#8, 3#8])) =
      some [.exchange [0x2A#8, 0x02#8, 0xFF#8, 0xFF#8, 0xFF#8] (some [0#8, 0#8, 1#8, 2#8, 3#8])] ∧
    wireAnswer (adc .idle (.wire [0x2A#8, 0x02#8] []) (replying [0#8, 0#8, 1#8, 2#8, 3#8])) =
      some (.bytes [1#8, 2#8, 3#8]) := by decide
theorem test_adcWreg_bytes :
    record (adc .idle (.wire [0x43#8, 0x01#8] [0x12#8, 0x34#8]) (replying [0#8, 0#8, 0#8, 0#8])) =
      some [.exchange [0x43#8, 0x01#8, 0x12#8, 0x34#8] (some [0#8, 0#8, 0#8, 0#8])] := by decide
theorem test_bare_bytes :
    [0x06#8, 0x00#8, 0x02#8, 0xFF#8, 0x14#8, 0x16#8].all (fun b =>
      decide (record (adc .conversionPending (.wire [b] []) (replying [0x77#8])) = some [.exchange [b] (some [0x77#8])]) &&
      decide (wireAnswer (adc .conversionPending (.wire [b] []) (replying [0x77#8])) = some (.bytes []))) = true := by decide
theorem test_adcRdata_sample :
    wireAnswer (adc .idle (.wire [0x12#8] []) (replying [0x77#8, 0xFF#8, 0xFF#8, 0xFE#8])) =
      some (.bytes [0xFF#8, 0xFF#8, 0xFE#8]) := by decide
theorem test_magRead_bytes :
    record (mag .idle (.wire [0xA4#8] [0#8, 0#8, 0#8]) (replying [9#8, 0#8, 0#8, 1#8])) =
      some [.exchange [0xA4#8, 0x55#8, 0x55#8, 0x55#8] (some [9#8, 0#8, 0#8, 1#8])] := by decide
theorem test_magWrite_bytes :
    record (mag .idle (.wire [0x04#8] [0x00#8, 0xC8#8]) (replying [0#8, 0#8, 0#8])) =
      some [.exchange [0x04#8, 0x00#8, 0xC8#8] (some [0#8, 0#8, 0#8])] := by decide

/-! Register sub-fields: 95_test_vectors T-FPK. -/

/-- Register E2 of 95_test_vectors. -/
def registerE2 : RegDescriptor :=
  { address := 0, widthBytes := 2, subfields := [⟨12, 4, 0, 15⟩, ⟨8, 3, 0, 5⟩, ⟨0, 8, 0, 255⟩] }

theorem test_fieldPack_ok :
    fieldPack registerE2 0xBEEF [(1, 5)] = .ok 0xBDEF ∧ fieldPack registerE2 0xBEEF [(0, 1), (2, 0)] = .ok 0x1E00 := by decide
theorem test_fieldPack_errors :
    fieldPack registerE2 0xBEEF [(1, 6)] = .error .invalidFieldError ∧
    fieldPack registerE2 0xBEEF [(3, 0), (1, 6)] = .error .invalidFieldError ∧
    fieldPack registerE2 0xBEEF [(1, 5), (3, 0)] = .error .unknownFieldError := by decide

/-- 41_register_fields R100: a field of width 0 has no bit, so it lies inside another's span without overlapping it (log 14); two fields that share bit 4 overlap. -/
theorem test_register_wf :
    ({ address := 0, widthBytes := 1, subfields := [⟨0, 8, 0, 255⟩, ⟨4, 0, 0, 0⟩] } : RegDescriptor).wf = true ∧
    ({ address := 0, widthBytes := 1, subfields := [⟨0, 5, 0, 31⟩, ⟨4, 1, 0, 1⟩] } : RegDescriptor).wf = false := by decide

/-- 95_test_vectors T-RESET: Continuous, start line active. -/
theorem test_reset_drops_the_line :
    record (stateOf .adc .every .continuous none { quiet with rst := true }) = some [.setLevel true, .setLevel false] := by decide

/-! What is presented while a request runs (30_encoding R62, 43_device_mode R140, 70_reset_and_hazards R221) -/

/-- A command presented behind a transaction of the host's own path: both happen. -/
theorem test_command_behind_wire_is_accepted :
    let s := adc .idle (.wire [0xFF#8] []) { replying [9#8] with request := some (cmd 0x8000#16 0#128 0#5) }
    wireAnswer s = some (.bytes []) ∧ (after (step s)).map State.busyO = some true := by decide
/-- Such a transaction presented behind a command waits for it. -/
theorem test_wire_behind_command_is_accepted :
    let s := adc .idle (cmd 0x8000#16 0#128 0#5) { quiet with request := some (.wire [0xFF#8] []) }
    status s = some 0x0#4 ∧ (after (step s)).map State.pending = some (some (.wire [0xFF#8] [])) := by decide

/-! ## Witnesses: for each obligation with hypotheses, concrete inputs that meet them together, one for each clause, at the ends of its ranges -/

theorem exists_next {o : Host.Outcome State Fault Refusal} (h : (after o).isSome = true) : ∃ t, o = .next t := by
  cases o with
  | next t => exact ⟨t, rfl⟩
  | fault e => cases e
  | refused e => cases h

theorem exists_answer {o : Host.Outcome State Fault Refusal} {c : BitVec 4}
    (h : ((after o).bind State.rsp).map Response.st = some c) : ∃ t r, o = .next t ∧ t.rsp = some r ∧ r.st = c := by
  cases o with
  | next t =>
    obtain ⟨r, hr, hc⟩ := Option.map_eq_some_iff.1 h
    exact ⟨t, r, rfl, hr, hc⟩
  | fault e => cases e
  | refused e => cases h

theorem exists_wireError {o : Host.Outcome State Fault Refusal} {e : OpError}
    (h : (after o).bind State.wireRsp = some (.failed e)) : ∃ t, o = .next t ∧ t.wireRsp = some (.failed e) := by
  cases o with
  | next t => exact ⟨t, rfl, h⟩
  | fault e => cases e
  | refused e => cases h

theorem exists_mode {o : Host.Outcome State Fault Refusal} {m : DeviceMode}
    (h : (after o).map State.mode = some m) : ∃ t, o = .next t ∧ t.mode = m := by
  cases o with
  | next t => exact ⟨t, rfl, Option.some.inj h⟩
  | fault e => cases e
  | refused e => cases h

theorem exchangeFails_of_none {s : State} {out : List Byte} (h : s.sample.reply = none) : ExchangeFails s out := by
  intro r hr; rw [h] at hr; cases hr

theorem exchangeFails_of_length {s : State} {out r : List Byte} (h : s.sample.reply = some r)
    (hl : r.length ≠ out.length) : ExchangeFails s out := by
  intro r' hr; rw [h] at hr; cases hr; exact hl

/-- The word or opcode bytes of a request that is running. -/
theorem running_stateOf (fam : Family) (gate : GatePolicy) (m : DeviceMode) (r : Request) (p : InputSample)
    (h1 : p.rst = false) (h2 : p.request = none) : Running (stateOf fam gate m (some r) p) r :=
  ⟨rfl, h1, h2, rfl⟩

/-! Encoding and the step -/

theorem test_witness_decode_of_encode :
    [Instr.decs 255, .encs 0, .decf 255, .rrg 31 127, .wrg 31 127, .adcRreg 15 15, .adcWreg 15 15, .magRead 127,
      .magWrite 127, .stp].all Instr.wf = true := by decide
theorem test_witness_encode_of_decode :
    decode (.command 0xDFFF#16) = .ok (.wrg 31 127) ∧ decode (.wire .adc [0x4F#8, 0x0F#8]) = .ok (.adcWreg 15 15) ∧
    decode (.wire .mag [0x7F#8]) = .ok (.magWrite 127) := by decide
theorem test_witness_reserved_accepted :
    let s := stateOf .adc .every .idle none { quiet with request := some (cmd 0x1118#16 0#128 3#5) }
    s.cfg.admitted = true ∧ s.sample.rst = false ∧ s.pending = none ∧
      s.sample.request = some (.command 0x1118#16 0#128 3#5) := by decide
theorem test_witness_reserved_answered :
    Running (adc .continuous (cmd 0xFFFF#16 0#128 31#5) quiet) (.command 0xFFFF#16 0#128 31#5) ∧
    ∃ e, decodeCommand 0xFFFF#16 = .error e := ⟨⟨rfl, rfl, rfl, rfl⟩, .reservedOperation, by decide⟩
theorem test_witness_step_runs :
    (Running (adc .idle (cmd 0x8000#16 0#128 0#5) quiet) (.command 0x8000#16 0#128 0#5) ∧
      decode ((cmd 0x8000#16 0#128 0#5).image .adc) = .ok .sts) ∧
    (Running (mag .idle (.wire [0x80#8] [0#8]) quiet) (.wire [0x80#8] [0#8]) ∧
      decode ((Request.wire [0x80#8] [0#8]).image .mag) = .ok (.magRead 0)) :=
  ⟨⟨⟨rfl, rfl, rfl, rfl⟩, by decide⟩, ⟨⟨rfl, rfl, rfl, rfl⟩, by decide⟩⟩
theorem test_witness_step_runs_and_accepts :
    let s := adc .idle (.wire [0x12#8] []) { quiet with request := some (cmd 0x8000#16 0#128 0#5) }
    s.cfg.admitted = true ∧ s.sample.rst = false ∧ s.pending = some (.wire [0x12#8] []) ∧
      s.sample.request = some (.command 0x8000#16 0#128 0#5) ∧ (Request.wire [0x12#8] []).isCommand = false ∧
      decode ((Request.wire [0x12#8] []).image s.cfg.fam) = .ok .adcRdata ∧ ∃ t, exec .adcRdata s = .next t :=
  ⟨by decide, by decide, by decide, by decide, by decide, by decide, exists_next (by decide)⟩
theorem test_witness_accepted :
    let s := stateOf .mag .every .continuous none { quiet with request := some (cmd 0xFFFF#16 1#128 31#5) }
    s.cfg.admitted = true ∧ s.sample.rst = false ∧ s.pending = none ∧
      s.sample.request = some (.command 0xFFFF#16 1#128 31#5) := by decide
theorem test_witness_quiet :
    let s := stateOf .mag .every .continuous none quiet
    s.cfg.admitted = true ∧ s.sample.rst = false ∧ s.pending = none ∧ s.sample.request = none := by decide
theorem test_witness_busy :
    let s := adc .idle (cmd 0x8000#16 0#128 0#5) { quiet with request := some (cmd 0x9000#16 0#128 0#5) }
    s.cfg.admitted = true ∧ s.sample.rst = false ∧ s.busyO = true ∧
      s.sample.request = some (.command 0x9000#16 0#128 0#5) := by decide
theorem test_witness_host_path_accepted :
    let s := stateOf .mag .every .continuous none { quiet with request := some (.wire [0x80#8] [0#8]) }
    s.cfg.admitted = true ∧ s.sample.rst = false ∧ s.pending = none ∧
      s.sample.request = some (.wire [0x80#8] [0#8]) := by decide
theorem test_witness_behind_a_running_one :
    (let s := adc .idle (.wire [0xFF#8] []) { quiet with request := some (cmd 0x8000#16 0#128 0#5) }
     s.sample.rst = false ∧ s.pending = some (.wire [0xFF#8] []) ∧ s.sample.request = some (cmd 0x8000#16 0#128 0#5) ∧
       (Request.wire [0xFF#8] []).isCommand = false ∧ ∃ t, step s.unpresented = .next t) ∧
    (let s := adc .idle (cmd 0x8000#16 0#128 0#5) { quiet with request := some (.wire [0x60#8, 0#8] []) }
     s.sample.rst = false ∧ s.pending = some (cmd 0x8000#16 0#128 0#5) ∧ s.sample.request = some (.wire [0x60#8, 0#8] []) ∧
       (Request.wire [0x60#8, 0#8] []).isCommand = false ∧ ∃ t, step s.unpresented = .next t) ∧
    (let s := adc .idle (.wire [] []) { quiet with request := some (cmd 0x8000#16 0#128 0#5) }
     s.sample.rst = false ∧ s.pending = some (.wire [] []) ∧ s.sample.request = some (cmd 0x8000#16 0#128 0#5) ∧
       (Request.wire [] []).isCommand = false ∧ step s.unpresented = .refused .malformedWireOpcode) :=
  ⟨⟨by decide, by decide, by decide, by decide, exists_next (by decide)⟩,
   ⟨by decide, by decide, by decide, by decide, exists_next (by decide)⟩,
   ⟨by decide, by decide, by decide, by decide, rfl⟩⟩
theorem test_witness_lines_absent :
    let s := stateOf .adc .every .idle none quiet
    ({ s with cfg := { s.cfg with lines := ⟨none, some 1, none⟩ } } : State).cfg.lines.startLine = none ∧
    ({ s with cfg := { s.cfg with lines := ⟨some 0, none, none⟩ } } : State).cfg.lines.readyLine = none := ⟨rfl, rfl⟩
theorem test_witness_reset_event :
    let s := adc .continuous (cmd 0x9000#16 0#128 0#5) { quiet with rst := true }
    s.cfg.admitted = true ∧ s.sample.rst = true ∧ s.startLevel = true ∧
      s.pending = some (.command 0x9000#16 0#128 0#5) := by decide
theorem test_witness_reset_event_host_path :
    let s := adc .continuous (.wire [0xFF#8] []) { quiet with rst := true, request := some (cmd 0x9000#16 0#128 0#5) }
    s.cfg.admitted = true ∧ s.sample.rst = true ∧ s.busyO = false ∧ s.pending = some (.wire [0xFF#8] []) := by decide
theorem test_witness_reset_values :
    (stateOf .mag .every .continuous none { quiet with rst := true }).sample.rst = true ∧
    ∃ t, step (stateOf .mag .every .continuous none { quiet with rst := true }) = .next t :=
  ⟨rfl, exists_next (by decide)⟩
theorem test_witness_every_command_answered :
    Running (mag .conversionPending (cmd 0x9000#16 0#128 0#5) (replying [])) (.command 0x9000#16 0#128 0#5) :=
  running_stateOf _ _ _ _ _ rfl rfl
theorem test_witness_record_grows :
    ∃ t, step (adc .continuous (cmd 0x9000#16 0#128 0#5) (replying [1#8, 2#8, 3#8])) = .next t :=
  exists_next (by decide)

/-! Codec and measurement -/

theorem test_witness_decs_ok :
    (adc .idle (cmd 0x1008#16 0x80#128 1#5) quiet).operandBytes.length = 8 / 8 ∧
    (adc .idle (cmd 0x1018#16 0x7F#128 3#5) quiet).operandBytes.length = 24 / 8 := by decide
theorem test_witness_decs_error :
    ¬(12 = 8 ∨ 12 = 16 ∨ 12 = 24) ∧
    ((adc .idle (cmd 0x1018#16 0#128 2#5) quiet).operandLength ≤ 16 ∧
      (adc .idle (cmd 0x1018#16 0#128 2#5) quiet).operandBytes.length ≠ 24 / 8) ∧
    ((adc .idle (cmd 0x1018#16 0#128 16#5) quiet).operandLength ≤ 16 ∧
      (adc .idle (cmd 0x1018#16 0#128 16#5) quiet).operandBytes.length ≠ 24 / 8) := by decide
theorem test_witness_operands_too_long :
    16 < (adc .idle (cmd 0x1018#16 0#128 17#5) quiet).operandLength ∧
    16 < (adc .idle (cmd 0xD7FF#16 0#128 31#5) quiet).operandLength := by decide
theorem test_witness_encs_ok :
    (portLane (adc .idle (cmd 0x2018#16 0xFF800000#128 0#5) quiet).operandPort 0).toInt = -(2 ^ (24 - 1)) ∧
    (portLane (adc .idle (cmd 0x2008#16 0x7F#128 0#5) quiet).operandPort 0).toInt = 2 ^ (8 - 1) - 1 := by decide
theorem test_witness_encs_error :
    2 ^ (24 - 1) - 1 < (portLane (adc .idle (cmd 0x2018#16 0x00800000#128 0#5) quiet).operandPort 0).toInt ∧
    (portLane (adc .idle (cmd 0x2008#16 0xFFFFFF7F#128 0#5) quiet).operandPort 0).toInt < -(2 ^ (8 - 1)) := by decide
theorem test_witness_decf_ok :
    (portLane (adc .idle (cmd 0x3010#16 0x1FFFF8000#128 0#5) quiet).operandPort 0).toInt = -(2 ^ (16 - 1)) ∧
    (portLane (adc .idle (cmd 0x3010#16 0x1FFFF8000#128 0#5) quiet).operandPort 1).toNat = 1 := by decide
theorem test_witness_decf_error :
    (portLane (adc .idle (cmd 0x3018#16 0x5#128 0#5) quiet).operandPort 1).toNat = 0 ∧
    2 ^ (16 - 1) - 1 < (portLane (adc .idle (cmd 0x3010#16 0x100008000#128 0#5) quiet).operandPort 0).toInt := by decide
theorem test_witness_decf_scale : (0 : Int) < 1 ∧ (-1 : Int) < 1 := by decide
theorem test_witness_round_trips :
    ((-(2 ^ (24 - 1)) : Int) ≤ -8388608 ∧ (-8388608 : Int) ≤ 2 ^ (24 - 1) - 1) ∧ (2 ^ (24 - 1) - 1 < (8388608 : Int)) ∧
    [0x80#8, 0x00#8, 0x00#8].length = 24 / 8 := by decide
theorem test_witness_decodeSigned_laws :
    [0xFF#8, 0xFF#8].length = 16 / 8 ∧ ((-(2 ^ (16 - 1)) : Int) ≤ 32767 ∧ (32767 : Int) ≤ 2 ^ (16 - 1) - 1) := by decide
theorem test_witness_pure :
    isPure .cvmag = true ∧ (adc .continuous (cmd 0x5000#16 0#128 10#5) quiet).pending =
      (mag .idle (cmd 0x5000#16 0#128 10#5) (replying [])).pending := by decide
theorem test_witness_gain : [0x80#8, 0x00#8, 0x00#8].length = 3 := by decide
theorem test_witness_port_layout :
    (List.replicate 16 0xFF#8).length ≤ 16 ∧ [1#32, 2#32, 3#32, 0xFFFFFFFF#32].length ≤ 4 ∧
    [1#32, 2#32, 3#32, 0xFFFFFFFF#32][3]? = some 0xFFFFFFFF#32 := by decide
theorem test_witness_cvadc :
    (adc .idle (cmd 0x4000#16 0#128 3#5) quiet).operandBytes.length = 3 ∧
    ((adc .idle (cmd 0x4000#16 0#128 2#5) quiet).operandLength ≤ 16 ∧
      (adc .idle (cmd 0x4000#16 0#128 2#5) quiet).operandBytes.length ≠ 3) := by decide
theorem test_witness_cvmag :
    (adc .idle (cmd 0x5000#16 0#128 10#5) quiet).operandBytes.length = 10 ∧
    ((adc .idle (cmd 0x5000#16 0#128 16#5) quiet).operandLength ≤ 16 ∧
      (adc .idle (cmd 0x5000#16 0#128 16#5) quiet).operandBytes.length ≠ 10) := by decide
theorem test_witness_measurement_laws :
    ((-8388608 : Int) ≤ 8388607 ∧ (8388607 : Int) ≤ 8388607) ∧
    convertMag (0x80#8 :: [0#8, 0#8, 0#8, 0#8, 0#8, 0#8, 0x80#8, 0#8, 0#8]) =
      .ok { x := 0, y := 0, z := 8388608, status := true } ∧
    (8388608 : Int) ∈ [(0 : Int), 0, 8388608] := by decide

/-! The device mode -/

theorem test_witness_sts_stc_stp :
    (adc .idle (cmd 0x8000#16 0#128 0#5) quiet).mode = .idle ∧
    (adc .continuous (cmd 0x8000#16 0#128 0#5) quiet).mode ≠ .idle := by decide
theorem test_witness_rdr_idle_timeout_cancel :
    (adc .idle (cmd 0x9000#16 0#128 0#5) quiet).mode = .idle ∧
    (adc .conversionPending (cmd 0x9000#16 0#128 0#5) { quiet with lineLater := true }).sample.waitOutcome 0 = .timedOut ∧
    (adc .conversionPending (cmd 0x9000#16 1#128 0#5)
      { quiet with cancel := true, cancelFirst := true }).sample.waitOutcome 1 = .cancelled := by decide
theorem test_witness_rdr_pending_fails :
    let s := adc .conversionPending (cmd 0x9000#16 1#128 0#5) { quiet with lineLater := true }
    s.mode = .conversionPending ∧ s.sample.waitOutcome (portLane s.operandPort 0).toNat = .ready ∧
      ExchangeFails s (resultBytes s.cfg s.mode) := ⟨by decide, by decide, exchangeFails_of_none (by decide)⟩
theorem test_witness_rdr_pending_replies :
    (let s := adc .conversionPending (cmd 0x9000#16 0#128 0#5) (replying [0#8, 0x80#8, 0#8, 0#8])
     s.mode = .conversionPending ∧ s.sample.waitOutcome (portLane s.operandPort 0).toNat = .ready ∧
       Replies s (resultBytes s.cfg s.mode) [0#8, 0x80#8, 0#8, 0#8]) ∧
    (let s := mag .conversionPending (cmd 0x9000#16 0#128 0#5) (replying (List.replicate 10 0x80#8))
     s.mode = .conversionPending ∧ s.sample.waitOutcome (portLane s.operandPort 0).toNat = .ready ∧
       Replies s (resultBytes s.cfg s.mode) (List.replicate 10 0x80#8)) := by unfold Replies; decide
theorem test_witness_rdr_continuous :
    (let s := adc .continuous (cmd 0x9000#16 0#128 0#5) (replying [1#8, 2#8, 3#8, 4#8])
     s.mode = .continuous ∧ ExchangeFails s (resultBytes s.cfg s.mode)) ∧
    (let s := adc .continuous (cmd 0x9000#16 0#128 0#5) (replying [1#8, 2#8, 3#8])
     s.mode = .continuous ∧ Replies s (resultBytes s.cfg s.mode) [1#8, 2#8, 3#8]) :=
  ⟨⟨by decide, exchangeFails_of_length (r := [1#8, 2#8, 3#8, 4#8]) (by decide) (by decide)⟩,
   by unfold Replies; decide⟩
theorem test_witness_rrg_operands :
    (0 < 1 ∧ 15 < 16) ∧ lastAddress (adc .idle (cmd 0xC090#16 0#128 0#5) quiet).cfg.fam < 16 ∧
    15 ≤ lastAddress (adc .idle (cmd 0xC78F#16 0#128 0#5) quiet).cfg.fam ∧
    127 ≤ lastAddress (mag .idle (cmd 0xC7FF#16 0#128 0#5) quiet).cfg.fam := by decide
theorem test_witness_rrg_gate_closed :
    gateClosed (adc .conversionPending (cmd 0xC78F#16 0#128 0#5) quiet) { addr := 15, count := 15, dir := .read } := by
  unfold gateClosed; decide
theorem test_witness_rrg_fails :
    let s := stateOf .adc (.listed []) .continuous (some (cmd 0xC081#16 0#128 0#5)) quiet
    ¬gateClosed s { addr := 1, count := 1, dir := .read } ∧ ExchangeFails s (readBytes s.cfg 1 1) :=
  ⟨by unfold gateClosed; decide, exchangeFails_of_none (by decide)⟩
theorem test_witness_rrg_replies :
    let s := mag .idle (cmd 0xC7FF#16 0#128 0#5) (replying (List.replicate 16 7#8))
    ¬gateClosed s { addr := 127, count := 15, dir := .read } ∧ Replies s (readBytes s.cfg 127 15) (List.replicate 16 7#8) := by
  unfold gateClosed Replies; decide
theorem test_witness_wrg_operands :
    (adc .idle (cmd 0xD103#16 0#128 3#5) quiet).operandBytes.length ≠ 2 ∧
    ((adc .idle (cmd 0xD7FF#16 0#128 15#5) quiet).operandBytes.length = 15 ∧
      lastAddress (adc .idle (cmd 0xD7FF#16 0#128 15#5) quiet).cfg.fam < 127) := by decide
theorem test_witness_wrg_gate_closed :
    let s := mag .continuous (cmd 0xD081#16 0x79#128 1#5) quiet
    s.operandBytes.length = 1 ∧ 1 ≤ lastAddress s.cfg.fam ∧ gateClosed s { addr := 1, count := 1, dir := .write } := by
  unfold gateClosed; decide
theorem test_witness_wrg_fails :
    let s := adc .idle (cmd 0xD103#16 0x3412#128 2#5) (replying [0#8])
    s.operandBytes.length = 2 ∧ ¬gateClosed s { addr := 3, count := 2, dir := .write } ∧
      ExchangeFails s (writeBytes s.cfg 3 2 s.operandBytes) :=
  ⟨by decide, by unfold gateClosed; decide, exchangeFails_of_length (r := [0#8]) (by decide) (by decide)⟩
theorem test_witness_wrg_replies :
    let s := adc .idle (cmd 0xD78F#16 0#128 15#5) (replying (List.replicate 17 0#8))
    s.operandBytes.length = 15 ∧ ¬gateClosed s { addr := 15, count := 15, dir := .write } ∧
      Replies s (writeBytes s.cfg 15 15 s.operandBytes) (List.replicate 17 0#8) := by unfold gateClosed Replies; decide
theorem test_witness_transition_illegal :
    transition .continuous .sts = none ∧ transition .idle .rdr = none ∧ transition .conversionPending .stc = none := by decide
theorem test_witness_transition_ok :
    ∃ t, exec .rdr (adc .continuous (cmd 0x9000#16 0#128 0#5) (replying [1#8, 2#8, 3#8])) = .next t ∧ t.succeeded := by
  obtain ⟨t, r, h, hr, hc⟩ := exists_answer (c := 0x0#4)
    (o := exec .rdr (adc .continuous (cmd 0x9000#16 0#128 0#5) (replying [1#8, 2#8, 3#8]))) (by decide)
  exact ⟨t, h, .inl ⟨r, hr, hc⟩⟩
theorem test_witness_mode_moves :
    (∃ t, step (adc .idle (cmd 0x8000#16 0#128 0#5) quiet) = .next t ∧ t.mode = .conversionPending) ∧
    (∃ t, step (stateOf .adc .every .continuous none { quiet with rst := true }) = .next t ∧ t.mode = .idle) :=
  ⟨exists_mode (by decide), exists_mode (by decide)⟩
theorem test_witness_error :
    ∃ t, exec .rdr (adc .conversionPending (cmd 0x9000#16 0#128 0#5) quiet) = .next t ∧ t.failed := by
  obtain ⟨t, r, h, hr, hc⟩ := exists_answer (c := 0x6#4)
    (o := exec .rdr (adc .conversionPending (cmd 0x9000#16 0#128 0#5) quiet)) (by decide)
  exact ⟨t, h, .inl ⟨r, hr, by rw [hc]; decide⟩⟩
theorem test_witness_validation_command :
    (∃ t r, step (adc .idle (cmd 0x100C#16 0#128 0#5) quiet) = .next t ∧ t.rsp = some r ∧ r.st = 0x1#4) ∧
    (∃ t r, step (adc .idle (cmd 0xC000#16 0#128 0#5) quiet) = .next t ∧ t.rsp = some r ∧ r.st = 0x4#4) ∧
    (∃ t r, step (adc .continuous (cmd 0xC081#16 0#128 0#5) quiet) = .next t ∧ t.rsp = some r ∧ r.st = 0x5#4) ∧
    (∃ t r, step (adc .idle (cmd 0x0000#16 0#128 0#5) quiet) = .next t ∧ t.rsp = some r ∧ r.st = 0xF#4) :=
  ⟨exists_answer (by decide), exists_answer (by decide), exists_answer (by decide), exists_answer (by decide)⟩
theorem test_witness_validation_wire :
    (∃ t, step (adc .idle (.wire [0x20#8, 0x0F#8] []) quiet) = .next t ∧ t.wireRsp = some (.failed .countRangeError)) ∧
    (∃ t, step (mag .continuous (.wire [0x81#8] [0#8]) quiet) = .next t ∧ t.wireRsp = some (.failed .illegalStateError)) :=
  ⟨exists_wireError (by decide), exists_wireError (by decide)⟩
theorem test_witness_ways :
    (adc .idle (cmd 0xA000#16 0#128 0#5) quiet).mode = .idle ∧
    (∃ t, exec .stc (adc .idle (cmd 0xA000#16 0#128 0#5) quiet) = .next t ∧ t.mode = .continuous) ∧
    (adc .conversionPending (cmd 0xB000#16 0#128 0#5) quiet).mode ≠ .idle :=
  ⟨by decide, exists_mode (by decide), by decide⟩
theorem test_witness_wait :
    ({ quiet with lineAtStart := true }).cancel = false ∧ ({ quiet with lineAtStart := true }).lineAtStart = true ∧
    quiet.cancel = false ∧ quiet.lineAtStart = false ∧ quiet.waitOutcome 1 = .timedOut ∧
    ({ quiet with cancel := true, cancelFirst := true }).waitOutcome 0 = .cancelled ∧
    ({ quiet with lineLater := true }).waitOutcome 1 = .ready ∧
    (({ quiet with cancel := true }).cancelFirst = false ∧ ({ quiet with cancel := true }).waitOutcome 1 = .timedOut) ∧
    (quiet.cancel = false ∧ quiet.lineAtStart = false ∧ quiet.lineLater = false) := by decide
theorem test_witness_cancel_outside_wait :
    (adc .continuous (cmd 0x9000#16 0#128 0#5) quiet).inputs = quiet :: [] ∧
    ¬(Instr.rdr = .rdr ∧ (adc .continuous (cmd 0x9000#16 0#128 0#5) quiet).mode = .conversionPending) := by decide
theorem test_witness_discarded_rdr :
    let s := adc .conversionPending (cmd 0x9000#16 0#128 0#5) (replying [0x00#8, 1#8, 2#8, 3#8])
    s.inputs = replying [0x00#8, 1#8, 2#8, 3#8] :: [] ∧
    (replying [0x00#8, 1#8, 2#8, 3#8]).reply = some [0x00#8, 1#8, 2#8, 3#8] ∧
    [0xAB#8, 1#8, 2#8, 3#8].length = [0x00#8, 1#8, 2#8, 3#8].length ∧
    [0x00#8, 1#8, 2#8, 3#8].drop (4 - keptBytes s .rdr) = [0xAB#8, 1#8, 2#8, 3#8].drop (4 - keptBytes s .rdr) ∧
    ∃ t, exec .rdr s = .next t :=
  ⟨rfl, rfl, rfl, by decide, exists_next (by decide)⟩
theorem test_witness_discarded_wire :
    (let s := mag .idle (.wire [0xA4#8] [0#8]) (replying [0x00#8, 7#8])
     s.inputs = replying [0x00#8, 7#8] :: [] ∧ keptBytes s (.magRead 0x24) = 1 ∧
       [0x00#8, 7#8].drop (2 - 1) = [0xAB#8, 7#8].drop (2 - 1) ∧ ∃ t, exec (.magRead 0x24) s = .next t) ∧
    (let s := adc .idle (.wire [0xFF#8] []) (replying [0x00#8])
     s.inputs = replying [0x00#8] :: [] ∧ keptBytes s .adcNop = 0 ∧
       [0x00#8].drop (1 - 0) = [0xAB#8].drop (1 - 0) ∧ ∃ t, exec .adcNop s = .next t) :=
  ⟨⟨rfl, by decide, by decide, exists_next (by decide)⟩, ⟨rfl, by decide, by decide, exists_next (by decide)⟩⟩
theorem test_witness_invariant :
    (adc .continuous (cmd 0xB000#16 0#128 0#5) quiet).Inv ∧
    ∃ t, step (adc .continuous (cmd 0xB000#16 0#128 0#5) quiet) = .next t := by
  refine ⟨⟨by unfold State.lineMatchesMode; decide, by unfold State.lineFollows; decide, ?_, ?_, ?_⟩, exists_next (by decide)⟩
  · intro r h; cases h
  · intro h; exact absurd rfl h
  · intro e he
    simp only [adc, stateOf, if_true, List.mem_singleton] at he
    subst he; trivial

/-- STC, RDR, STP from Idle, each with its own input. -/
theorem test_witness_successful_run :
    ∃ s u, SuccessfulRun s [.stc, .rdr, .stp] u ∧ s.mode = .idle ∧ u.mode = .idle := by
  obtain ⟨t1, r1, h1, hr1, hc1⟩ := exists_answer (c := 0x0#4) (o := exec .stc (adc .idle (cmd 0xA000#16 0#128 0#5) quiet)) (by decide)
  obtain ⟨t2, r2, h2, hr2, hc2⟩ := exists_answer (c := 0x0#4)
    (o := exec .rdr (adc .continuous (cmd 0x9000#16 0#128 0#5) (replying [1#8, 2#8, 3#8]))) (by decide)
  obtain ⟨t3, r3, h3, hr3, hc3⟩ := exists_answer (c := 0x0#4) (o := exec .stp (adc .continuous (cmd 0xB000#16 0#128 0#5) quiet)) (by decide)
  obtain ⟨m1, k1, l1⟩ : exec .stc (adc .idle (cmd 0xA000#16 0#128 0#5) quiet) = .next t1 ∧ t1.mode = .continuous ∧ t1.startLevel = true := by
    cases h1; exact ⟨rfl, rfl, rfl⟩
  obtain ⟨m2, k2, l2⟩ : exec .rdr (adc .continuous (cmd 0x9000#16 0#128 0#5) (replying [1#8, 2#8, 3#8])) = .next t2 ∧
      t2.mode = .continuous ∧ t2.startLevel = true := by
    cases h2; exact ⟨rfl, rfl, rfl⟩
  have k3 : t3.mode = .idle := by cases h3; rfl
  exact ⟨_, t3,
    .cons m1 (.inl ⟨r1, hr1, hc1⟩) (t' := adc .continuous (cmd 0x9000#16 0#128 0#5) (replying [1#8, 2#8, 3#8])) k1.symm l1.symm
      (.cons m2 (.inl ⟨r2, hr2, hc2⟩) (t' := adc .continuous (cmd 0xB000#16 0#128 0#5) quiet) k2.symm l2.symm
        (.cons h3 (.inl ⟨r3, hr3, hc3⟩) rfl rfl .nil)), rfl, k3⟩

/-! Builders and wire bytes -/

theorem test_witness_builders_adc :
    (config .adc .every).fam = .adc ∧ (0 < 1 ∧ 15 < 16) ∧ 15 < 16 ∧ [0#8].length ≠ 2 ∧
    (List.replicate 15 0#8).length = 15 := by decide
theorem test_witness_builders_mag :
    (config .mag .every).fam = .mag ∧ (0 < 1 ∧ 15 < 16) ∧ 127 < 128 ∧ [0xC8#8].length ≠ 2 ∧ [0x00#8, 0xC8#8].length = 2 := by decide
theorem test_witness_requests :
    (∃ q, buildReadRegister (config .adc .every) 15 15 = .ok q) ∧
    (∃ q, buildWriteRegister (config .mag .every) 127 1 [0#8] = .ok q) ∧ (config .adc .every).fam = .adc :=
  ⟨⟨_, rfl⟩, ⟨_, rfl⟩, rfl⟩
theorem test_witness_bare_wire :
    (adc .idle (.wire [0xFF#8] []) (replying [1#8])).cfg.fam = .adc ∧
    (Instr.adcNop, 0xFF#8) ∈ [(Instr.adcReset, 0x06#8), (.adcWake, 0x00#8), (.adcSleep, 0x02#8), (.adcNop, 0xFF#8),
      (.adcRdatac, 0x14#8), (.adcSdatac, 0x16#8)] ∧
    Replies (adc .idle (.wire [0xFF#8] []) (replying [1#8])) [0xFF#8] [1#8] ∧
    ExchangeFails (adc .idle (.wire [0xFF#8] []) (replying [1#8, 2#8])) [0xFF#8] :=
  ⟨by decide, by decide, by unfold Replies; decide, exchangeFails_of_length (r := [1#8, 2#8]) (by decide) (by decide)⟩
theorem test_witness_wire_read_data :
    Replies (adc .idle (.wire [0x12#8] []) (replying [0#8, 1#8, 2#8, 3#8])) [0x12#8, 0xFF#8, 0xFF#8, 0xFF#8] [0#8, 1#8, 2#8, 3#8] ∧
    ExchangeFails (adc .idle (.wire [0x12#8] []) quiet) [0x12#8, 0xFF#8, 0xFF#8, 0xFF#8] :=
  ⟨by unfold Replies; decide, exchangeFails_of_none (by decide)⟩
theorem test_witness_wire_reads_refused :
    (Instr.adcRreg 15 15 = .adcRreg 15 (16 - 1) ∧ 15 < 16) ∧
    ((mag .idle (.wire [0xFF#8] []) quiet).wireData.length = 0 ∧ (mag .idle (.wire [0xFF#8] []) quiet).cfg.fam = .mag) ∧
    gateClosed (adc .continuous (.wire [0x2F#8, 0x0E#8] []) quiet) { addr := 15, count := 15, dir := .read } := by
  unfold gateClosed; decide
theorem test_witness_wire_reads_exchanged :
    (let s := adc .idle (.wire [0x2F#8, 0x00#8] []) (replying [0#8, 0#8, 1#8])
     Instr.adcRreg 15 0 = .adcRreg 15 (1 - 1) ∧ ¬gateClosed s { addr := 15, count := 1, dir := .read } ∧
       Replies s (readBytes s.cfg 15 1) [0#8, 0#8, 1#8]) ∧
    (let s := mag .idle (.wire [0xFF#8] [0#8]) quiet
     s.wireData.length = 1 ∧ ¬gateClosed s { addr := 127, count := 1, dir := .read } ∧
       ExchangeFails s (readBytes s.cfg 127 1)) :=
  ⟨by unfold gateClosed Replies; decide, by decide, by unfold gateClosed; decide, exchangeFails_of_none (by decide)⟩
theorem test_witness_wire_writes_refused :
    (Instr.adcWreg 0 15 = .adcWreg 0 (16 - 1) ∧ 15 < 16) ∧
    (1 ≤ 2 ∧ (adc .idle (.wire [0x43#8, 0x01#8] [0x12#8]) quiet).wireData.length ≠ 2) ∧
    ((mag .idle (.wire [0x04#8] []) quiet).wireData.length = 0 ∧ (mag .idle (.wire [0x04#8] []) quiet).cfg.fam = .mag) ∧
    ((mag .continuous (.wire [0x04#8] [1#8]) quiet).wireData.length = 1 ∧
      gateClosed (mag .continuous (.wire [0x04#8] [1#8]) quiet) { addr := 4, count := 1, dir := .write }) := by
  unfold gateClosed; decide
theorem test_witness_wire_writes_exchanged :
    (let s := adc .idle (.wire [0x4F#8, 0x00#8] [7#8]) (replying [0#8, 0#8, 1#8])
     s.wireData.length = 1 ∧ ¬gateClosed s { addr := 15, count := 1, dir := .write } ∧
       Replies s (writeBytes s.cfg 15 1 s.wireData) [0#8, 0#8, 1#8]) ∧
    (let s := mag .idle (.wire [0x7F#8] [0#8]) quiet
     s.wireData.length = 1 ∧ ¬gateClosed s { addr := 127, count := 1, dir := .write } ∧
       ExchangeFails s (writeBytes s.cfg 127 1 s.wireData)) :=
  ⟨by unfold gateClosed Replies; decide, by decide, by unfold gateClosed; decide, exchangeFails_of_none (by decide)⟩
theorem test_witness_other_family :
    encode (.magRead 0) = .wire .mag [0x80#8] ∧ (adc .idle (.wire [0x80#8] []) quiet).cfg.fam ≠ .mag := by decide
theorem test_witness_undecoded :
    Running (adc .idle (.wire [0x01#8] []) (replying [9#8])) (.wire [0x01#8] []) ∧
    (∃ e, decodeWire .adc [0x01#8] = .error e) ∧
    Replies (adc .idle (.wire [0x01#8] []) (replying [9#8])) [0x01#8] [9#8] ∧
    ExchangeFails (adc .idle (.wire [0x01#8] []) quiet) [0x01#8] ∧
    (∃ e, decodeWire .adc [0x60#8, 0x00#8] = .error e) ∧ [0x60#8, 0x00#8].length ≠ 1 ∧
    (∃ e, decodeWire .mag [] = .error e) :=
  ⟨⟨rfl, rfl, rfl, rfl⟩, ⟨.unlistedAdcByte, by decide⟩, by unfold Replies; decide, exchangeFails_of_none (by decide),
   ⟨.malformedOpcode, by decide⟩, by decide, ⟨.malformedOpcode, by decide⟩⟩

/-! Register sub-fields -/

theorem test_witness_fieldPack_refused :
    distinctFields [(1, 6), (3, 0)] ∧ 2 ^ (8 * registerE2.widthBytes) ≤ 0x10000 ∧
    ((1, 6) : FieldUpdate) ∈ [((1, 6) : FieldUpdate), (3, 0)] ∧ 0xFFFF < 2 ^ (8 * registerE2.widthBytes) ∧
    badUpdate registerE2 (1, 6) ∧ (∀ v ∈ [((1, 6) : FieldUpdate), (3, 0)], badUpdate registerE2 v → 1 ≤ v.1) := by
  refine ⟨by unfold distinctFields; decide, by decide, by simp, by decide, ?_, ?_⟩
  · intro f hf; cases hf; decide
  · intro v hv _
    rcases List.mem_cons.1 hv with rfl | hv
    · decide
    · rw [List.mem_singleton.1 hv]; decide
theorem test_witness_fieldPack_written :
    registerE2.wf = true ∧ distinctFields [(1, 5), (0, 15)] ∧ 0xBEEF < 2 ^ (8 * registerE2.widthBytes) ∧
    (∀ u ∈ [((1, 5) : FieldUpdate), (0, 15)], ¬badUpdate registerE2 u) := by
  refine ⟨by decide, by unfold distinctFields; decide, by decide, ?_⟩
  intro u hu hb
  rcases List.mem_cons.1 hu with rfl | hu
  · exact hb ⟨8, 3, 0, 5⟩ rfl (by decide)
  · rw [List.mem_singleton.1 hu] at hb
    exact hb ⟨12, 4, 0, 15⟩ rfl (by decide)
theorem test_witness_fieldPack_other_bits :
    fieldPack registerE2 0xBEEF [(1, 5)] = .ok 0xBDEF ∧
    (∀ u ∈ [((1, 5) : FieldUpdate)], ∀ f, registerE2.subfields[u.1]? = some f → f.spans 11 = false) := by
  refine ⟨by decide, ?_⟩
  intro u hu f hf
  rw [List.mem_singleton.1 hu] at hf
  cases hf; decide

end Sys2Proof.Tests
end

section
/-! ## What a step does with the request in progress (00_scope R14, R18, 70_reset_and_hazards R221) -/

namespace Sys2Proof.Machine

/-- Only a command presented while a command runs overlaps it (70_reset_and_hazards R221). -/
theorem commandsOverlap_some_eq_false_iff {r r' : Request} :
    commandsOverlap r (some r') = false ↔ r.isCommand = false ∨ r'.isCommand = false := by
  simp only [commandsOverlap, Bool.and_eq_false_iff]

/-- A request that decodes runs as `exec` of its instruction. -/
theorem runPending_of_decode {s : State} {r : Request} {i : Instr}
    (hd : decode (r.image s.cfg.fam) = .ok i) : runPending r s = exec i s := by
  simp only [runPending, hd]

/-- Without an overlap of commands, serving a request is running it and taking in what is presented. -/
theorem serve_of_not_commandsOverlap {s : State} {r : Request}
    (ho : commandsOverlap r s.sample.request = false) :
    serve r s = thenAccept s.sample.request (runPending r s) := by
  simp only [serve, ho, Bool.false_eq_true, if_false]

/-- A request that ends while another is presented leaves the presented one in progress. -/
theorem thenAccept_some_next (r' : Request) (t : State) :
    thenAccept (some r') (.next t) = .next { t with pending := some r' } := rfl

/-- Settles O5: a running request is `exec` of its decoded instruction, and a request presented meanwhile,
which does not overlap it, is latched on the state `exec` ends in. -/
theorem stepRunsTheDecodedInstruction : Obligations.StepRunsTheDecodedInstruction := by
  unfold Obligations.StepRunsTheDecodedInstruction
  constructor
  · intro s r i hrun hdec
    rw [step_running hrun, runPending_of_decode hdec]
  · intro s t r r' i hadm hrst hpend hreq hcmd hdec hexec
    have ho : commandsOverlap r s.sample.request = false := by
      rw [hreq]
      exact commandsOverlap_some_eq_false_iff.2 hcmd
    calc step s = serve r s := step_serve hadm hrst hpend
      _ = thenAccept s.sample.request (runPending r s) := serve_of_not_commandsOverlap ho
      _ = thenAccept (some r') (.next t) := by rw [hreq, runPending_of_decode hdec, hexec]
      _ = .next { t with pending := some r' } := thenAccept_some_next r' t

end Sys2Proof.Machine
end

section
/-! ## Reset and the invariant of the block (10_state R23, R24, R33, 42_transactions R120, 60_exceptions R181)

The invariant falls into two parts that move at different times. What an operation does to the mode, the start line
and the record is settled before it is answered (`RecordInv`); what stands on the ports is settled by the answer and
by what is latched behind it (`PortInv`). -/

namespace Sys2Proof.Machine

/-- The part of the invariant about the state registers and the record, which no answer moves. -/
def State.RecordInv (s : State) : Prop := s.lineMatchesMode ∧ s.lineFollows ∧ s.eventsLegal

/-- The part of the invariant about the response port. -/
def State.PortInv (s : State) : Prop := s.statusProduced ∧ s.responseEnds

theorem State.inv_iff {s : State} : s.Inv ↔ s.RecordInv ∧ s.PortInv := by
  constructor
  · rintro ⟨hmode, hline, hstatus, hends, hevents⟩
    exact ⟨⟨hmode, hline, hevents⟩, hstatus, hends⟩
  · rintro ⟨⟨hmode, hline, hevents⟩, hstatus, hends⟩
    exact ⟨hmode, hline, hstatus, hends, hevents⟩

/-! ### The registers and the record -/

theorem State.RecordInv.startLevel_eq_false {s : State} (hs : s.RecordInv) (hm : s.mode ≠ .continuous) :
    s.startLevel = false := by
  obtain ⟨hmode, -, -⟩ := hs
  exact Bool.eq_false_iff.2 fun hl => hm (hmode.1 hl)

/-- Away from Continuous, the register and the mode agree when the line is inactive. -/
theorem State.lineMatchesMode_of_inactive {s : State} (hl : s.startLevel = false) (hm : s.mode ≠ .continuous) :
    s.lineMatchesMode :=
  ⟨fun h => absurd h (by simp [hl]), fun h => absurd h hm⟩

/-- A state that adds legal events to the record has the invariant of the record when its start line is where these
events leave it and agrees with its mode. -/
theorem State.RecordInv.append {s t : State} (hs : s.RecordInv) {evs : List Event} (ht : t.trace = s.trace ++ evs)
    (hlegal : ∀ e ∈ evs, e.legal) (hlevel : evs.foldl lineStep s.startLevel = t.startLevel)
    (hmode : t.lineMatchesMode) : t.RecordInv := by
  obtain ⟨-, hline, hevents⟩ := hs
  refine ⟨hmode, ?_, ?_⟩
  · calc lineLevel t.trace = evs.foldl lineStep (lineLevel s.trace) := by rw [ht, lineLevel, List.foldl_append]; rfl
      _ = t.startLevel := by rw [hline, hlevel]
  · intro e he
    rw [ht] at he
    exact (List.mem_append.1 he).elim (hevents e) (hlegal e)

/-- A legal event that does not move the line. -/
theorem State.RecordInv.emit {s : State} (hs : s.RecordInv) {e : Event} (hlegal : e.legal)
    (hlevel : lineStep s.startLevel e = s.startLevel) : (s.emit e).RecordInv :=
  hs.append (evs := [e]) rfl (by simpa using hlegal) hlevel hs.1

theorem State.RecordInv.wait {s : State} (hs : s.RecordInv) (n tick : Nat) (w : WaitOutcome) :
    (s.emit (.wait n tick w)).RecordInv := hs.emit trivial rfl

theorem State.RecordInv.exchange {s : State} (hs : s.RecordInv) {out : List Byte} {reply : Option (List Byte)}
    (h1 : 1 ≤ out.length) (h2 : out.length ≤ 17) (hr : ∀ r, reply = some r → r.length = out.length) :
    (s.emit (.exchange out reply)).RecordInv := hs.emit ⟨h1, h2, hr⟩ rfl

/-- A transaction of 1 to 17 bytes, whether its exchange succeeds or fails. -/
theorem State.RecordInv.transact {s : State} (hs : s.RecordInv) {q : TransactionRequest}
    (h1 : 1 ≤ q.bytesOut.length) (h2 : q.bytesOut.length ≤ 17) : (s.transact q).1.RecordInv := by
  rcases transact_cases s q with ⟨r, hr, ht⟩ | ⟨-, ht⟩ <;> rw [ht]
  · exact hs.exchange h1 h2 (by simpa using State.acceptedReply_length hr)
  · exact hs.exchange h1 h2 (by simp)

theorem buildBare_bytesOut_length (b : Byte) : (buildBare b).bytesOut.length = 1 := rfl

/-- Only the mode changes, between two modes in which the line is inactive. -/
theorem State.RecordInv.leavePending {s : State} (hs : s.RecordInv) (hm : s.mode = .conversionPending) :
    { s with mode := .idle }.RecordInv :=
  have hl := hs.startLevel_eq_false (by simp [hm])
  hs.append (evs := []) (List.append_nil _).symm (by simp) rfl (State.lineMatchesMode_of_inactive hl (by simp))

/-- Whatever an instruction does to the block keeps the registers and the record in order. -/
theorem Effect.recordInv {i : Instr} {s s' : State} {err : Option OpError} (h : Effect i s s' err)
    (hs : s.RecordInv) : s'.RecordInv := by
  cases h with
  | operandError | illegal | pure => exact hs
  | exchanged h1 h2 hr => exact hs.exchange h1 h2 (by simpa using hr)
  | exchangeFailed h1 h2 => exact hs.exchange h1 h2 (by simp)
  | waitEnded => exact hs.wait _ _ _
  | waitedFailed h1 h2 => exact (hs.wait _ _ _).exchange h1 h2 (by simp)
  | waitedRead h1 h2 hr _ hm => exact ((hs.wait _ _ _).exchange h1 h2 (by simpa using hr)).leavePending hm
  | started => exact hs.append rfl (by simp [Event.legal]) rfl (State.lineMatchesMode_of_inactive rfl (by simp))
  | startedContinuous => exact hs.append rfl (by simp [Event.legal]) rfl ⟨fun _ => rfl, fun _ => rfl⟩
  | stopped => exact hs.append rfl (by simp [Event.legal]) rfl (State.lineMatchesMode_of_inactive rfl (by simp))

/-! ### The response port -/

/-- The code on `st_o` of an operation that ends in the error `err`, or in none. -/
def statusCode (err : Option OpError) : BitVec 4 := (err.map OpError.code).getD okCode

theorem response_st (n : Nat) (o : Except OpError Result) : (response n o).st = statusCode (errorOf o) := by
  cases o <;> rfl

/-- No instruction ends in an error of FPK's. -/
theorem Effect.statusCode_mem {i : Instr} {s s' : State} {err : Option OpError} (h : Effect i s s' err) :
    statusCode err ∈ producedCodes := by
  cases h with
  | operandError he => rcases he with rfl | rfl <;> decide
  | waitEnded _ _ he => rcases he with rfl | rfl <;> decide
  | illegal | pure | exchanged | exchangeFailed | waitedFailed | waitedRead | started | startedContinuous | stopped =>
    decide

/-- With no response on the port there is nothing to hold of it. -/
theorem State.portInv_of_rsp_none {s : State} (h : s.rsp = none) : s.PortInv :=
  ⟨fun r hr => by simp [h] at hr, fun hn => absurd h hn⟩

/-- The request `r`, which leaves the registers and the record as in `s'`, is answered in `t`: a command with a code
the block produces, anything else beside the response port. -/
inductive Answered (r : Request) (s' : State) : State → Prop
  | onPort (hr : r.isCommand = true) (o : Except OpError Result) (ho : statusCode (errorOf o) ∈ producedCodes) :
      Answered r s' (s'.respond o)
  | onHostPath (o : Except OpError (List Byte)) : Answered r s' (s'.respondWire o)

/-- An answer writes no state register and adds nothing to the record. -/
theorem Answered.recordInv {r : Request} {s' t : State} (h : Answered r s' t) (hs : s'.RecordInv) : t.RecordInv := by
  cases h with
  | onPort | onHostPath => exact hs

/-- No command is latched behind a command, so the response that ends one stands on the port alone. -/
theorem Answered.followedBy_portInv {r : Request} {s' t : State} {presented : Option Request} (h : Answered r s' t)
    (hover : commandsOverlap r presented = false) : (t.followedBy presented).PortInv := by
  cases h with
  | onHostPath o => exact State.portInv_of_rsp_none rfl
  | onPort hr o ho =>
    constructor
    · intro a ha
      cases ha
      rwa [response_st]
    · intro _
      refine ⟨?_, rfl⟩
      rw [State.busyO_eq, State.followedBy_pending, State.respond_pending]
      cases presented with
      | none => rfl
      | some r' => simpa [commandsOverlap, hr] using hover

/-! ### What ran is answered -/

/-- An instruction decoded from a request answers that request and keeps the record in order. -/
theorem exec_answered {r : Request} {fam : Family} {i : Instr} {s t : State} (hd : decode (r.image fam) = .ok i)
    (h : exec i s = .next t) (hs : s.RecordInv) : ∃ s', s'.RecordInv ∧ Answered r s' t := by
  obtain ⟨s', err, heff, hend⟩ := exec_effect h
  refine ⟨s', heff.recordInv hs, ?_⟩
  rcases hend with ⟨o, rfl, rfl, hcmd⟩ | ⟨o, rfl, -, -⟩
  · exact .onPort ((encode_of_decode_request hd).1 hcmd) o heff.statusCode_mem
  · exact .onHostPath o

/-- So does a request that is no instruction: it is answered ReservedOp, or sends the one byte of a bare command. -/
theorem execUndecoded_answered {r : Request} {s t : State} (h : execUndecoded r s = .next t) (hs : s.RecordInv) :
    ∃ s', s'.RecordInv ∧ Answered r s' t := by
  rcases execUndecoded_cases h with ⟨hr, rfl⟩ | ⟨-, b, rfl⟩
  · exact ⟨s, hs, .onPort hr _ (by decide)⟩
  · have hlen := buildBare_bytesOut_length b
    exact ⟨_, hs.transact (by omega) (by omega), .onHostPath _⟩

/-! ### Reset -/

theorem step_reset {s t : State} (hr : s.sample.rst = true) (h : step s = .next t) : t = s.resetEvent := by
  rcases step_cases h with ⟨-, ht⟩ | ⟨hf, -⟩ | ⟨_, hf, -⟩ | ⟨_, _, hf, -⟩
  · exact ht
  all_goals exact absurd (hf.symm.trans hr) Bool.false_ne_true

/-- Beside the mark of an abandoned command there is nothing in `abandonEvents`. -/
theorem State.abandonEvents_cases (s : State) : s.abandonEvents = [] ∨ ∃ r, s.abandonEvents = [.abandoned r] := by
  unfold State.abandonEvents
  split
  · exact .inr ⟨_, rfl⟩
  · exact .inl rfl

theorem State.foldl_abandonEvents (s : State) (level : Bool) : s.abandonEvents.foldl lineStep level = level := by
  rcases s.abandonEvents_cases with h | ⟨r, h⟩ <;> rw [h] <;> rfl

/-- The events of the start line at a reset leave it inactive. -/
theorem State.foldl_dropLineEvents (s : State) : s.dropLineEvents.foldl lineStep s.startLevel = false := by
  unfold State.dropLineEvents
  cases s.startLevel <;> rfl

/-- A reset records an abandoned command and the start line going inactive, and nothing else. -/
theorem State.mem_resetEvents {s : State} {e : Event} (he : e ∈ s.abandonEvents ++ s.dropLineEvents) :
    e = .setLevel false ∨ ∃ r, e = .abandoned r := by
  rcases List.mem_append.1 he with he | he
  · rcases s.abandonEvents_cases with h | ⟨r, h⟩ <;> rw [h] at he
    · exact absurd he List.not_mem_nil
    · exact .inr ⟨r, List.mem_singleton.1 he⟩
  · unfold State.dropLineEvents at he
    split at he
    · exact .inl (List.mem_singleton.1 he)
    · exact absurd he List.not_mem_nil

theorem State.resetEvent_trace_eq (s : State) :
    s.resetEvent.trace = s.trace ++ (s.abandonEvents ++ s.dropLineEvents) := List.append_assoc _ _ _

theorem State.RecordInv.resetEvent {s : State} (hs : s.RecordInv) : s.resetEvent.RecordInv := by
  refine hs.append s.resetEvent_trace_eq ?_ ?_ (State.lineMatchesMode_of_inactive rfl (by simp))
  · intro e he
    rcases State.mem_resetEvents he with rfl | ⟨r, rfl⟩ <;> trivial
  · rw [List.foldl_append, s.foldl_abandonEvents, s.foldl_dropLineEvents, State.resetEvent_startLevel]

theorem State.built_inv (c : BlockConfig) : (State.built c).Inv :=
  State.inv_iff.2
    ⟨⟨State.lineMatchesMode_of_inactive rfl (by simp [State.built]), rfl, fun _ he => absurd he List.not_mem_nil⟩,
      State.portInv_of_rsp_none rfl⟩

/-! ### The obligations -/

/-- Settles O43. The four cases of `step_cases`: a reset, an idle step and an acceptance leave the response port empty;
a request that runs is answered, and what is latched behind it is no second command. -/
theorem stepKeepsTheInvariant : Obligations.StepKeepsTheInvariant := by
  unfold Obligations.StepKeepsTheInvariant
  intro s t hinv hstep
  obtain ⟨hs, -⟩ := State.inv_iff.1 hinv
  refine State.inv_iff.2 ?_
  rcases step_cases hstep with ⟨-, rfl⟩ | ⟨-, -, -, rfl⟩ | ⟨r, -, -, -, rfl⟩ | ⟨r, t', -, -, hover, rfl, hrun⟩
  · exact ⟨hs.resetEvent, State.portInv_of_rsp_none rfl⟩
  · exact ⟨hs, State.portInv_of_rsp_none rfl⟩
  · exact ⟨hs, State.portInv_of_rsp_none rfl⟩
  · obtain ⟨s', hs', hans⟩ : ∃ s', s'.RecordInv ∧ Answered r s' t' := by
      rcases hrun with ⟨i, hdec, hexec⟩ | ⟨e, -, hexec⟩
      · exact exec_answered hdec hexec hs
      · exact execUndecoded_answered hexec hs
    exact ⟨hans.recordInv hs', hans.followedBy_portInv hover⟩

/-- Settles O13: what a reset step leaves is `resetEvent`, whose fields and events are known. -/
theorem resetValuesOfEveryInstance : Obligations.ResetValuesOfEveryInstance := by
  unfold Obligations.ResetValuesOfEveryInstance
  refine ⟨fun c => ⟨rfl, rfl, rfl, rfl⟩, rfl, ?_⟩
  intro s t hr hstep
  rw [step_reset hr hstep]
  exact ⟨rfl, rfl, s.resetEvent_busyO, rfl, _, s.resetEvent_trace_eq, fun e he => State.mem_resetEvents he⟩

/-- Settles O44: right after reset the line is inactive in Idle, the record is empty and no response stands. -/
theorem resetMeetsTheInvariant : Obligations.ResetMeetsTheInvariant := by
  unfold Obligations.ResetMeetsTheInvariant
  exact ⟨State.built_inv, State.built_inv _⟩

end Sys2Proof.Machine
end

section
/-! ## The record of events and the configuration (10_state R25, 20_memory R51, R52, 70_reset_and_hazards R230) -/

namespace Sys2Proof.Machine

/-- An exchange with the device, as against a line movement, a wait or the mark of a reset. -/
def Event.isExchange : Event → Bool
  | .exchange _ _ => true
  | _             => false

/-- `t` has the configuration of `s`, and its record is that of `s` with more events behind it, at most one of them an
exchange. -/
def State.Continues (s t : State) : Prop :=
  t.cfg = s.cfg ∧ ∃ evs, t.trace = s.trace ++ evs ∧ (evs.filter Event.isExchange).length ≤ 1

/-- A state with the same configuration and record. -/
theorem State.continues_of_same {s t : State} (hcfg : t.cfg = s.cfg) (htrace : t.trace = s.trace) : s.Continues t :=
  ⟨hcfg, [], by simp [htrace], by simp⟩

/-- Only the configuration and the record matter of the state that continues another. -/
theorem State.Continues.congr {s s' t : State} (h : s.Continues s') (hcfg : t.cfg = s'.cfg)
    (htrace : t.trace = s'.trace) : s.Continues t := by
  obtain ⟨hc, evs, ht, hlen⟩ := h
  exact ⟨hcfg.trans hc, evs, htrace.trans ht, hlen⟩

/-- One event more, an exchange or any other. -/
theorem State.continues_emit (s : State) (e : Event) : s.Continues (s.emit e) :=
  ⟨rfl, [e], rfl, List.length_filter_le _ _⟩

/-- An event that is no exchange, and one event more after it. -/
theorem State.continues_emit_emit (s : State) {e : Event} (he : e.isExchange = false) (e' : Event) :
    s.Continues ((s.emit e).emit e') := by
  refine ⟨rfl, [e, e'], by simp, ?_⟩
  rw [List.filter_cons_of_neg (by simp [he])]
  exact List.length_filter_le _ [e']

/-- A transaction is one exchange, whether it succeeds or fails. -/
theorem State.continues_transact (s : State) (q : TransactionRequest) : s.Continues (s.transact q).1 :=
  s.continues_emit _

/-- A reset keeps the configuration and records no exchange. -/
theorem State.continues_resetEvent (s : State) : s.Continues s.resetEvent := by
  refine ⟨rfl, _, s.resetEvent_trace_eq, ?_⟩
  have hnone : (s.abandonEvents ++ s.dropLineEvents).filter Event.isExchange = [] := by
    refine List.filter_eq_nil_iff.2 fun e he => ?_
    rcases State.mem_resetEvents he with rfl | ⟨r, rfl⟩ <;> exact Bool.false_ne_true
  simp [hnone]

/-- Whatever an instruction does to the block is at most one event, or a wait and one exchange after it. -/
theorem Effect.continues {i : Instr} {s s' : State} {err : Option OpError} (h : Effect i s s' err) :
    s.Continues s' := by
  cases h with
  | operandError | illegal | pure => exact State.continues_of_same rfl rfl
  | exchanged | exchangeFailed | waitEnded => exact s.continues_emit _
  | waitedFailed => exact s.continues_emit_emit rfl _
  | waitedRead => exact (s.continues_emit_emit rfl _).congr rfl rfl
  | started => exact (s.continues_emit (.pulse s.cfg.startPulse)).congr rfl rfl
  | startedContinuous => exact (s.continues_emit (.setLevel true)).congr rfl rfl
  | stopped => exact (s.continues_emit (.setLevel false)).congr rfl rfl

/-- The answer of an instruction adds nothing to what its effect put in the record. -/
theorem exec_continues {i : Instr} {s t : State} (h : exec i s = .next t) : s.Continues t := by
  obtain ⟨s', err, heff, hend⟩ := exec_effect h
  obtain ⟨hcfg, -, -, htrace, -⟩ := hend.fields
  exact heff.continues.congr hcfg htrace

/-- A request that is no instruction sends nothing, or the one byte of a bare command. -/
theorem execUndecoded_continues {r : Request} {s t : State} (h : execUndecoded r s = .next t) : s.Continues t := by
  rcases execUndecoded_cases h with ⟨-, rfl⟩ | ⟨-, b, rfl⟩
  · exact State.continues_of_same rfl rfl
  · exact (s.continues_transact (buildBare b)).congr rfl rfl

/-- The four cases of `step_cases`: only a reset and the request that runs record anything, and what is latched behind
the request that runs records nothing. -/
theorem step_continues {s t : State} (h : step s = .next t) : s.Continues t := by
  rcases step_cases h with ⟨-, rfl⟩ | ⟨-, -, -, rfl⟩ | ⟨r, -, -, -, rfl⟩ | ⟨r, t', -, -, -, rfl, hrun⟩
  · exact s.continues_resetEvent
  · exact State.continues_of_same s.idleStep_cfg s.idleStep_trace
  · exact State.continues_of_same (s.accept_cfg r) (s.accept_trace r)
  · have ht' : s.Continues t' := by
      rcases hrun with ⟨i, -, hexec⟩ | ⟨e, -, hexec⟩
      · exact exec_continues hexec
      · exact execUndecoded_continues hexec
    exact ht'.congr (t'.followedBy_cfg _) (t'.followedBy_trace _)

/-- Settles O15: a step to a next state continues the state it starts from. -/
theorem recordOnlyGrowsAndConfigurationStays : Obligations.RecordOnlyGrowsAndConfigurationStays := by
  unfold Obligations.RecordOnlyGrowsAndConfigurationStays
  intro s t hstep
  exact step_continues hstep

end Sys2Proof.Machine
end

section
/-! ## Acceptance and reserved words (30_encoding R62, R67, 10_state R28) -/

namespace Sys2Proof.Machine

/-- With nothing in progress and no reset, what is presented is accepted. -/
theorem step_accept {s : State} {r : Request} (hadm : s.cfg.admitted = true) (hrst : s.sample.rst = false)
    (hpend : s.pending = none) (hreq : s.sample.request = some r) : step s = .next (s.accept r) := by
  simp [step, hadm, admittedStep, hrst, hpend, hreq]

/-- Acceptance writes no state register and records nothing. -/
theorem State.accept_untouched (s : State) (r : Request) : Untouched s (s.accept r) := ⟨rfl, rfl, rfl⟩

/-- An error given as the response touches nothing (60_exceptions R190). -/
theorem State.respond_error (s : State) (e : OpError) :
    AnswersError s (s.respond (.error e)) e ∧ Untouched s (s.respond (.error e)) :=
  ⟨⟨_, ⟨rfl, rfl, rfl, rfl, rfl, rfl⟩, rfl⟩, rfl, rfl, rfl⟩

/-- A format K word is refused for its reserved bits alone. -/
theorem formatK_error_iff {v : Nat} {mk : Nat → Instr} : (∃ e, formatK v mk = .error e) ↔ bits v 11 8 ≠ 0 := by
  unfold formatK
  split <;> simp [*]

/-- A format M word is refused for its reserved bits alone. -/
theorem formatM_error_iff {v : Nat} {i : Instr} : (∃ e, formatM v i = .error e) ↔ bits v 11 0 ≠ 0 := by
  unfold formatM
  split <;> simp [*]

/-- A format R word has no reserved bits. -/
theorem formatR_not_error {v : Nat} {mk : Nat → Nat → Instr} : ¬∃ e, formatR v mk = .error e := by
  simp [formatR]

/-- The reserved command words, by the sixteen values of `op` (30_encoding R66, R67). -/
theorem decodeCommand_error_iff (cw : CommandWord) : (∃ e, decodeCommand cw = .error e) ↔
    (bits cw.toNat 15 12 ∈ [0x0, 0x6, 0x7, 0xE, 0xF] ∨
     (bits cw.toNat 15 12 ∈ [0x1, 0x2, 0x3] ∧ bits cw.toNat 11 8 ≠ 0) ∨
     (bits cw.toNat 15 12 ∈ [0x4, 0x5, 0x8, 0x9, 0xA, 0xB] ∧ bits cw.toNat 11 0 ≠ 0)) := by
  have hop : bits cw.toNat 15 12 < 16 := Nat.mod_lt _ (by decide)
  unfold decodeCommand
  generalize bits cw.toNat 15 12 = op at hop ⊢
  interval_cases op <;> simp [formatK_error_iff, formatM_error_iff, formatR_not_error]

/-- A command that is no instruction is answered ReservedOp (30_encoding R67). -/
theorem runPending_reserved {s : State} {cw : CommandWord} {opd : PortWord} {n : BitVec 5}
    (hres : ∃ e, decodeCommand cw = .error e) :
    runPending (.command cw opd n) s = .next (s.respond (.error .reservedOp)) := by
  obtain ⟨e, he⟩ := hres
  simp only [runPending, Request.image, decode, he, execUndecoded]

/-- Settles O4: `decodeCommand_error_iff`, acceptance, and the answer of `execUndecoded`. -/
theorem reservedWordsAnswerReservedOp : Obligations.ReservedWordsAnswerReservedOp := by
  unfold Obligations.ReservedWordsAnswerReservedOp
  refine ⟨decodeCommand_error_iff, ?_, ?_⟩
  · intro s cw opd n hadm hrst hpend hreq
    exact ⟨_, step_accept hadm hrst hpend hreq, rfl, s.accept_untouched _⟩
  · intro s cw opd n hrun hres
    exact ⟨_, (step_running hrun).trans (runPending_reserved hres), s.respond_error .reservedOp⟩

/-- Settles O6: a step that accepts leaves `accept` of the command. -/
theorem commandIsAcceptedWhenNotBusy : Obligations.CommandIsAcceptedWhenNotBusy := by
  unfold Obligations.CommandIsAcceptedWhenNotBusy
  intro s cw opd n hadm hrst hpend hreq
  exact ⟨_, step_accept hadm hrst hpend hreq, rfl, rfl, rfl, rfl, rfl, rfl, s.accept_untouched _⟩

end Sys2Proof.Machine
end

section
/-! ## A request presented while another runs (30_encoding R62, 43_device_mode R140, 20_memory R51)

What runs does not see what is presented: every operation commutes with `unpresented`, and the answer, which uses up
the input sample, takes the difference away. -/

namespace Sys2Proof.Machine

/-- Only the presented request is gone from the sample. -/
theorem State.unpresented_sample (s : State) : s.unpresented.sample = { s.sample with request := none } := by
  unfold State.sample State.unpresented
  cases s.inputs <;> rfl

/-- The end of a step uses up the sample in which the two states differ. -/
theorem State.unpresented_consume (s : State) : s.unpresented.consume = s.consume := by
  unfold State.consume State.unpresented
  cases s.inputs <;> rfl

theorem State.unpresented_respond (s : State) (o : Except OpError Result) :
    s.unpresented.respond o = s.respond o := by
  unfold State.respond
  rw [s.unpresented_consume]
  rfl

theorem State.unpresented_respondWire (s : State) (o : Except OpError (List Byte)) :
    s.unpresented.respondWire o = s.respondWire o := by
  unfold State.respondWire
  rw [s.unpresented_consume]

theorem State.unpresented_acceptedReply (s : State) (n : Nat) :
    s.unpresented.acceptedReply n = s.acceptedReply n := by
  unfold State.acceptedReply
  rw [s.unpresented_sample]

theorem State.unpresented_transact (s : State) (q : TransactionRequest) :
    s.unpresented.transact q = (s.transact q).map State.unpresented id := by
  unfold State.transact
  rw [s.unpresented_acceptedReply]
  rfl

theorem State.unpresented_gatedAccess (s : State) (a : Access) (built : Except OpError TransactionRequest) :
    s.unpresented.gatedAccess a built = (s.gatedAccess a built).map State.unpresented id := by
  have hgate : s.unpresented.gateRefuses a = s.gateRefuses a := rfl
  cases built with
  | error e => rfl
  | ok q =>
    simp only [State.gatedAccess, hgate]
    split
    · rfl
    · exact s.unpresented_transact q

theorem State.unpresented_registerRead (s : State) (addr count : Nat) :
    s.unpresented.registerRead addr count = (s.registerRead addr count).map State.unpresented id :=
  s.unpresented_gatedAccess _ _

theorem State.unpresented_registerWrite (s : State) (addr count : Nat) (data : List Byte) :
    s.unpresented.registerWrite addr count data = (s.registerWrite addr count data).map State.unpresented id :=
  s.unpresented_gatedAccess _ _

theorem State.unpresented_readSample (s : State) :
    s.unpresented.readSample = s.readSample.map State.unpresented id := by
  have hq : resultTxn s.unpresented.cfg s.unpresented.mode = resultTxn s.cfg s.mode := rfl
  unfold State.readSample
  rw [hq, s.unpresented_transact]
  rcases transact_cases s (resultTxn s.cfg s.mode) with ⟨r, -, ht⟩ | ⟨-, ht⟩ <;> rw [ht] <;> rfl

theorem State.unpresented_readPending (s : State) :
    s.unpresented.readPending = s.readPending.map State.unpresented id := by
  unfold State.readPending
  rw [s.unpresented_readSample]
  rcases readSample_cases s with ⟨r, res, -, -, h⟩ | ⟨-, h⟩ <;> rw [h] <;> rfl

theorem State.unpresented_readResult (s : State) (t : Nat) :
    s.unpresented.readResult t = (s.readResult t).map State.unpresented id := by
  have hmode : s.unpresented.mode = s.mode := rfl
  have hwait : s.unpresented.sample.waitOutcome t = s.sample.waitOutcome t := by rw [s.unpresented_sample]; rfl
  cases hm : s.mode with
  | idle => simp only [State.readResult, hmode, hm]; rfl
  | continuous => simp only [State.readResult, hmode, hm]; exact s.unpresented_readSample
  | conversionPending =>
    simp only [State.readResult, hmode, hm, State.waitReady, hwait]
    cases s.sample.waitOutcome t with
    | timedOut | cancelled => rfl
    | ready => exact (s.emit _).unpresented_readPending

theorem State.unpresented_startSingle (s : State) :
    s.unpresented.startSingle = s.startSingle.map State.unpresented id := by
  have hmode : s.unpresented.mode = s.mode := rfl
  cases hm : s.mode <;> simp only [State.startSingle, hmode, hm] <;> rfl

theorem State.unpresented_startContinuous (s : State) :
    s.unpresented.startContinuous = s.startContinuous.map State.unpresented id := by
  have hmode : s.unpresented.mode = s.mode := rfl
  cases hm : s.mode <;> simp only [State.startContinuous, hmode, hm] <;> rfl

theorem State.unpresented_stopConversion (s : State) :
    s.unpresented.stopConversion = s.stopConversion.map State.unpresented id := by
  have hmode : s.unpresented.mode = s.mode := rfl
  cases hm : s.mode <;> simp only [State.stopConversion, hmode, hm] <;> rfl

/-- The answer of an operation of the command port that commutes with `unpresented`; `f` makes its result one for
the port. -/
theorem next_respond_of_map_unpresented {α : Type} {run run' : State × Except OpError α}
    (f : Except OpError α → Except OpError Result) (h : run' = run.map State.unpresented id) :
    (.next (run'.1.respond (f run'.2)) : Host.Outcome State Fault Refusal) = .next (run.1.respond (f run.2)) := by
  rw [h]
  exact congrArg Host.Outcome.next (run.1.unpresented_respond (f run.2))

/-- The answer of a transaction of the host's own path that commutes with `unpresented`. -/
theorem onFamily_of_map_unpresented {fam : Family} {s : State} {run run' : State × Except OpError (List Byte)}
    (h : run' = run.map State.unpresented id) : onFamily fam s.unpresented run' = onFamily fam s run := by
  have hend : run'.1.respondWire run'.2 = run.1.respondWire run.2 := by
    rw [h]
    exact run.1.unpresented_respondWire run.2
  have hcfg : s.unpresented.cfg = s.cfg := rfl
  simp only [onFamily, hend, hcfg]

theorem adcBare_unpresented (b : Byte) (s : State) : adcBare b s.unpresented = adcBare b s :=
  onFamily_of_map_unpresented (s.unpresented_transact _)

/-- No instruction sees what is presented while it runs. -/
theorem exec_unpresented (i : Instr) (s : State) : exec i s.unpresented = exec i s := by
  cases i with
  | decs w | encs w | decf w | cvadc | cvmag => exact congrArg Host.Outcome.next (s.unpresented_respond _)
  | sts => exact next_respond_of_map_unpresented id s.unpresented_startSingle
  | rdr => exact next_respond_of_map_unpresented id (s.unpresented_readResult _)
  | stc => exact next_respond_of_map_unpresented id s.unpresented_startContinuous
  | stp => exact next_respond_of_map_unpresented id s.unpresented_stopConversion
  | rrg c a => exact next_respond_of_map_unpresented (Except.map .bytes) (s.unpresented_registerRead a c)
  | wrg c a =>
    exact next_respond_of_map_unpresented (Except.map fun _ => .none) (s.unpresented_registerWrite a c s.operandBytes)
  | adcRreg a n | magRead a => exact onFamily_of_map_unpresented (s.unpresented_registerRead _ _)
  | adcWreg a n | magWrite a => exact onFamily_of_map_unpresented (s.unpresented_registerWrite _ _ _)
  | adcRdata => exact onFamily_of_map_unpresented (s.unpresented_transact _)
  | adcReset | adcWake | adcSleep | adcNop | adcRdatac | adcSdatac => exact adcBare_unpresented _ s

theorem execUndecoded_unpresented (r : Request) (s : State) :
    execUndecoded r s.unpresented = execUndecoded r s := by
  unfold execUndecoded
  split
  · exact congrArg Host.Outcome.next (s.unpresented_respond _)
  · exact adcBare_unpresented _ s
  · rfl

theorem runPending_unpresented (r : Request) (s : State) : runPending r s.unpresented = runPending r s := by
  have hcfg : s.unpresented.cfg = s.cfg := rfl
  unfold runPending
  rw [hcfg]
  split
  · exact exec_unpresented _ s
  · exact execUndecoded_unpresented r s

/-- A step with a request presented behind the running one is the step without it, and then acceptance. -/
theorem step_eq_thenAccept_unpresented {s : State} {r r' : Request} (hrst : s.sample.rst = false)
    (hpend : s.pending = some r) (hreq : s.sample.request = some r')
    (hcmd : r.isCommand = false ∨ r'.isCommand = false) :
    step s = thenAccept (some r') (step s.unpresented) := by
  have hcfg : s.unpresented.cfg = s.cfg := rfl
  cases hadm : s.cfg.admitted with
  | false => simp [step, hcfg, hadm, thenAccept]
  | true =>
    have hrun : Running s.unpresented r := ⟨hadm, by rw [s.unpresented_sample]; exact hrst,
      by rw [s.unpresented_sample], hpend⟩
    have hover : commandsOverlap r s.sample.request = false := by
      rw [hreq]
      exact commandsOverlap_some_eq_false_iff.2 hcmd
    calc step s = serve r s := step_serve hadm hrst hpend
      _ = thenAccept (some r') (runPending r s) := by rw [serve_of_not_commandsOverlap hover, hreq]
      _ = thenAccept (some r') (step s.unpresented) := by rw [step_running hrun, runPending_unpresented]

/-- Settles O10: acceptance after the step without the presented request, by what that step gives. -/
theorem requestBehindARunningOneIsAccepted : Obligations.RequestBehindARunningOneIsAccepted := by
  unfold Obligations.RequestBehindARunningOneIsAccepted
  intro s r r' hrst hpend hreq hcmd
  have hstep := step_eq_thenAccept_unpresented hrst hpend hreq hcmd
  constructor
  · intro t ht
    rw [hstep, ht, thenAccept_some_next]
  · intro e he
    rw [hstep, he, thenAccept]

end Sys2Proof.Machine
end

section
/-! ## The operand and result ports (30_encoding R62 to R64) -/

namespace Sys2Proof.Machine

/-- Settles O23: reading back what is laid out, and the bound of the value laid out. -/
theorem portLayoutReadsBack : Obligations.PortLayoutReadsBack := by
  unfold Obligations.PortLayoutReadsBack
  constructor
  · intro b hb
    refine ⟨portBytes_packBytes hb, ?_⟩
    rw [packBytes_toNat hb]
    exact packNat_lt b
  · intro l hl
    refine ⟨?_, fun k x hx => portLane_packLanes hl hx⟩
    rw [packLanes_toNat hl]
    exact packLanesNat_lt l

/-- The byte-sequence operand is as long as the latched length says, also beyond the port (log 13). -/
theorem State.operandBytes_length (s : State) : s.operandBytes.length = s.operandLength := by
  simp [State.operandBytes, portBytes]

theorem convertAdc_wrongLength {b : List Byte} (h : b.length ≠ 3) : convertAdc b = .error .rangeError := by
  simp [convertAdc, Params.adcSampleBytes, h]

theorem convertMag_wrongLength {b : List Byte} (h : b.length ≠ 10) : convertMag b = .error .rangeError := by
  simp [convertMag, Params.magFrameBytes, h]

/-- DECS refuses a width that is not legal and a sequence of another length than the width's (40_codec R82). -/
theorem decodeSigned_refuses {w : Nat} {b : List Byte} (h : ¬(w = 8 ∨ w = 16 ∨ w = 24) ∨ b.length ≠ w / 8) :
    decodeSigned w b = .error .rangeError := by
  by_cases hw : w = 8 ∨ w = 16 ∨ w = 24
  · simp [decodeSigned, h.resolve_left (not_not.2 hw)]
  · simp [decodeSigned, Bool.eq_false_iff.2 (mt widthLegal_iff.1 hw)]

/-- A register write that the builder refuses for its count touches nothing (43_device_mode R137). -/
theorem State.registerWrite_count {s : State} {addr count : Nat} {data : List Byte}
    (h : count < 1 ∨ 15 < count ∨ data.length ≠ count) :
    s.registerWrite addr count data = (s, .error .countRangeError) := by
  rw [State.registerWrite, buildWriteRegister_count h, State.gatedAccess]

/-- Settles O26: no operation takes as many bytes as 17, so each refuses the operand for its length. -/
theorem operandsLongerThanThePortAreRefused : Obligations.OperandsLongerThanThePortAreRefused := by
  unfold Obligations.OperandsLongerThanThePortAreRefused
  intro s hlong
  rw [← s.operandBytes_length] at hlong
  refine ⟨?_, ?_, ?_⟩
  · intro i hi
    refine ⟨s.respond (.error .rangeError), ?_, s.respond_error .rangeError⟩
    rcases List.mem_pair.1 hi with rfl | rfl
    · simp only [exec, execCvadc, convertAdc_wrongLength (b := s.operandBytes) (by omega), Except.map]
    · simp only [exec, execCvmag, convertMag_wrongLength (b := s.operandBytes) (by omega), Except.map]
  · intro w
    refine ⟨s.respond (.error .rangeError), ?_, s.respond_error .rangeError⟩
    simp only [exec, execDecs, decodeSigned_refuses (w := w) (b := s.operandBytes) (by omega), Except.map]
  · intro cnt addr
    refine ⟨s.respond (.error .countRangeError), ?_, s.respond_error .countRangeError⟩
    simp only [exec, execWrg,
      State.registerWrite_count (addr := addr) (count := cnt) (data := s.operandBytes) (by omega), Except.map]

end Sys2Proof.Machine
end

section
/-! ## The host's own path (30_encoding R68 to R71, 42_transactions R112 to R118, 43_device_mode R139, R140) -/

namespace Sys2Proof.Machine

/-- The state in which a run of the host's own path ends. -/
def wireEnd (run : State × Except OpError (List Byte)) : State := run.1.respondWire run.2

/-- On a block of its family a wire row ends in the state `wireEnd` of its run. -/
theorem onFamily_eq_wireEnd {fam : Family} {s : State} {run : State × Except OpError (List Byte)}
    (h : s.cfg.fam = fam) : onFamily fam s run = .next (wireEnd run) := by
  simp only [onFamily, h, if_true, wireEnd]

/-- An error before any exchange touches nothing. -/
theorem wireEnd_error (s : State) (e : OpError) :
    ReturnsError s (wireEnd (s, .error e)) e ∧ Untouched s (wireEnd (s, .error e)) :=
  ⟨⟨rfl, rfl, rfl, rfl, rfl, rfl⟩, rfl, rfl, rfl⟩

/-- A transaction whose exchange succeeds returns what its request keeps of the reply (42_transactions R110). -/
theorem wireEnd_transact_ok {s : State} {q : TransactionRequest} {reply : List Byte}
    (h : Replies s q.bytesOut reply) :
    Returns s (wireEnd (s.transact q)) (q.response reply) ∧
      OnlyEvents s (wireEnd (s.transact q)) [.exchange q.bytesOut (some reply)] := by
  rw [State.transact_ok (State.acceptedReply_eq_some.2 h)]
  exact ⟨⟨rfl, rfl, rfl, rfl, rfl, rfl⟩, rfl, rfl, rfl⟩

/-- A transaction whose exchange fails is TransportError (60_exceptions R188). -/
theorem wireEnd_transact_fails {s : State} {q : TransactionRequest} (h : ExchangeFails s q.bytesOut) :
    ReturnsError s (wireEnd (s.transact q)) .transportError ∧
      OnlyEvents s (wireEnd (s.transact q)) [.exchange q.bytesOut none] := by
  rw [State.transact_fails (State.acceptedReply_eq_none.2 h)]
  exact ⟨⟨rfl, rfl, rfl, rfl, rfl, rfl⟩, rfl, rfl, rfl⟩

/-- A request with no response length keeps nothing of the reply. -/
theorem response_eq_nil {q : TransactionRequest} (h : q.responseLength = 0) (reply : List Byte) :
    q.response reply = [] := by
  simp [TransactionRequest.response, h]

/-! ### The ADC's bare commands and its read-data poll -/

/-- The six bare rows of the ADC run as the bare command of their byte (30_encoding R70). -/
theorem exec_bareRow {i : Instr} {b : Byte} (h : (i, b) ∈ [(Instr.adcReset, 0x06#8), (.adcWake, 0x00#8),
    (.adcSleep, 0x02#8), (.adcNop, 0xFF#8), (.adcRdatac, 0x14#8), (.adcSdatac, 0x16#8)]) (s : State) :
    exec i s = onFamily .adc s (s.transact (buildBare b)) := by
  simp only [List.mem_cons, List.not_mem_nil, or_false, Prod.mk.injEq] at h
  rcases h with ⟨rfl, rfl⟩ | ⟨rfl, rfl⟩ | ⟨rfl, rfl⟩ | ⟨rfl, rfl⟩ | ⟨rfl, rfl⟩ | ⟨rfl, rfl⟩ <;> rfl

/-- Settles O51: each of the six rows is the transaction of `buildBare`, which keeps nothing of the reply. -/
theorem bareWireCommandsSendTheirByte : Obligations.BareWireCommandsSendTheirByte := by
  unfold Obligations.BareWireCommandsSendTheirByte
  intro s i b hfam hrow
  have hexec : exec i s = .next (wireEnd (s.transact (buildBare b))) :=
    (exec_bareRow hrow s).trans (onFamily_eq_wireEnd hfam)
  constructor
  · intro reply hreply
    have hend := wireEnd_transact_ok (q := buildBare b) hreply
    rw [response_eq_nil rfl] at hend
    exact ⟨_, hexec, hend⟩
  · intro hfail
    exact ⟨_, hexec, wireEnd_transact_fails (q := buildBare b) hfail⟩

/-- Settles O52: ADC.RDATA is the transaction of `buildRdataPoll`, which keeps the last three of four bytes. -/
theorem wireReadDataReturnsTheSample : Obligations.WireReadDataReturnsTheSample := by
  unfold Obligations.WireReadDataReturnsTheSample
  intro s hfam
  have hexec : exec .adcRdata s = .next (wireEnd (s.transact buildRdataPoll)) := onFamily_eq_wireEnd hfam
  constructor
  · intro b0 b1 b2 b3 hreply
    exact ⟨_, hexec, wireEnd_transact_ok (q := buildRdataPoll) hreply⟩
  · intro hfail
    exact ⟨_, hexec, wireEnd_transact_fails (q := buildRdataPoll) hfail⟩

/-! ### The register accesses -/

/-- A register read that the builder refuses for its count touches nothing (43_device_mode R136). -/
theorem State.registerRead_count {s : State} {addr count : Nat} (h : count < 1 ∨ 15 < count) :
    s.registerRead addr count = (s, .error .countRangeError) := by
  rw [State.registerRead, buildReadRegister_count h, State.gatedAccess]

/-- What `x`, a register access of `s` inside its domains, comes to: the gate first, then the exchange of `out`, of
whose reply it returns `kept` (43_device_mode R139, 42_transactions R110). -/
structure RunsAccess (x : Host.Outcome State Fault Refusal) (s : State) (a : Access) (out : List Byte)
    (kept : List Byte → List Byte) : Prop where
  closed : gateClosed s a → ∃ t, x = .next t ∧ ReturnsError s t .illegalStateError ∧ Untouched s t
  fails : ¬gateClosed s a → ExchangeFails s out →
    ∃ t, x = .next t ∧ ReturnsError s t .transportError ∧ OnlyEvents s t [.exchange out none]
  returns : ∀ reply, ¬gateClosed s a → Replies s out reply →
    ∃ t, x = .next t ∧ Returns s t (kept reply) ∧ OnlyEvents s t [.exchange out (some reply)]

theorem runsAccess_gatedAccess (s : State) (a : Access) (q : TransactionRequest) :
    RunsAccess (.next (wireEnd (s.gatedAccess a (.ok q)))) s a q.bytesOut q.response where
  closed hgate := ⟨_, rfl, by rw [gatedAccess_closed hgate]; exact wireEnd_error s _⟩
  fails hgate hfail := ⟨_, rfl, by rw [gatedAccess_open hgate]; exact wireEnd_transact_fails hfail⟩
  returns reply hgate hreply := ⟨_, rfl, by rw [gatedAccess_open hgate]; exact wireEnd_transact_ok hreply⟩

/-- A register read inside its domains keeps the last `cnt` bytes of the reply (42_transactions R112, R114). -/
theorem registerRead_runsAccess {s : State} {addr cnt : Nat} (h1 : 1 ≤ cnt) (h15 : cnt ≤ 15)
    (haddr : addr ≤ lastAddress s.cfg.fam) :
    RunsAccess (.next (wireEnd (s.registerRead addr cnt))) s { addr := addr, count := cnt, dir := .read }
      (readBytes s.cfg addr cnt) (fun reply => reply.drop (reply.length - cnt)) := by
  rw [State.registerRead, buildReadRegister_ok h1 h15 haddr, ← readRequest_bytesOut haddr]
  exact runsAccess_gatedAccess s _ (readRequest s.cfg addr cnt)

/-- A register write inside its domains keeps nothing of the reply (42_transactions R113, R115). -/
theorem registerWrite_runsAccess {s : State} {addr cnt : Nat} {data : List Byte} (h1 : 1 ≤ cnt) (h15 : cnt ≤ 15)
    (hlen : data.length = cnt) (haddr : addr ≤ lastAddress s.cfg.fam) :
    RunsAccess (.next (wireEnd (s.registerWrite addr cnt data))) s { addr := addr, count := cnt, dir := .write }
      (writeBytes s.cfg addr cnt data) (fun _ => []) := by
  rw [State.registerWrite, buildWriteRegister_ok h1 h15 hlen haddr, ← writeRequest_bytesOut haddr,
    ← funext (response_eq_nil (q := writeRequest s.cfg addr cnt data) rfl)]
  exact runsAccess_gatedAccess s _ (writeRequest s.cfg addr cnt data)

/-- The wire-level register reads are register reads of `cnt` bytes, at an address of the block's family. -/
theorem exec_wireRead {s : State} {i : Instr} {addr cnt : Nat}
    (h : (i = .adcRreg addr (cnt - 1) ∧ s.cfg.fam = .adc ∧ addr ≤ 15) ∨
      (i = .magRead addr ∧ s.cfg.fam = .mag ∧ addr ≤ 127 ∧ s.wireData.length = cnt))
    (hcnt : 1 ≤ cnt ∨ s.cfg.fam = .mag) :
    exec i s = .next (wireEnd (s.registerRead addr cnt)) ∧ addr ≤ lastAddress s.cfg.fam := by
  rcases h with ⟨rfl, hfam, haddr⟩ | ⟨rfl, hfam, haddr, rfl⟩
  · have hc : cnt - 1 + 1 = cnt := Nat.sub_add_cancel (hcnt.resolve_right (by simp [hfam]))
    rw [exec, execAdcRreg, hc, onFamily_eq_wireEnd hfam, hfam]
    exact ⟨rfl, haddr⟩
  · rw [exec, execMagRead, onFamily_eq_wireEnd hfam, hfam]
    exact ⟨rfl, haddr⟩

/-- The wire-level register writes are register writes of `cnt` bytes, at an address of the block's family. -/
theorem exec_wireWrite {s : State} {i : Instr} {addr cnt : Nat}
    (h : (i = .adcWreg addr (cnt - 1) ∧ s.cfg.fam = .adc ∧ addr ≤ 15) ∨
      (i = .magWrite addr ∧ s.cfg.fam = .mag ∧ addr ≤ 127 ∧ s.wireData.length = cnt))
    (hcnt : 1 ≤ cnt ∨ s.cfg.fam = .mag) :
    exec i s = .next (wireEnd (s.registerWrite addr cnt s.wireData)) ∧ addr ≤ lastAddress s.cfg.fam := by
  rcases h with ⟨rfl, hfam, haddr⟩ | ⟨rfl, hfam, haddr, rfl⟩
  · have hc : cnt - 1 + 1 = cnt := Nat.sub_add_cancel (hcnt.resolve_right (by simp [hfam]))
    rw [exec, execAdcWreg, hc, onFamily_eq_wireEnd hfam, hfam]
    exact ⟨rfl, haddr⟩
  · rw [exec, execMagWrite, onFamily_eq_wireEnd hfam, hfam]
    exact ⟨rfl, haddr⟩

/-- Settles O53: the builder refuses the count, or the access runs. -/
theorem wireRegisterReads : Obligations.WireRegisterReads := by
  unfold Obligations.WireRegisterReads
  intro s i addr cnt hrow out access
  have hruns (h1 : 1 ≤ cnt) (h15 : cnt ≤ 15) :
      RunsAccess (exec i s) s access out (fun reply => reply.drop (reply.length - cnt)) := by
    obtain ⟨hexec, haddr⟩ := exec_wireRead hrow (.inl h1)
    rw [hexec]
    exact registerRead_runsAccess h1 h15 haddr
  refine ⟨fun hbad => ?_, fun h1 h15 => (hruns h1 h15).closed, fun h1 h15 => (hruns h1 h15).fails,
    fun reply h1 h15 => (hruns h1 h15).returns reply⟩
  obtain ⟨hexec, -⟩ := exec_wireRead hrow (hbad.imp (by omega) And.right)
  rw [State.registerRead_count (by omega)] at hexec
  exact ⟨_, hexec, wireEnd_error s _⟩

/-- Settles O54: the builder refuses the count or the length of the data, or the access runs. -/
theorem wireRegisterWrites : Obligations.WireRegisterWrites := by
  unfold Obligations.WireRegisterWrites
  intro s i addr cnt hrow out access
  have hruns (h1 : 1 ≤ cnt) (h15 : cnt ≤ 15) (hlen : s.wireData.length = cnt) :
      RunsAccess (exec i s) s access out (fun _ => []) := by
    obtain ⟨hexec, haddr⟩ := exec_wireWrite hrow (.inl h1)
    rw [hexec]
    exact registerWrite_runsAccess h1 h15 hlen haddr
  refine ⟨fun hbad => ?_, fun h1 h15 hlen => (hruns h1 h15 hlen).closed,
    fun h1 h15 hlen => (hruns h1 h15 hlen).fails, fun reply h1 h15 hlen => (hruns h1 h15 hlen).returns reply⟩
  have hcnt : 1 ≤ cnt ∨ s.cfg.fam = .mag := by
    rcases hbad with hlong | ⟨h1, -⟩ | ⟨-, hmag⟩
    · exact .inl (by omega)
    · exact .inl h1
    · exact .inr hmag
  obtain ⟨hexec, -⟩ := exec_wireWrite hrow hcnt
  rw [State.registerWrite_count (by omega)] at hexec
  exact ⟨_, hexec, wireEnd_error s _⟩

end Sys2Proof.Machine
end

section
/-! ## The codec (40_codec R80 to R90)

Encoding and decoding are inverse because a value of the signed range is the fold of its residue, and a byte sequence
is determined by its big-endian value. An operation of the codec then answers with what its function gives on the
latched operands. -/

namespace Sys2Proof.Machine

/-! ### Legal widths and the signed range -/

theorem pow_legalWidth {w : Nat} (hw : w = 8 ∨ w = 16 ∨ w = 24) : 256 ^ (w / 8) = 2 ^ w := by
  rcases hw with rfl | rfl | rfl <;> rfl

/-- The signed range of a legal width lies in that of a lane. -/
theorem signedRange_lane {w : Nat} (hw : w = 8 ∨ w = 16 ∨ w = 24) {v : Int} (h1 : -(2 ^ (w - 1)) ≤ v)
    (h2 : v ≤ 2 ^ (w - 1) - 1) : -(2 ^ 31) ≤ v ∧ v < 2 ^ 31 := by
  rcases hw with rfl | rfl | rfl <;> constructor <;> omega

theorem fitsSigned_eq_false_iff {w : Nat} {v : Int} :
    fitsSigned w v = false ↔ v < -(2 ^ (w - 1)) ∨ 2 ^ (w - 1) - 1 < v := by
  rw [← Bool.not_eq_true, fitsSigned_iff, not_and_or, not_le, not_le]

/-- A value of the signed range is the fold of its residue (40_codec R85). -/
theorem foldSigned_emod {w : Nat} {v : Int} (hw : 1 ≤ w) (h1 : -(2 ^ (w - 1)) ≤ v) (h2 : v ≤ 2 ^ (w - 1) - 1) :
    foldSigned w (v % 2 ^ w).toNat = v := by
  have hpos : (0 : Int) < 2 ^ w := by positivity
  have hres : ((v % 2 ^ w).toNat : Int) = v % 2 ^ w := Int.toNat_of_nonneg (Int.emod_nonneg v hpos.ne')
  have hlt : (v % 2 ^ w).toNat < 2 ^ w := by
    zify
    rw [hres]
    exact Int.emod_lt_of_pos v hpos
  obtain ⟨hlo, hhi, hmod⟩ := foldSigned_range hw hlt
  have hwidth : (2 : Int) ^ w = 2 * 2 ^ (w - 1) := by rw [← pow_succ', Nat.sub_add_cancel hw]
  have hdvd : (2 : Int) ^ w ∣ foldSigned w (v % 2 ^ w).toNat - v :=
    Int.ModEq.dvd (show v % 2 ^ w = _ by rw [hmod, hres])
  exact sub_eq_zero.1 (Int.eq_zero_of_abs_lt_dvd hdvd (abs_lt.2 ⟨by omega, by omega⟩))

/-- The sign of a sequence's value is bit 7 of its first byte (40_codec R83). -/
theorem signedValue_cons_neg_iff (b : Byte) (l : List Byte) :
    signedValue (8 * (l.length + 1)) (b :: l) < 0 ↔ b.getLsbD 7 = true := by
  have hhalf : 2 ^ (8 * (l.length + 1) - 1) = 128 * 256 ^ l.length := by
    rw [show 8 * (l.length + 1) - 1 = 7 + 8 * l.length by omega, pow_add, pow_mul]
    rfl
  have hbe : be (b :: l) < 2 ^ (8 * (l.length + 1)) := by
    rw [pow_mul]
    exact be_lt (b :: l)
  have hneg : signedValue (8 * (l.length + 1)) (b :: l) < 0 ↔ 2 ^ (8 * (l.length + 1) - 1) ≤ be (b :: l) := by
    rw [← foldSigned_eq_signedValue, foldSigned]
    split
    · zify at hbe; omega
    · omega
  have htop : 128 * 256 ^ l.length ≤ be (b :: l) ↔ 128 ≤ b.toNat := by
    rw [← Nat.le_div_iff_mul_le (by positivity), be, Nat.mul_comm, Nat.mul_add_div (by positivity),
      Nat.div_eq_of_lt (be_lt l), Nat.add_zero]
  have hbit : b.getLsbD 7 = true ↔ 128 ≤ b.toNat := by
    have := b.isLt
    rw [BitVec.getLsbD, Nat.testBit_eq_decide_div_mod_eq, decide_eq_true_iff]
    omega
  rw [hneg, hhalf, htop, hbit]

/-! ### Encoding and decoding -/

/-- The bytes ENCS gives have the value's residue as their big-endian value (40_codec R84). -/
theorem be_encodedBytes {w : Nat} (hw : w = 8 ∨ w = 16 ∨ w = 24) (v : Int) :
    (be (bigEndianBytes (w / 8) (v % 2 ^ w).toNat) : Int) = v % 2 ^ w := by
  have hpos : (0 : Int) < 2 ^ w := by positivity
  rw [be_bigEndianBytes, pow_legalWidth hw]
  push_cast
  rw [Int.toNat_of_nonneg (Int.emod_nonneg v hpos.ne'), Int.emod_emod]

/-- Decoding the bytes of a value of the signed range gives it back (40_codec R85). -/
theorem decodeSigned_encodedBytes {w : Nat} {v : Int} (hw : w = 8 ∨ w = 16 ∨ w = 24) (h1 : -(2 ^ (w - 1)) ≤ v)
    (h2 : v ≤ 2 ^ (w - 1) - 1) : decodeSigned w (bigEndianBytes (w / 8) (v % 2 ^ w).toNat) = .ok v := by
  have hbe : be (bigEndianBytes (w / 8) (v % 2 ^ w).toNat) = (v % 2 ^ w).toNat := by
    have := be_encodedBytes hw v
    omega
  rw [decodeSigned_ok hw (by simp), ← foldSigned_eq_signedValue, hbe, foldSigned_emod (by omega) h1 h2]

/-- Encoding what a sequence decodes to gives the sequence back (40_codec R85). -/
theorem encodeSigned_signedValue {w : Nat} {b : List Byte} (hw : w = 8 ∨ w = 16 ∨ w = 24) (hlen : b.length = w / 8) :
    encodeSigned w (signedValue w b) = .ok b := by
  obtain ⟨h1, h2, hmod⟩ := signedValue_range hw hlen
  rw [encodeSigned_ok hw h1 h2, hmod, Int.toNat_natCast, ← hlen, bigEndianBytes_be]

/-- ENCS refuses a width that is not legal and a value that does not fit (40_codec R84). -/
theorem encodeSigned_refuses {w : Nat} {v : Int}
    (h : ¬(w = 8 ∨ w = 16 ∨ w = 24) ∨ v < -(2 ^ (w - 1)) ∨ 2 ^ (w - 1) - 1 < v) :
    encodeSigned w v = .error .rangeError := by
  rcases h with hw | hv
  · simp [encodeSigned, Bool.eq_false_iff.2 (mt widthLegal_iff.1 hw)]
  · simp [encodeSigned, fitsSigned_eq_false_iff.2 hv]

/-- DECF refuses a width that is not legal, a code that does not fit, and a scale below 1 (40_codec R86). -/
theorem decodeFraction_refuses {w : Nat} {c k : Int}
    (h : ¬(w = 8 ∨ w = 16 ∨ w = 24) ∨ c < -(2 ^ (w - 1)) ∨ 2 ^ (w - 1) - 1 < c ∨ k < 1) :
    decodeFraction w c k = .error .rangeError := by
  rcases h with hw | hc | hc | hk
  · simp [decodeFraction, Bool.eq_false_iff.2 (mt widthLegal_iff.1 hw)]
  · simp [decodeFraction, fitsSigned_eq_false_iff.2 (.inl hc)]
  · simp [decodeFraction, fitsSigned_eq_false_iff.2 (.inr hc)]
  · simp [decodeFraction, hk]

/-- Settles O19: the two round trips of the encoded bytes, and the refusal of what does not fit. -/
theorem codecRoundTrips : Obligations.CodecRoundTrips := by
  unfold Obligations.CodecRoundTrips
  intro w hw
  refine ⟨fun v h1 h2 => ?_, fun v hout => encodeSigned_refuses (.inr hout), fun b hlen => ?_⟩
  · exact ⟨_, encodeSigned_ok hw h1 h2, decodeSigned_encodedBytes hw h1 h2⟩
  · exact ⟨_, decodeSigned_ok hw hlen, encodeSigned_signedValue hw hlen⟩

/-- Settles O20: the range and residue of `signedValue`, its sign at the first byte, and the encoding as the one
sequence that decodes to a value. -/
theorem decodeSignedLaws : Obligations.DecodeSignedLaws := by
  unfold Obligations.DecodeSignedLaws
  intro w hw
  refine ⟨fun b hlen => ?_, fun v h1 h2 => ?_⟩
  · obtain ⟨hlo, hhi, hmod⟩ := signedValue_range hw hlen
    refine ⟨_, decodeSigned_ok hw hlen, hlo, hhi, hmod, ?_⟩
    obtain ⟨b0, l, rfl⟩ := List.exists_cons_of_length_pos (l := b) (by omega)
    obtain rfl : w = 8 * (l.length + 1) := by rw [List.length_cons] at hlen; omega
    simp [signedValue_cons_neg_iff]
  · refine ⟨_, ⟨bigEndianBytes_length _ _, decodeSigned_encodedBytes hw h1 h2⟩, fun b hlen hdec => ?_⟩
    rw [decodeSigned_ok hw hlen, Except.ok.injEq] at hdec
    have henc := encodeSigned_signedValue hw hlen
    rw [hdec, encodeSigned_ok hw h1 h2, Except.ok.injEq] at henc
    exact henc.symm

/-! ### The answers of DECS, ENCS and DECF -/

/-- A response given in the state the operation found touches nothing. -/
theorem State.respond_answers (s : State) (o : Except OpError Result) :
    Answers s (s.respond o) (response s.draws o) ∧ Untouched s (s.respond o) :=
  ⟨⟨rfl, rfl, rfl, rfl, rfl, rfl⟩, rfl, rfl, rfl⟩

/-- Bytes on the result port are read back from it, and the rest of the port is 0. -/
theorem resultBytes_port {b : List Byte} (h : b.length ≤ 16) :
    portBytes (Result.bytes b).port b.length = b ∧ (Result.bytes b).port.toNat < 256 ^ b.length := by
  refine ⟨portBytes_packBytes h, ?_⟩
  rw [Result.port, packBytes_toNat h]
  exact packNat_lt b

/-- A fraction made of two lanes puts them on the result port as they came, and the rest of the port is 0. -/
theorem resultFraction_port (x y : Lane) :
    portLane (Result.fraction { num := x.toInt, den := y.toNat }).port 0 = x ∧
    portLane (Result.fraction { num := x.toInt, den := y.toNat }).port 1 = y ∧
    (Result.fraction { num := x.toInt, den := y.toNat }).port.toNat < 2 ^ 64 := by
  have hport : (Result.fraction { num := x.toInt, den := y.toNat }).port = packLanes [x, y] := by
    rw [Result.port, sext32, BitVec.ofInt_toInt, BitVec.ofNat_toNat, BitVec.setWidth_eq]
  rw [hport]
  refine ⟨portLane_packLanes (by simp) (by simp), portLane_packLanes (by simp) (by simp), ?_⟩
  rw [packLanes_toNat (by simp)]
  simpa using packLanesNat_lt [x, y]

/-- Settles O16: `decodeSigned` on the operand bytes, its value laid out as a code. -/
theorem decsMeaning : Obligations.DecsMeaning := by
  unfold Obligations.DecsMeaning
  intro s w
  refine ⟨fun hw hlen => ?_, fun hbad => ?_⟩
  · have hexec : exec (.decs w) s = .next (s.respond (.ok (.code (signedValue w s.operandBytes)))) := by
      rw [exec, execDecs, decodeSigned_ok hw hlen, Except.map]
    obtain ⟨hans, hunt⟩ := s.respond_answers (.ok (.code (signedValue w s.operandBytes)))
    obtain ⟨hlo, hhi, -⟩ := signedValue_range hw hlen
    obtain ⟨h1, h2⟩ := signedRange_lane hw hlo hhi
    obtain ⟨hlane, hport⟩ := resultCode_port h1 h2
    exact ⟨_, _, hexec, hans, hunt, rfl, hlane, hport, rfl⟩
  · refine ⟨_, ?_, s.respond_error .rangeError⟩
    rw [exec, execDecs, decodeSigned_refuses (hbad.imp_right And.right), Except.map]

/-- Settles O17: `encodeSigned` on lane 0, its bytes laid out on the port. -/
theorem encsMeaning : Obligations.EncsMeaning := by
  unfold Obligations.EncsMeaning
  intro s w
  refine ⟨fun hw h1 h2 => ?_, fun hbad => ?_⟩
  · have henc := encodeSigned_ok hw h1 h2
    have hbe := be_encodedBytes hw (portLane s.operandPort 0).toInt
    have hlen := bigEndianBytes_length (w / 8) ((portLane s.operandPort 0).toInt % 2 ^ w).toNat
    generalize bigEndianBytes (w / 8) ((portLane s.operandPort 0).toInt % 2 ^ w).toNat = b at henc hbe hlen
    obtain ⟨hans, hunt⟩ := s.respond_answers (.ok (.bytes b))
    obtain ⟨hbytes, hport⟩ := resultBytes_port (b := b) (by omega)
    rw [hlen] at hbytes hport
    refine ⟨_, _, ?_, hans, hunt, rfl, ?_, ?_, ?_⟩
    · rw [exec, execEncs, State.signedLane, henc, Except.map]
    · rw [response, Result.length, BitVec.toNat_ofNat, hlen]; omega
    · rw [response, hbytes, hbe]
    · rw [response, ← pow_legalWidth hw]; exact hport
  · refine ⟨_, ?_, s.respond_error .rangeError⟩
    rw [exec, execEncs, State.signedLane, encodeSigned_refuses hbad, Except.map]

/-- Settles O18: `decodeFraction` on lanes 0 and 1, which come back as they are. -/
theorem decfMeaning : Obligations.DecfMeaning := by
  unfold Obligations.DecfMeaning
  intro s w
  refine ⟨fun hw h1 h2 hk => ?_, fun hbad => ?_, fun c k hk => decodeFraction_refuses (.inr (.inr (.inr hk)))⟩
  · obtain ⟨hcode, hscale, hport⟩ := resultFraction_port (portLane s.operandPort 0) (portLane s.operandPort 1)
    obtain ⟨hans, hunt⟩ := s.respond_answers
      (.ok (.fraction { num := (portLane s.operandPort 0).toInt, den := (portLane s.operandPort 1).toNat }))
    refine ⟨_, _, ?_, hans, hunt, rfl, rfl, hcode, hscale, hport⟩
    rw [exec, execDecf, State.signedLane, State.unsignedLane, decodeFraction_ok hw h1 h2 (by omega), Int.toNat_natCast,
      Except.map]
  · refine ⟨_, ?_, s.respond_error .rangeError⟩
    rw [exec, execDecf, State.signedLane, State.unsignedLane, decodeFraction_refuses (by omega), Except.map]

/-! ### The operands are all a pure operation reads -/

/-- The operand bytes are those of the latched request. -/
theorem State.operandBytes_congr {s s' : State} (h : s.pending = s'.pending) : s.operandBytes = s'.operandBytes := by
  simp only [State.operandBytes, State.operandPort, State.operandLength, h]

/-- The signed lanes are those of the latched request. -/
theorem State.signedLane_congr {s s' : State} (h : s.pending = s'.pending) : s.signedLane = s'.signedLane := by
  funext k
  simp only [State.signedLane, State.operandPort, h]

/-- The unsigned lanes are those of the latched request. -/
theorem State.unsignedLane_congr {s s' : State} (h : s.pending = s'.pending) : s.unsignedLane = s'.unsignedLane := by
  funext k
  simp only [State.unsignedLane, State.operandPort, h]

/-- A pure operation answers any two states that latched the same request with one outcome (40_codec R80). -/
theorem exec_pure {i : Instr} {s s' : State} (hi : isPure i = true) (h : s.pending = s'.pending) :
    ∃ o, exec i s = .next (s.respond o) ∧ exec i s' = .next (s'.respond o) := by
  match i, hi with
  | .decs w, _ => exact ⟨_, rfl, by rw [exec, execDecs, State.operandBytes_congr h]⟩
  | .encs w, _ => exact ⟨_, rfl, by rw [exec, execEncs, State.signedLane_congr h]⟩
  | .decf w, _ => exact ⟨_, rfl, by rw [exec, execDecf, State.signedLane_congr h, State.unsignedLane_congr h]⟩
  | .cvadc, _ => exact ⟨_, rfl, by rw [exec, execCvadc, State.operandBytes_congr h]⟩
  | .cvmag, _ => exact ⟨_, rfl, by rw [exec, execCvmag, State.operandBytes_congr h]⟩

/-- No error is reported as OK (60_exceptions R181). -/
theorem OpError.code_ne_ok (e : OpError) : e.code ≠ 0x0#4 := by cases e <;> decide

/-- An OK response does not depend on the free values of the result port (30_encoding R64). -/
theorem response_eq_of_ok {n n' : Nat} {o : Except OpError Result} (h : (response n o).st = 0x0#4) :
    response n o = response n' o := by
  cases o with
  | ok r => rfl
  | error e => exact absurd h e.code_ne_ok

/-- Settles O21: both states answer with the outcome of `exec_pure`. -/
theorem pureOperationsReadOnlyTheirOperands : Obligations.PureOperationsReadOnlyTheirOperands := by
  unfold Obligations.PureOperationsReadOnlyTheirOperands
  intro i s s' hi hp
  obtain ⟨o, hs, hs'⟩ := exec_pure hi hp
  obtain ⟨hans, hunt⟩ := s.respond_answers o
  obtain ⟨hans', hunt'⟩ := s'.respond_answers o
  have hst : (response s.draws o).st = (response s'.draws o).st := by rw [response_st, response_st]
  exact ⟨_, _, _, _, hs, hs', hans, hans', hst, response_eq_of_ok, hunt, hunt'⟩

end Sys2Proof.Machine
end

section
/-! ## Register sub-fields: field_pack (41_register_fields R100 to R106) -/

namespace Sys2Proof.Machine

/-! ### The order in which updates are examined -/

theorem insertUpdate_eq_orderedInsert (u : FieldUpdate) (l : List FieldUpdate) :
    insertUpdate u l = l.orderedInsert (Prod.fst ⁻¹'o (· ≤ ·)) u := by
  induction l with
  | nil => rfl
  | cons v l ih => simp only [insertUpdate, List.orderedInsert_cons, ih, Order.Preimage]

/-- `ascending` is the library's insertion sort by field index. -/
theorem ascending_eq_insertionSort (upd : List FieldUpdate) :
    ascending upd = upd.insertionSort (Prod.fst ⁻¹'o (· ≤ ·)) := by
  induction upd with
  | nil => rfl
  | cons u l ih => rw [ascending, ih, insertUpdate_eq_orderedInsert, List.insertionSort_cons]

theorem ascending_perm (upd : List FieldUpdate) : (ascending upd).Perm upd := by
  rw [ascending_eq_insertionSort]
  exact List.perm_insertionSort _ upd

@[simp] theorem mem_ascending {u : FieldUpdate} {upd : List FieldUpdate} : u ∈ ascending upd ↔ u ∈ upd :=
  (ascending_perm upd).mem_iff

theorem ascending_pairwise (upd : List FieldUpdate) : (ascending upd).Pairwise (fun u v => u.1 ≤ v.1) := by
  rw [ascending_eq_insertionSort]
  exact List.pairwise_insertionSort (Prod.fst ⁻¹'o (· ≤ ·)) upd

theorem distinctFields_ascending {upd : List FieldUpdate} (h : distinctFields upd) : distinctFields (ascending upd) :=
  ((ascending_perm upd).map Prod.fst).nodup_iff.2 h

/-- With at most one update for each field, the updates stand in strictly ascending order. -/
theorem ascending_pairwise_lt {upd : List FieldUpdate} (h : distinctFields upd) :
    (ascending upd).Pairwise (fun u v => u.1 < v.1) :=
  (ascending_pairwise upd).imp₂ (fun _ _ => lt_of_le_of_ne) (List.pairwise_map.1 (distinctFields_ascending h))

/-! ### Validation (41_register_fields R102) -/

/-- An update the descriptor takes names a field and gives a value inside its range and its bits. -/
theorem not_badUpdate_iff {r : RegDescriptor} {u : FieldUpdate} :
    ¬badUpdate r u ↔
      ∃ f, r.subfields[u.1]? = some f ∧ f.min ≤ u.2 ∧ u.2 ≤ f.max ∧ 0 ≤ u.2 ∧ u.2 < 2 ^ f.width := by
  simp only [badUpdate, not_forall, not_not, exists_prop]

theorem updateError_of_badUpdate {r : RegDescriptor} {u : FieldUpdate} (h : badUpdate r u) :
    updateError r u = some (if r.subfields[u.1]? = none then .unknownFieldError else .invalidFieldError) := by
  cases hf : r.subfields[u.1]? with
  | none => simp [updateError, hf]
  | some f => simp only [updateError, hf, if_neg (h f hf), reduceCtorEq, if_false]

theorem updateError_eq_none_iff {r : RegDescriptor} {u : FieldUpdate} : updateError r u = none ↔ ¬badUpdate r u := by
  refine ⟨fun h hb => ?_, fun h => ?_⟩
  · rw [updateError_of_badUpdate hb] at h
    cases h
  · obtain ⟨f, hf, hrange⟩ := not_badUpdate_iff.1 h
    simp only [updateError, hf, if_pos hrange]

theorem firstError_eq_none_iff {r : RegDescriptor} {l : List FieldUpdate} :
    firstError r l = none ↔ ∀ u ∈ l, ¬badUpdate r u := by
  induction l with
  | nil => simp [firstError]
  | cons u l ih =>
    rw [List.forall_mem_cons, ← ih, ← updateError_eq_none_iff, firstError]
    cases updateError r u <;> simp

/-- In strictly ascending order the refused update of the lowest field is the first that is refused. -/
theorem firstError_of_lowest_badUpdate {r : RegDescriptor} {u : FieldUpdate} {l : List FieldUpdate}
    (hl : l.Pairwise (fun u v => u.1 < v.1)) (hu : u ∈ l) (hbad : badUpdate r u)
    (hlow : ∀ v ∈ l, badUpdate r v → u.1 ≤ v.1) : firstError r l = updateError r u := by
  induction l with
  | nil => cases hu
  | cons v l ih =>
    obtain ⟨hv, hl⟩ := List.pairwise_cons.1 hl
    rw [List.forall_mem_cons] at hlow
    rcases List.mem_cons.1 hu with rfl | hu
    · rw [firstError, updateError_of_badUpdate hbad]
    · have hgood : ¬badUpdate r v := fun hb => absurd (hlow.1 hb) (Nat.not_le.2 (hv u hu))
      rw [firstError, updateError_eq_none_iff.2 hgood]
      exact ih hl hu hlow.2

/-- When `fieldPack` succeeds, and the value it gives. -/
theorem fieldPack_eq_ok_iff {r : RegDescriptor} {cur new : Nat} {upd : List FieldUpdate} :
    fieldPack r cur upd = .ok new ↔
      cur < 2 ^ (8 * r.widthBytes) ∧ (∀ u ∈ upd, ¬badUpdate r u) ∧
        (ascending upd).foldl (applyUpdate r) cur = new := by
  have hgood : (∀ u ∈ upd, ¬badUpdate r u) ↔ firstError r (ascending upd) = none := by
    simp only [firstError_eq_none_iff, mem_ascending]
  rw [hgood, fieldPack]
  by_cases hcur : 2 ^ (8 * r.widthBytes) ≤ cur
  · simp [hcur, Nat.not_lt.2 hcur]
  · cases firstError r (ascending upd) <;> simp [hcur, Nat.lt_of_not_le hcur]

/-- Settles O57: the updates are examined in strictly ascending order, so the refused one of the lowest field
is met first. -/
theorem fieldPackRefusals : Obligations.FieldPackRefusals := by
  unfold Obligations.FieldPackRefusals
  intro r cur upd hdist
  refine ⟨fun hcur => by rw [fieldPack, if_pos hcur], fun u hu hcur hbad hlow => ?_⟩
  have hfirst : firstError r (ascending upd) = updateError r u :=
    firstError_of_lowest_badUpdate (ascending_pairwise_lt hdist) (mem_ascending.2 hu) hbad
      (fun v hv => hlow v (mem_ascending.1 hv))
  rw [fieldPack, if_neg (Nat.not_le.2 hcur), hfirst, updateError_of_badUpdate hbad]

/-! ### One update, bit by bit -/

theorem testBit_eq_false_of_lt_two_pow {v n p : Nat} (hv : v < 2 ^ n) (hp : n ≤ p) : v.testBit p = false :=
  Nat.testBit_eq_false_of_lt (hv.trans_le (Nat.pow_le_pow_right (by decide) hp))

theorem Subfield.spans_eq_true_iff {f : Subfield} {p : Nat} :
    f.spans p = true ↔ f.offset ≤ p ∧ p < f.offset + f.width := by
  simp only [Subfield.spans, Bool.and_eq_true, decide_eq_true_eq]

/-- The mask of a field has the bits of its span. -/
theorem Subfield.testBit_mask (f : Subfield) (p : Nat) : ((2 ^ f.width - 1) <<< f.offset).testBit p = f.spans p := by
  rw [Nat.testBit_shiftLeft, Nat.testBit_two_pow_sub_one, Subfield.spans]
  by_cases h : f.offset ≤ p
  · simp [h, Nat.sub_lt_iff_lt_add' h]
  · simp [h]

/-- A value of the field's width has, once shifted, no bit outside the span. -/
theorem Subfield.testBit_shifted_of_not_spans {f : Subfield} {x p : Nat} (hx : x < 2 ^ f.width)
    (hp : f.spans p = false) : (x <<< f.offset).testBit p = false := by
  rw [Nat.testBit_shiftLeft, Bool.and_eq_false_iff, decide_eq_false_iff_not, or_iff_not_imp_left, not_not]
  intro hle
  have hge : f.width ≤ p - f.offset := by
    have := mt Subfield.spans_eq_true_iff.2 (Bool.eq_false_iff.1 hp)
    omega
  exact testBit_eq_false_of_lt_two_pow hx hge

/-- The value of an update that is taken fits its field's bits as a natural number. -/
theorem toNat_lt_of_not_badUpdate {r : RegDescriptor} {u : FieldUpdate} {f : Subfield} (hu : ¬badUpdate r u)
    (hf : r.subfields[u.1]? = some f) : u.2.toNat < 2 ^ f.width := by
  obtain ⟨g, hg, -, -, h0, hlt⟩ := not_badUpdate_iff.1 hu
  obtain rfl : f = g := Option.some.inj (hf.symm.trans hg)
  rw [Int.toNat_lt h0]
  exact_mod_cast hlt

/-- A bit of the new value: the old one where the register has it outside the span, or one of the shifted value. -/
theorem applyUpdate_testBit {r : RegDescriptor} {u : FieldUpdate} {f : Subfield} (hf : r.subfields[u.1]? = some f)
    (v p : Nat) :
    (applyUpdate r v u).testBit p =
      ((v.testBit p && (decide (p < 8 * r.widthBytes) ^^ f.spans p)) || (u.2.toNat <<< f.offset).testBit p) := by
  simp only [applyUpdate, hf, Nat.testBit_or, Nat.testBit_and, Nat.testBit_xor, Nat.testBit_two_pow_sub_one,
    Subfield.testBit_mask]

/-- An update leaves a bit outside its field's span alone, whatever the descriptor, if the register has that bit
or it is 0. -/
theorem applyUpdate_testBit_of_not_spans {r : RegDescriptor} {u : FieldUpdate} {f : Subfield} {v p : Nat}
    (hu : ¬badUpdate r u) (hf : r.subfields[u.1]? = some f) (hp : f.spans p = false)
    (hv : v.testBit p = true → p < 8 * r.widthBytes) : (applyUpdate r v u).testBit p = v.testBit p := by
  rw [applyUpdate_testBit hf, Subfield.testBit_shifted_of_not_spans (toNat_lt_of_not_badUpdate hu hf) hp, hp]
  cases hb : v.testBit p with
  | false => rfl
  | true => simp [hv hb]

/-- Inside the span of a field that fits the register, the new value has the bits of the update's value. -/
theorem applyUpdate_testBit_of_spans {r : RegDescriptor} {u : FieldUpdate} {f : Subfield} {v p : Nat}
    (hf : r.subfields[u.1]? = some f) (hfit : f.offset + f.width ≤ 8 * r.widthBytes) (hp : f.spans p = true) :
    (applyUpdate r v u).testBit p = u.2.toNat.testBit (p - f.offset) := by
  obtain ⟨hlo, hhi⟩ := Subfield.spans_eq_true_iff.1 hp
  have hreg : p < 8 * r.widthBytes := by omega
  simp [applyUpdate_testBit hf, hp, hreg, Nat.testBit_shiftLeft, hlo]

/-! ### All updates: the frame (41_register_fields R104) -/

/-- Updates that are taken leave a bit in none of their spans alone. -/
theorem foldl_applyUpdate_testBit {r : RegDescriptor} {l : List FieldUpdate} {v p : Nat}
    (hl : ∀ u ∈ l, ¬badUpdate r u) (hp : ∀ u ∈ l, ∀ f, r.subfields[u.1]? = some f → f.spans p = false)
    (hv : v.testBit p = true → p < 8 * r.widthBytes) : (l.foldl (applyUpdate r) v).testBit p = v.testBit p := by
  induction l generalizing v with
  | nil => rfl
  | cons u l ih =>
    rw [List.forall_mem_cons] at hl hp
    obtain ⟨f, hf, -⟩ := not_badUpdate_iff.1 hl.1
    have hhead : (applyUpdate r v u).testBit p = v.testBit p :=
      applyUpdate_testBit_of_not_spans hl.1 hf (hp.1 f hf) hv
    rw [List.foldl_cons, ih hl.2 hp.2 (hhead ▸ hv), hhead]

/-- Settles O59: the current value fits the register, so no update clears a bit outside its own span. -/
theorem fieldPackKeepsEveryOtherBit : Obligations.FieldPackKeepsEveryOtherBit := by
  unfold Obligations.FieldPackKeepsEveryOtherBit
  intro r cur new upd hpack p hp
  obtain ⟨hcur, hgood, rfl⟩ := fieldPack_eq_ok_iff.1 hpack
  have hreg : cur.testBit p = true → p < 8 * r.widthBytes := fun hb =>
    Nat.lt_of_not_le fun hle => absurd (testBit_eq_false_of_lt_two_pow hcur hle) (by simp [hb])
  exact foldl_applyUpdate_testBit (fun u hu => hgood u (mem_ascending.1 hu))
    (fun u hu => hp u (mem_ascending.1 hu)) hreg

/-! ### All updates on a well-formed register: reading back (41_register_fields R100, R106) -/

theorem spansApart_iff_pairwise {l : List Subfield} : spansApart l = true ↔ l.Pairwise (fun f g => f.apart g = true) := by
  induction l with
  | nil => simp [spansApart]
  | cons f l ih => simp only [spansApart, Bool.and_eq_true, List.all_eq_true, List.pairwise_cons, ih]

/-- Fields that are apart share no bit. -/
theorem Subfield.not_spans_both_of_apart {f g : Subfield} (h : f.apart g = true) (p : Nat) :
    ¬(f.spans p = true ∧ g.spans p = true) := by
  simp only [Subfield.apart, Bool.or_eq_true, decide_eq_true_eq] at h
  simp only [Subfield.spans_eq_true_iff]
  omega

/-- The spans of a well-formed register lie inside it. -/
theorem RegDescriptor.span_le_of_wf {r : RegDescriptor} (h : r.wf = true) {i : Nat} {f : Subfield}
    (hf : r.subfields[i]? = some f) : f.offset + f.width ≤ 8 * r.widthBytes := by
  simp only [RegDescriptor.wf, Bool.and_eq_true, List.all_eq_true, decide_eq_true_eq] at h
  exact h.1.2 f (List.mem_of_getElem? hf)

/-- A bit in the span of one field of a well-formed register is in the span of no other. -/
theorem RegDescriptor.not_spans_of_wf {r : RegDescriptor} (h : r.wf = true) {i j p : Nat} {f g : Subfield}
    (hij : i ≠ j) (hf : r.subfields[i]? = some f) (hg : r.subfields[j]? = some g) (hp : f.spans p = true) :
    g.spans p = false := by
  have hpair : r.subfields.Pairwise (fun f g => f.apart g = true) := by
    rw [RegDescriptor.wf, Bool.and_eq_true] at h
    exact spansApart_iff_pairwise.1 h.2
  rw [List.pairwise_iff_getElem] at hpair
  obtain ⟨hi, rfl⟩ := List.getElem?_eq_some_iff.1 hf
  obtain ⟨hj, rfl⟩ := List.getElem?_eq_some_iff.1 hg
  rw [Bool.eq_false_iff]
  intro hq
  rcases Nat.lt_or_gt_of_ne hij with hlt | hgt
  · exact Subfield.not_spans_both_of_apart (hpair i j hi hj hlt) p ⟨hp, hq⟩
  · exact Subfield.not_spans_both_of_apart (hpair j i hj hi hgt) p ⟨hq, hp⟩

/-- Updates that are taken keep a value inside a well-formed register. -/
theorem foldl_applyUpdate_lt {r : RegDescriptor} {l : List FieldUpdate} {v : Nat} (hwf : r.wf = true)
    (hl : ∀ u ∈ l, ¬badUpdate r u) (hv : v < 2 ^ (8 * r.widthBytes)) :
    l.foldl (applyUpdate r) v < 2 ^ (8 * r.widthBytes) := by
  refine Nat.lt_pow_two_of_testBit _ fun p hp => ?_
  have hvp : v.testBit p = false := testBit_eq_false_of_lt_two_pow hv hp
  rw [foldl_applyUpdate_testBit hl _ (by simp [hvp]), hvp]
  intro u _ f hf
  rw [Bool.eq_false_iff, ne_eq, Subfield.spans_eq_true_iff]
  have := RegDescriptor.span_le_of_wf hwf hf
  omega

/-- Inside the span of a named field the packed value has the bits of the value given: its own update writes
them and no other reaches them. -/
theorem foldl_applyUpdate_testBit_of_spans {r : RegDescriptor} {l : List FieldUpdate} {v p : Nat} {u : FieldUpdate}
    {f : Subfield} (hwf : r.wf = true) (hl : ∀ u ∈ l, ¬badUpdate r u) (hdist : distinctFields l) (hu : u ∈ l)
    (hf : r.subfields[u.1]? = some f) (hp : f.spans p = true) :
    (l.foldl (applyUpdate r) v).testBit p = u.2.toNat.testBit (p - f.offset) := by
  induction l generalizing v with
  | nil => cases hu
  | cons w l ih =>
    rw [List.forall_mem_cons] at hl
    obtain ⟨hw, hdist⟩ := List.nodup_cons.1 hdist
    rw [List.foldl_cons]
    rcases List.mem_cons.1 hu with rfl | hu
    · have hfit := RegDescriptor.span_le_of_wf hwf hf
      have hothers : ∀ w ∈ l, ∀ g, r.subfields[w.1]? = some g → g.spans p = false := by
        intro w hmem g hg
        have hne : u.1 ≠ w.1 := fun heq => hw (heq ▸ List.mem_map_of_mem hmem)
        exact RegDescriptor.not_spans_of_wf hwf hne hf hg hp
      have hreg : p < 8 * r.widthBytes := (Subfield.spans_eq_true_iff.1 hp).2.trans_le hfit
      rw [foldl_applyUpdate_testBit hl.2 hothers (fun _ => hreg), applyUpdate_testBit_of_spans hf hfit hp]
    · exact ih hl.2 hdist hu

/-- A field reads as `x` when the bits of its span are those of `x`. -/
theorem fieldUnpack_eq_of_testBit {f : Subfield} {v x : Nat} (hx : x < 2 ^ f.width)
    (h : ∀ p, f.spans p = true → v.testBit p = x.testBit (p - f.offset)) : fieldUnpack f v = x := by
  apply Nat.eq_of_testBit_eq
  intro i
  rw [fieldUnpack, Nat.testBit_and, Nat.testBit_shiftRight, Nat.testBit_two_pow_sub_one]
  by_cases hi : i < f.width
  · rw [h (f.offset + i) (Subfield.spans_eq_true_iff.2 (by omega)), Nat.add_sub_cancel_left]
    simp [hi]
  · rw [testBit_eq_false_of_lt_two_pow hx (Nat.not_lt.1 hi)]
    simp [hi]

/-- Settles O58: each named field is read back through the bits of its span. -/
theorem fieldPackWritesTheNamedFields : Obligations.FieldPackWritesTheNamedFields := by
  unfold Obligations.FieldPackWritesTheNamedFields
  intro r cur upd hwf hdist hcur hgood
  have hgood' : ∀ u ∈ ascending upd, ¬badUpdate r u := fun u hu => hgood u (mem_ascending.1 hu)
  refine ⟨_, fieldPack_eq_ok_iff.2 ⟨hcur, hgood, rfl⟩, foldl_applyUpdate_lt hwf hgood' hcur, fun u hu f hf => ?_⟩
  have hread : fieldUnpack f ((ascending upd).foldl (applyUpdate r) cur) = u.2.toNat :=
    fieldUnpack_eq_of_testBit (toNat_lt_of_not_badUpdate (hgood u hu) hf) fun p hp =>
      foldl_applyUpdate_testBit_of_spans hwf hgood' (distinctFields_ascending hdist) (mem_ascending.2 hu) hf hp
  obtain ⟨-, -, -, -, h0, -⟩ := not_badUpdate_iff.1 (hgood u hu)
  rw [hread, Int.toNat_of_nonneg h0]

end Sys2Proof.Machine
end

section
/-! ## The transaction builders (42_transactions R112 to R120) -/

namespace Sys2Proof.Machine

/-! ### What a built request is made of -/

/-- The ADC's two opcode bytes of a register read carry the address and the count in bits of their own (R112). -/
theorem readOpcode_adc {addr : Nat} (h : addr ≤ 15) (count : Nat) :
    readOpcode .adc addr count = [BitVec.ofNat 8 (0x20 + addr), BitVec.ofNat 8 (count - 1)] := by
  rw [readOpcode, adcReadByte, or_ofNat_of_lt (.inl rfl) h, adcCountByte_eq]

/-- The ADC's two opcode bytes of a register write (R113). -/
theorem writeOpcode_adc {addr : Nat} (h : addr ≤ 15) (count : Nat) :
    writeOpcode .adc addr count = [BitVec.ofNat 8 (0x40 + addr), BitVec.ofNat 8 (count - 1)] := by
  rw [writeOpcode, adcWriteByte, or_ofNat_of_lt (.inr rfl) h, adcCountByte_eq]

/-- The magnetometer's opcode byte of a register read (R114). -/
theorem readOpcode_mag {addr : Nat} (h : addr ≤ 127) (count : Nat) :
    readOpcode .mag addr count = [BitVec.ofNat 8 (0x80 + addr)] := by
  rw [readOpcode, magReadByte, or_ofNat_of_lt_mag h]

/-- The magnetometer's opcode byte of a register write is the address (R115). -/
theorem writeOpcode_mag (addr count : Nat) : writeOpcode .mag addr count = [BitVec.ofNat 8 addr] := by
  rw [writeOpcode, magWriteByte_eq]

theorem fillerByte_adc {c : BlockConfig} (h : c.fam = .adc) : fillerByte c = 0xFF#8 := by
  rw [fillerByte, h]
  rfl

theorem fillerByte_mag {c : BlockConfig} (h : c.fam = .mag) : fillerByte c = c.magFiller := by
  rw [fillerByte, h]

theorem fillerByte_eq_ite (c : BlockConfig) : fillerByte c = if c.fam = .adc then 0xFF#8 else c.magFiller := by
  cases h : c.fam with
  | adc => exact fillerByte_adc h
  | mag => exact fillerByte_mag h

/-! ### The laws of every request -/

/-- What every builder keeps to (R120): 1 to 17 bytes go out, and a request that keeps reply bytes sends one filler
byte for each of them. -/
structure TransactionRequest.Lawful (c : BlockConfig) (q : TransactionRequest) : Prop where
  one_le : 1 ≤ q.bytesOut.length
  le_17  : q.bytesOut.length ≤ 17
  filler : q.responseLength ≠ 0 → q.payload = List.replicate q.responseLength (fillerByte c)

theorem readRequest_lawful {c : BlockConfig} {addr count : Nat} (h15 : count ≤ 15)
    (haddr : addr ≤ lastAddress c.fam) : (readRequest c addr count).Lawful c := by
  obtain ⟨hmin, hmax⟩ := readBytes_length c addr count
  rw [← readRequest_bytesOut haddr] at hmin hmax
  exact ⟨by omega, by omega, fun _ => rfl⟩

theorem writeRequest_lawful {c : BlockConfig} {addr count : Nat} {data : List Byte} (h15 : count ≤ 15)
    (hlen : data.length = count) (haddr : addr ≤ lastAddress c.fam) :
    (writeRequest c addr count data).Lawful c := by
  obtain ⟨hmin, hmax⟩ := writeBytes_length c addr count data
  rw [← writeRequest_bytesOut haddr] at hmin hmax
  exact ⟨by omega, by omega, fun h => absurd rfl h⟩

theorem buildReadRegister_lawful {c : BlockConfig} {addr count : Nat} {q : TransactionRequest}
    (h : buildReadRegister c addr count = .ok q) : q.Lawful c := by
  rcases buildReadRegister_cases c addr count with hb | hb | ⟨-, h15, haddr, hb⟩ <;> rw [hb] at h <;> cases h
  exact readRequest_lawful h15 haddr

theorem buildWriteRegister_lawful {c : BlockConfig} {addr count : Nat} {data : List Byte} {q : TransactionRequest}
    (h : buildWriteRegister c addr count data = .ok q) : q.Lawful c := by
  rcases buildWriteRegister_cases c addr count data with hb | hb | ⟨-, h15, hlen, haddr, hb⟩ <;> rw [hb] at h <;>
    cases h
  exact writeRequest_lawful h15 hlen haddr

theorem buildBare_lawful (c : BlockConfig) (b : Byte) : (buildBare b).Lawful c :=
  ⟨Nat.le_refl 1, by rw [buildBare_bytesOut_length]; decide, fun h => absurd rfl h⟩

theorem buildRdataPoll_lawful {c : BlockConfig} (h : c.fam = .adc) : buildRdataPoll.Lawful c :=
  ⟨by decide, by decide, fun _ => by rw [fillerByte_adc h]; rfl⟩

theorem buildStreamingPoll_bytesOut_length (c : BlockConfig) :
    (buildStreamingPoll c).bytesOut.length = frameBytes c.fam := List.length_replicate

theorem buildStreamingPoll_lawful (c : BlockConfig) : (buildStreamingPoll c).Lawful c := by
  have hlen := buildStreamingPoll_bytesOut_length c
  have hframe : 1 ≤ frameBytes c.fam ∧ frameBytes c.fam ≤ 17 := by cases c.fam <;> decide
  exact ⟨by omega, by omega, fun _ => rfl⟩

theorem TransactionRequest.bytesOut_length (q : TransactionRequest) :
    q.bytesOut.length = q.opcodeBytes.length + q.payload.length := List.length_append

/-- A request that keeps reply bytes keeps as many as its payload has. -/
theorem TransactionRequest.Lawful.payload_length {c : BlockConfig} {q : TransactionRequest} (h : q.Lawful c)
    (hkeeps : q.responseLength ≠ 0) : q.payload.length = q.responseLength := by
  rw [h.filler hkeeps, List.length_replicate]

/-- What is discarded of a whole reply: all of it when nothing is kept, else the bytes under the opcode (R120). -/
theorem TransactionRequest.Lawful.discarded_length {c : BlockConfig} {q : TransactionRequest} (h : q.Lawful c)
    {reply : List Byte} (hreply : reply.length = q.bytesOut.length) :
    reply.length - (q.response reply).length =
      if q.responseLength = 0 then q.bytesOut.length else q.opcodeBytes.length := by
  have hout := q.bytesOut_length
  split
  next hnone => rw [response_eq_nil hnone, hreply, List.length_nil, Nat.sub_zero]
  next hkeeps =>
    have hpay := h.payload_length hkeeps
    rw [response_length (by omega)]
    omega

/-- Settles O50: each of the five builders gives a lawful request, and the laws of its reply follow. -/
theorem lawsOfEveryRequest : Obligations.LawsOfEveryRequest := by
  unfold Obligations.LawsOfEveryRequest
  intro c q hbuilt
  have hq : q.Lawful c := by
    rcases hbuilt with ⟨addr, count, h⟩ | ⟨addr, count, data, h⟩ | ⟨b, rfl⟩ | ⟨hfam, rfl⟩ | rfl
    · exact buildReadRegister_lawful h
    · exact buildWriteRegister_lawful h
    · exact buildBare_lawful c b
    · exact buildRdataPoll_lawful hfam
    · exact buildStreamingPoll_lawful c
  refine ⟨q.bytesOut_length, hq.one_le, hq.le_17, fun hkeeps => ⟨(hq.payload_length hkeeps).symm, fun b hb => ?_⟩,
    fun reply => hq.discarded_length⟩
  rw [hq.filler hkeeps] at hb
  rw [List.eq_of_mem_replicate hb, fillerByte_eq_ite]

/-! ### Each builder by itself -/

/-- Settles O45: the register-read builder with the ADC's last address, opcode bytes and filler. -/
theorem buildReadRegisterAdc : Obligations.BuildReadRegisterAdc := by
  unfold Obligations.BuildReadRegisterAdc
  intro c addr count hfam
  have hlast : lastAddress c.fam = 15 := by rw [hfam, lastAddress]
  refine ⟨buildReadRegister_count, fun h1 h15 haddr => buildReadRegister_range h1 h15 (by omega),
    fun h1 h15 haddr => ⟨_, buildReadRegister_ok h1 h15 (by omega), ?_, ?_, rfl⟩⟩
  · rw [readRequest, hfam, readOpcode_adc haddr]
  · rw [readRequest, fillerByte_adc hfam]

/-- Settles O46: the register-write builder with the ADC's last address and opcode bytes. -/
theorem buildWriteRegisterAdc : Obligations.BuildWriteRegisterAdc := by
  unfold Obligations.BuildWriteRegisterAdc
  intro c addr count data hfam
  have hlast : lastAddress c.fam = 15 := by rw [hfam, lastAddress]
  refine ⟨buildWriteRegister_count, fun h1 h15 hlen haddr => buildWriteRegister_range h1 h15 hlen (by omega),
    fun h1 h15 hlen haddr => ⟨_, buildWriteRegister_ok h1 h15 hlen (by omega), ?_, rfl, rfl⟩⟩
  rw [writeRequest, hfam, writeOpcode_adc haddr]

/-- Settles O47: the register-read builder with the magnetometer's last address, opcode byte and filler. -/
theorem buildReadRegisterMag : Obligations.BuildReadRegisterMag := by
  unfold Obligations.BuildReadRegisterMag
  intro c addr count hfam
  have hlast : lastAddress c.fam = 127 := by rw [hfam, lastAddress]
  refine ⟨buildReadRegister_count, fun h1 h15 haddr => buildReadRegister_range h1 h15 (by omega),
    fun h1 h15 haddr => ⟨_, buildReadRegister_ok h1 h15 (by omega), ?_, ?_, rfl⟩⟩
  · rw [readRequest, hfam, readOpcode_mag haddr]
  · rw [readRequest, fillerByte_mag hfam]

/-- Settles O48: the register-write builder with the magnetometer's last address and opcode byte. -/
theorem buildWriteRegisterMag : Obligations.BuildWriteRegisterMag := by
  unfold Obligations.BuildWriteRegisterMag
  intro c addr count data hfam
  have hlast : lastAddress c.fam = 127 := by rw [hfam, lastAddress]
  refine ⟨buildWriteRegister_count, fun h1 h15 hlen haddr => buildWriteRegister_range h1 h15 hlen (by omega),
    fun h1 h15 hlen haddr => ⟨_, buildWriteRegister_ok h1 h15 hlen (by omega), ?_, rfl, rfl⟩⟩
  rw [writeRequest, hfam, writeOpcode_mag]

/-- Settles O49: only the streaming poll depends on the configuration, through its family's frame and filler. -/
theorem pollsAndBareCommands : Obligations.PollsAndBareCommands := by
  unfold Obligations.PollsAndBareCommands
  refine ⟨⟨rfl, rfl, rfl, rfl⟩, fun c => ⟨rfl, rfl⟩, fun c hfam => ?_, fun c hfam => ?_,
    fun b => ⟨rfl, rfl, rfl, rfl⟩⟩
  · rw [buildStreamingPoll, hfam, fillerByte_adc hfam]
    exact ⟨rfl, rfl⟩
  · rw [buildStreamingPoll, hfam, fillerByte_mag hfam]
    exact ⟨rfl, rfl⟩

end Sys2Proof.Machine
end

section
/-! ## Opcode bytes that are no row (30_encoding R68 to R71, 42_transactions R117, R118) -/

namespace Sys2Proof.Machine

/-- A request that does not decode runs as `execUndecoded`. -/
theorem runPending_of_undecoded {s : State} {r : Request} {e : DecodeError}
    (hd : decode (r.image s.cfg.fam) = .error e) : runPending r s = execUndecoded r s := by
  simp only [runPending, hd]

/-- Every byte is a row on the magnetometer's bus, so a lone byte that is none is on the ADC's (30_encoding R71). -/
theorem fam_eq_adc_of_decodeWire_error {fam : Family} {b : Byte} {e : DecodeError}
    (h : decodeWire fam [b] = .error e) : fam = .adc := by
  cases fam with
  | adc => rfl
  | mag => cases h

/-- Opcode bytes that are no row open no transaction, but for a lone one. -/
theorem execUndecoded_wire_refused {opcode : List Byte} (h : opcode.length ≠ 1) (data : List Byte) (s : State) :
    execUndecoded (.wire opcode data) s = .refused .malformedWireOpcode := by
  match opcode, h with
  | [], _         => rfl
  | _ :: _ :: _, _ => rfl

/-- Settles O56: one byte runs as the bare command of the ADC, whatever data stands beside it, and any other number of
bytes is refused. -/
theorem undecodedWireRequests : Obligations.UndecodedWireRequests := by
  unfold Obligations.UndecodedWireRequests
  intro s opcode data hrun ⟨e, he⟩
  have hstep : step s = execUndecoded (.wire opcode data) s :=
    (step_running hrun).trans (runPending_of_undecoded he)
  have hbare (b : Byte) (hb : opcode = [b]) : step s = .next (wireEnd (s.transact (buildBare b))) := by
    subst hb
    exact hstep.trans (onFamily_eq_wireEnd (fam_eq_adc_of_decodeWire_error he))
  refine ⟨fun b reply hb hreply => ?_, fun b hb hfail => ?_,
    fun hlen => hstep.trans (execUndecoded_wire_refused hlen data s)⟩
  · have hend := wireEnd_transact_ok (q := buildBare b) hreply
    rw [response_eq_nil rfl] at hend
    exact ⟨_, hbare b hb, hend⟩
  · exact ⟨_, hbare b hb, wireEnd_transact_fails (q := buildBare b) hfail⟩

end Sys2Proof.Machine
end

section
/-! ## The discarded bytes of a reply (42_transactions R110)

Two runs are compared: the states agree on all that an operation looks at, the record aside, when the replies they
would accept agree on the bytes kept. Every shared operation keeps this agreement and comes to the same outcome. -/

namespace Sys2Proof.Machine

/-- The states agree on what an operation that keeps the last `kept` reply bytes can look at: the registers, the latched
request, how a wait ends, whether an exchange is accepted, and those last bytes of its reply. -/
structure State.AgreesKeeping (kept : Nat) (s s' : State) : Prop where
  cfg        : s'.cfg = s.cfg
  mode       : s'.mode = s.mode
  startLevel : s'.startLevel = s.startLevel
  pending    : s'.pending = s.pending
  draws      : s'.draws = s.draws
  wait       : ∀ t, s'.sample.waitOutcome t = s.sample.waitOutcome t
  replies    : ∀ n, (s'.acceptedReply n).map (·.rtake kept) = (s.acceptedReply n).map (·.rtake kept)

/-- Two runs that leave agreeing states and come to the same outcome. -/
def RunsAgree {α : Type} (kept : Nat) (x x' : State × Except OpError α) : Prop :=
  x.1.AgreesKeeping kept x'.1 ∧ x'.2 = x.2

theorem RunsAgree.eq_pair {α : Type} {kept : Nat} {x x' : State × Except OpError α} (h : RunsAgree kept x x') :
    ∃ u u' o, x = (u, o) ∧ x' = (u', o) ∧ u.AgreesKeeping kept u' :=
  ⟨x.1, x'.1, x.2, rfl, Prod.ext rfl h.2, h.1⟩

/-- Wherever the one outcome gives a next state, so does the other, with the same answer and state registers. -/
def AnswersAlike (x x' : Host.Outcome State Fault Refusal) : Prop :=
  ∀ t, x = .next t → ∃ t', x' = .next t' ∧ t'.rsp = t.rsp ∧ t'.wireRsp = t.wireRsp ∧
    t'.mode = t.mode ∧ t'.startLevel = t.startLevel

/-! ### The reply replaced -/

theorem State.withReply_sample {s : State} {p : InputSample} {rest : List InputSample} (hs : s.inputs = p :: rest)
    (reply : List Byte) : (s.withReply reply).sample = { s.sample with reply := some reply } := by
  simp only [State.sample, State.withReply, hs]

/-- A reply of the same length with the same last bytes gives an agreeing state. -/
theorem State.agreesKeeping_withReply {s : State} {p : InputSample} {rest : List InputSample}
    {reply reply' : List Byte} {kept : Nat} (hs : s.inputs = p :: rest) (hp : p.reply = some reply)
    (hlen : reply'.length = reply.length) (hlast : reply'.rtake kept = reply.rtake kept) :
    s.AgreesKeeping kept (s.withReply reply') := by
  have hsample := State.withReply_sample hs reply'
  have hreply : s.sample.reply = some reply := by simp only [State.sample, hs, hp]
  refine ⟨rfl, rfl, rfl, rfl, rfl, fun t => by rw [hsample]; rfl, fun n => ?_⟩
  simp only [State.acceptedReply, hsample, hreply, hlen]
  split
  · rw [Option.map_some, Option.map_some, hlast]
  · rfl

/-! ### The shared operations -/

section
variable {kept : Nat} {s s' : State}

/-- The record is not looked at. -/
theorem State.AgreesKeeping.emit (h : s.AgreesKeeping kept s') (e e' : Event) :
    (s.emit e).AgreesKeeping kept (s'.emit e') :=
  ⟨h.cfg, h.mode, h.startLevel, h.pending, h.draws, h.wait, h.replies⟩

theorem State.AgreesKeeping.withMode (h : s.AgreesKeeping kept s') (m : DeviceMode) :
    { s with mode := m }.AgreesKeeping kept { s' with mode := m } :=
  ⟨h.cfg, rfl, h.startLevel, h.pending, h.draws, h.wait, h.replies⟩

theorem State.AgreesKeeping.setStart (h : s.AgreesKeeping kept s') (b : Bool) :
    (s.setStart b).AgreesKeeping kept (s'.setStart b) :=
  ⟨h.cfg, h.mode, rfl, h.pending, h.draws, h.wait, h.replies⟩

theorem State.AgreesKeeping.pulseStart (h : s.AgreesKeeping kept s') :
    s.pulseStart.AgreesKeeping kept s'.pulseStart :=
  ⟨h.cfg, h.mode, rfl, h.pending, h.draws, h.wait, h.replies⟩

/-- Operations that change nothing and end in the same outcome. -/
theorem State.AgreesKeeping.outcome {α : Type} (h : s.AgreesKeeping kept s') (o : Except OpError α) :
    RunsAgree kept (s, o) (s', o) := ⟨h, rfl⟩

/-- A transaction comes to the same response when the bytes it keeps are those the replies agree on. -/
theorem State.AgreesKeeping.transact (h : s.AgreesKeeping kept s') {q : TransactionRequest}
    (hq : q.responseLength = kept) : RunsAgree kept (s.transact q) (s'.transact q) := by
  have hkept : ∀ r, q.response r = r.rtake kept := fun r => by rw [← hq]; rfl
  have hmap := h.replies q.bytesOut.length
  refine ⟨h.emit _ _, ?_⟩
  rcases transact_cases s q with ⟨r, hr, ht⟩ | ⟨hr, ht⟩ <;>
    rcases transact_cases s' q with ⟨r', hr', ht'⟩ | ⟨hr', ht'⟩ <;> rw [hr, hr'] at hmap <;> rw [ht, ht']
  · rw [hkept, hkept]
    exact congrArg Except.ok (Option.some.inj hmap)
  · cases hmap
  · cases hmap

theorem State.AgreesKeeping.gatedAccess (h : s.AgreesKeeping kept s') (a : Access)
    {built : Except OpError TransactionRequest} (hq : ∀ q, built = .ok q → q.responseLength = kept) :
    RunsAgree kept (s.gatedAccess a built) (s'.gatedAccess a built) := by
  cases built with
  | error e => exact h.outcome _
  | ok q =>
    have hgate : gateClosed s' a ↔ gateClosed s a := by rw [gateClosed, gateClosed, h.mode, h.cfg]
    by_cases hclosed : gateClosed s a
    · rw [gatedAccess_closed hclosed, gatedAccess_closed (hgate.2 hclosed)]
      exact h.outcome _
    · rw [gatedAccess_open hclosed, gatedAccess_open (mt hgate.1 hclosed)]
      exact h.transact (hq q rfl)

/-- A register read keeps as many bytes as its count says. -/
theorem State.AgreesKeeping.registerRead (h : s.AgreesKeeping kept s') (addr : Nat) :
    RunsAgree kept (s.registerRead addr kept) (s'.registerRead addr kept) := by
  unfold State.registerRead
  rw [h.cfg]
  refine h.gatedAccess _ fun q hq => ?_
  rcases buildReadRegister_cases s.cfg addr kept with hb | hb | ⟨-, -, -, hb⟩ <;> rw [hb] at hq <;> cases hq
  rfl

/-- A register write keeps none. -/
theorem State.AgreesKeeping.registerWrite (h : s.AgreesKeeping 0 s') (addr count : Nat) (data : List Byte) :
    RunsAgree 0 (s.registerWrite addr count data) (s'.registerWrite addr count data) := by
  unfold State.registerWrite
  rw [h.cfg]
  refine h.gatedAccess _ fun q hq => ?_
  rcases buildWriteRegister_cases s.cfg addr count data with hb | hb | ⟨-, -, -, -, hb⟩ <;> rw [hb] at hq <;>
    cases hq
  rfl

/-! ### The operations of the device mode -/

/-- The read of RDR keeps its family's frame. -/
theorem State.AgreesKeeping.readSample (h : s.AgreesKeeping kept s') (hk : kept = frameLength s.cfg.fam) :
    RunsAgree kept s.readSample s'.readSample := by
  have htxn : resultTxn s'.cfg s'.mode = resultTxn s.cfg s.mode := by rw [h.cfg, h.mode]
  have hlen : (resultTxn s.cfg s.mode).responseLength = kept := (resultTxn_spec _ _).2.trans hk.symm
  obtain ⟨u, u', o, hx, hx', hu⟩ := (h.transact hlen).eq_pair
  unfold State.readSample
  rw [htxn, hx, hx']
  cases o with
  | error e => exact hu.outcome _
  | ok d => exact ⟨hu, congrArg (fun c : BlockConfig => convertSample c.fam d) hu.cfg⟩

theorem State.AgreesKeeping.readPending (h : s.AgreesKeeping kept s') (hk : kept = frameLength s.cfg.fam) :
    RunsAgree kept s.readPending s'.readPending := by
  obtain ⟨u, u', o, hx, hx', hu⟩ := (h.readSample hk).eq_pair
  unfold State.readPending
  rw [hx, hx']
  cases o with
  | error e => exact hu.outcome _
  | ok r => exact (hu.withMode .idle).outcome _

theorem State.AgreesKeeping.readResult (h : s.AgreesKeeping kept s') (hk : kept = frameLength s.cfg.fam) (t : Nat) :
    RunsAgree kept (s.readResult t) (s'.readResult t) := by
  cases hm : s.mode with
  | idle => simp only [State.readResult, h.mode, hm]; exact h.outcome _
  | continuous => simp only [State.readResult, h.mode, hm]; exact h.readSample hk
  | conversionPending =>
    simp only [State.readResult, h.mode, hm, State.waitReady, h.wait]
    cases s.sample.waitOutcome t with
    | timedOut | cancelled => exact (h.emit _ _).outcome _
    | ready => exact (h.emit _ _).readPending hk

theorem State.AgreesKeeping.startSingle (h : s.AgreesKeeping kept s') :
    RunsAgree kept s.startSingle s'.startSingle := by
  cases hm : s.mode <;> simp only [State.startSingle, h.mode, hm]
  case idle => exact (h.pulseStart.withMode _).outcome _
  all_goals exact h.outcome _

theorem State.AgreesKeeping.startContinuous (h : s.AgreesKeeping kept s') :
    RunsAgree kept s.startContinuous s'.startContinuous := by
  cases hm : s.mode <;> simp only [State.startContinuous, h.mode, hm]
  case idle => exact ((h.setStart true).withMode _).outcome _
  all_goals exact h.outcome _

theorem State.AgreesKeeping.stopConversion (h : s.AgreesKeeping kept s') :
    RunsAgree kept s.stopConversion s'.stopConversion := by
  cases hm : s.mode <;> simp only [State.stopConversion, h.mode, hm]
  case idle => exact h.outcome _
  all_goals exact ((h.setStart false).withMode _).outcome _

/-! ### The answer -/

/-- Agreeing states give one outcome the same response, also where the result port is free. -/
theorem State.AgreesKeeping.respond (h : s.AgreesKeeping kept s') (o : Except OpError Result) :
    AnswersAlike (.next (s.respond o)) (.next (s'.respond o)) := by
  intro t ht
  cases ht
  exact ⟨_, rfl, by rw [State.respond_rsp, State.respond_rsp, h.draws], rfl, h.mode, h.startLevel⟩

/-- A pure operation looks at the latched request alone. -/
theorem State.AgreesKeeping.answersAlike_of_isPure (h : s.AgreesKeeping kept s') {i : Instr} (hi : isPure i = true) :
    AnswersAlike (exec i s) (exec i s') := by
  obtain ⟨o, hs, hs'⟩ := exec_pure hi h.pending.symm
  rw [hs, hs']
  exact h.respond o

/-- Agreeing runs are answered alike on the response port. -/
theorem RunsAgree.respond {α : Type} {x x' : State × Except OpError α} (h : RunsAgree kept x x')
    (f : Except OpError α → Except OpError Result) :
    AnswersAlike (.next (x.1.respond (f x.2))) (.next (x'.1.respond (f x'.2))) := by
  obtain ⟨hstate, hout⟩ := h
  rw [hout]
  exact hstate.respond _

/-- Agreeing runs are answered alike on the host's own path. -/
theorem State.AgreesKeeping.onFamily {x x' : State × Except OpError (List Byte)} (h : s.AgreesKeeping kept s')
    (hrun : RunsAgree kept x x') (fam : Family) : AnswersAlike (onFamily fam s x) (onFamily fam s' x') := by
  obtain ⟨hstate, hout⟩ := hrun
  intro t ht
  obtain ⟨hfam, rfl⟩ := onFamily_next ht
  exact ⟨_, onFamily_eq_wireEnd (by rw [h.cfg, hfam]), rfl, by rw [wireEnd, hout]; rfl, hstate.mode,
    hstate.startLevel⟩

theorem State.AgreesKeeping.adcBare (h : s.AgreesKeeping 0 s') (b : Byte) :
    AnswersAlike (adcBare b s) (adcBare b s') := h.onFamily (h.transact rfl) .adc

/-- The data on the host's own path is that of the latched request. -/
theorem State.wireData_congr (h : s'.pending = s.pending) : s'.wireData = s.wireData := by
  simp only [State.wireData, h]

end

/-- States that agree on the bytes an instruction keeps are answered alike by it. -/
theorem exec_answersAlike (i : Instr) {s s' : State} (h : s.AgreesKeeping (keptBytes s i) s') :
    AnswersAlike (exec i s) (exec i s') := by
  have hlane : s'.unsignedLane = s.unsignedLane := State.unsignedLane_congr h.pending
  have hbytes : s'.operandBytes = s.operandBytes := State.operandBytes_congr h.pending
  have hdata : s'.wireData = s.wireData := State.wireData_congr h.pending
  cases i with
  | decs | encs | decf | cvadc | cvmag => exact h.answersAlike_of_isPure rfl
  | sts => exact h.startSingle.respond id
  | stc => exact h.startContinuous.respond id
  | stp => exact h.stopConversion.respond id
  | rdr =>
    rw [exec, exec, execRdr, execRdr, hlane]
    exact (h.readResult rfl _).respond id
  | rrg cnt addr => exact (h.registerRead addr).respond (Except.map .bytes)
  | wrg cnt addr =>
    rw [exec, exec, execWrg, execWrg, hbytes]
    exact (h.registerWrite addr cnt _).respond (Except.map fun _ => .none)
  | adcRreg address n => exact h.onFamily (h.registerRead address) .adc
  | adcWreg address n =>
    rw [exec, exec, execAdcWreg, execAdcWreg, hdata]
    exact h.onFamily (h.registerWrite address _ _) .adc
  | adcReset | adcWake | adcSleep | adcNop | adcRdatac | adcSdatac => exact h.adcBare _
  | adcRdata => exact h.onFamily (h.transact rfl) .adc
  | magRead address =>
    rw [exec, exec, execMagRead, execMagRead, hdata]
    exact h.onFamily (h.registerRead address) .mag
  | magWrite address =>
    rw [exec, exec, execMagWrite, execMagWrite, hdata]
    exact h.onFamily (h.registerWrite address _ _) .mag

/-- Settles O42: the state with the other reply agrees with the given one on the bytes the instruction keeps. -/
theorem discardedReplyBytesDoNotMatter : Obligations.DiscardedReplyBytesDoNotMatter := by
  unfold Obligations.DiscardedReplyBytesDoNotMatter
  intro i s t p rest reply reply' hs hp hlen hlast hexec
  have hkept : reply'.rtake (keptBytes s i) = reply.rtake (keptBytes s i) := by
    rw [List.rtake, List.rtake, hlen, hlast]
  exact exec_answersAlike i (State.agreesKeeping_withReply hs hp hlen hkept) t hexec

end Sys2Proof.Machine
end

section
/-! ## The device mode: STS, STC, STP and RDR (43_device_mode R131 to R135, R141, R142) -/

namespace Sys2Proof.Machine

/-! ### The answer of an operation of the command port -/

/-- The state with `evs` added to its record. -/
def State.after (s : State) (evs : List Event) : State := { s with trace := s.trace ++ evs }

theorem State.emit_emit_eq_after (s : State) (e e' : Event) : (s.emit e).emit e' = s.after [e, e'] := by
  simp [State.emit, State.after]

/-- The state in which a run of the command port ends. -/
def portEnd (run : State × Except OpError Result) : State := run.1.respond run.2

/-- An error before any event touches nothing. -/
theorem portEnd_error (s : State) (e : OpError) :
    AnswersError s (portEnd (s, .error e)) e ∧ Untouched s (portEnd (s, .error e)) := s.respond_error e

/-- A run that only records events answers with its outcome. -/
theorem portEnd_after (s : State) (evs : List Event) (o : Except OpError Result) :
    Answers s (portEnd (s.after evs, o)) (response s.draws o) ∧ OnlyEvents s (portEnd (s.after evs, o)) evs :=
  ⟨⟨rfl, rfl, rfl, rfl, rfl, rfl⟩, rfl, rfl, rfl⟩

/-- A run that records events and fails leaves the state registers (60_exceptions R190). -/
theorem portEnd_after_error (s : State) (evs : List Event) (e : OpError) :
    AnswersError s (portEnd (s.after evs, .error e)) e ∧ OnlyEvents s (portEnd (s.after evs, .error e)) evs := by
  obtain ⟨hans, honly⟩ := portEnd_after s evs (.error e)
  exact ⟨⟨_, hans, rfl⟩, honly⟩

/-! ### Starting and stopping -/

section
variable {s : State}

theorem State.startSingle_idle (hm : s.mode = .idle) :
    s.startSingle = ({ s.pulseStart with mode := .conversionPending }, .ok .none) := by
  simp only [State.startSingle, hm]

theorem State.startSingle_illegal (hm : s.mode ≠ .idle) : s.startSingle = (s, .error .illegalStateError) := by
  unfold State.startSingle
  split
  next h => exact absurd h hm
  next => rfl

theorem State.startContinuous_idle (hm : s.mode = .idle) :
    s.startContinuous = ({ s.setStart true with mode := .continuous }, .ok .none) := by
  simp only [State.startContinuous, hm]

theorem State.startContinuous_illegal (hm : s.mode ≠ .idle) :
    s.startContinuous = (s, .error .illegalStateError) := by
  unfold State.startContinuous
  split
  next h => exact absurd h hm
  next => rfl

theorem State.stopConversion_illegal (hm : s.mode = .idle) : s.stopConversion = (s, .error .illegalStateError) := by
  simp only [State.stopConversion, hm]

theorem State.stopConversion_active (hm : s.mode ≠ .idle) :
    s.stopConversion = ({ s.setStart false with mode := .idle }, .ok .none) := by
  unfold State.stopConversion
  split
  next h => exact absurd h hm
  next => rfl

end

/-- Settles O28, by the two rows of STS in the transition table. -/
theorem stsMeaning : Obligations.StsMeaning := by
  unfold Obligations.StsMeaning
  intro s
  have hexec : exec .sts s = .next (portEnd s.startSingle) := rfl
  refine ⟨fun hm => ⟨_, hexec, ?_⟩, fun hm => ⟨_, hexec, ?_⟩⟩
  · rw [State.startSingle_idle hm]
    exact ⟨⟨rfl, rfl, rfl, rfl, rfl, rfl⟩, rfl, rfl, rfl⟩
  · rw [State.startSingle_illegal hm]
    exact portEnd_error s _

/-- Settles O29, by the two rows of STC in the transition table. -/
theorem stcMeaning : Obligations.StcMeaning := by
  unfold Obligations.StcMeaning
  intro s
  have hexec : exec .stc s = .next (portEnd s.startContinuous) := rfl
  refine ⟨fun hm => ⟨_, hexec, ?_⟩, fun hm => ⟨_, hexec, ?_⟩⟩
  · rw [State.startContinuous_idle hm]
    exact ⟨⟨rfl, rfl, rfl, rfl, rfl, rfl⟩, rfl, rfl, rfl⟩
  · rw [State.startContinuous_illegal hm]
    exact portEnd_error s _

/-- Settles O30, by the two rows of STP in the transition table. -/
theorem stpMeaning : Obligations.StpMeaning := by
  unfold Obligations.StpMeaning
  intro s
  have hexec : exec .stp s = .next (portEnd s.stopConversion) := rfl
  refine ⟨fun hm => ⟨_, hexec, ?_⟩, fun hm => ⟨_, hexec, ?_⟩⟩
  · rw [State.stopConversion_active hm]
    exact ⟨⟨rfl, rfl, rfl, rfl, rfl, rfl⟩, rfl, rfl, rfl⟩
  · rw [State.stopConversion_illegal hm]
    exact portEnd_error s _

/-! ### RDR -/

section
variable {s : State} {reply : List Byte}

/-- The read of RDR on a reply: the frame is made of the bytes its transaction keeps (R133, R141). -/
theorem State.readSample_of_replies (h : Replies s (resultBytes s.cfg s.mode) reply) :
    s.readSample = (s.emit (.exchange (resultBytes s.cfg s.mode) (some reply)),
      convertSample s.cfg.fam (reply.drop (reply.length - frameLength s.cfg.fam))) := by
  obtain ⟨hbytes, hkept⟩ := resultTxn_spec s.cfg s.mode
  rw [← hbytes] at h ⊢
  rw [← hkept, State.readSample, State.transact_ok (State.acceptedReply_eq_some.2 h)]
  rfl

/-- The read of RDR without a reply (60_exceptions R188). -/
theorem State.readSample_of_fails (h : ExchangeFails s (resultBytes s.cfg s.mode)) :
    s.readSample = (s.emit (.exchange (resultBytes s.cfg s.mode) none), .error .transportError) := by
  obtain ⟨hbytes, -⟩ := resultTxn_spec s.cfg s.mode
  rw [← hbytes] at h ⊢
  rw [State.readSample, State.transact_fails (State.acceptedReply_eq_none.2 h)]

/-- What RDR keeps of a reply is as long as its family's frame. -/
theorem kept_length_of_replies (h : Replies s (resultBytes s.cfg s.mode) reply) :
    (reply.drop (reply.length - frameLength s.cfg.fam)).length = frameLength s.cfg.fam := by
  obtain ⟨hle, -⟩ := frameLength_le_resultBytes s.cfg s.mode
  obtain ⟨-, hlen⟩ := h
  rw [List.length_drop]
  omega

theorem State.readPending_of_replies (h : Replies s (resultBytes s.cfg s.mode) reply) :
    s.readPending = ({ s.emit (.exchange (resultBytes s.cfg s.mode) (some reply)) with mode := .idle },
      convertSample s.cfg.fam (reply.drop (reply.length - frameLength s.cfg.fam))) := by
  obtain ⟨r, hr⟩ := convertSample_ok (kept_length_of_replies h)
  rw [State.readPending, State.readSample_of_replies h, hr]

theorem State.readPending_of_fails (h : ExchangeFails s (resultBytes s.cfg s.mode)) :
    s.readPending = (s.emit (.exchange (resultBytes s.cfg s.mode) none), .error .transportError) := by
  rw [State.readPending, State.readSample_of_fails h]

theorem State.readResult_idle (hm : s.mode = .idle) (t : Nat) :
    s.readResult t = (s, .error .illegalStateError) := by
  simp only [State.readResult, hm]

theorem State.readResult_continuous (hm : s.mode = .continuous) (t : Nat) : s.readResult t = s.readSample := by
  simp only [State.readResult, hm]

/-- What follows the data-ready wait of RDR, by its outcome (R133, R142). -/
def State.afterWait (s : State) : WaitOutcome → State × Except OpError Result
  | .timedOut  => (s, .error .timeoutError)
  | .cancelled => (s, .error .cancelled)
  | .ready     => s.readPending

theorem State.readResult_conversionPending (hm : s.mode = .conversionPending) (t : Nat) :
    s.readResult t =
      (s.emit (.wait t s.cfg.tick (s.sample.waitOutcome t))).afterWait (s.sample.waitOutcome t) := by
  simp only [State.readResult, hm, State.waitReady]
  cases s.sample.waitOutcome t <;> rfl

end

/-- Settles O31: Idle refuses, ConversionPending waits and then reads, Continuous reads at once; a read is an exchange
that fails, or one whose reply makes the frame. -/
theorem rdrMeaning : Obligations.RdrMeaning := by
  unfold Obligations.RdrMeaning
  intro s ticks waited out
  have hexec : exec .rdr s = .next (portEnd (s.readResult ticks)) := rfl
  have hwait (hm : s.mode = .conversionPending) {w : WaitOutcome} (hw : s.sample.waitOutcome ticks = w) :
      s.readResult ticks = (s.emit waited).afterWait w :=
    hw ▸ State.readResult_conversionPending hm ticks
  refine ⟨fun hm => ⟨_, hexec, ?_⟩, fun hm hw => ⟨_, hexec, ?_⟩, fun hm hw => ⟨_, hexec, ?_⟩,
    fun hm hw hfail => ⟨_, hexec, ?_⟩, fun reply hm hw hreply => ?_,
    fun hm hfail => ⟨_, hexec, ?_⟩, fun reply hm hreply => ?_⟩
  · rw [State.readResult_idle hm]
    exact portEnd_error s _
  · rw [hwait hm hw]
    exact portEnd_after_error s [waited] _
  · rw [hwait hm hw]
    exact portEnd_after_error s [waited] _
  · rw [hwait hm hw, State.afterWait, State.readPending_of_fails (s := s.emit waited) hfail, State.emit_emit_eq_after]
    exact portEnd_after_error s _ _
  · rw [hwait hm hw, State.afterWait, State.readPending_of_replies (s := s.emit waited) hreply,
      State.emit_emit_eq_after] at hexec
    exact ⟨_, _, hexec, ⟨rfl, rfl, rfl, rfl, rfl, rfl⟩, convertSample_carries (kept_length_of_replies hreply) _,
      rfl, rfl, rfl⟩
  · rw [State.readResult_continuous hm, State.readSample_of_fails hfail]
    exact portEnd_after_error s _ _
  · obtain ⟨hans, honly⟩ := portEnd_after s [.exchange out (some reply)]
      (convertSample s.cfg.fam (reply.drop (reply.length - frameLength s.cfg.fam)))
    rw [State.readResult_continuous hm, State.readSample_of_replies hreply] at hexec
    exact ⟨_, _, hexec, hans, convertSample_carries (kept_length_of_replies hreply) _, honly⟩

end Sys2Proof.Machine
end

section
/-! ## The gated register access on the command port: RRG and WRG (43_device_mode R136 to R139) -/

namespace Sys2Proof.Machine

/-- A register read that the builder refuses for its address touches nothing (R136). -/
theorem State.registerRead_range {s : State} {addr count : Nat} (h1 : 1 ≤ count) (h15 : count ≤ 15)
    (haddr : lastAddress s.cfg.fam < addr) : s.registerRead addr count = (s, .error .rangeError) := by
  rw [State.registerRead, buildReadRegister_range h1 h15 haddr, State.gatedAccess]

/-- A register write that the builder refuses for its address touches nothing (R137). -/
theorem State.registerWrite_range {s : State} {addr count : Nat} {data : List Byte} (h1 : 1 ≤ count)
    (h15 : count ≤ 15) (hlen : data.length = count) (haddr : lastAddress s.cfg.fam < addr) :
    s.registerWrite addr count data = (s, .error .rangeError) := by
  rw [State.registerWrite, buildWriteRegister_range h1 h15 hlen haddr, State.gatedAccess]

/-- The state in which a register access of the command port ends, `f` making a result of what it returns. -/
def accessEnd (f : List Byte → Result) (run : State × Except OpError (List Byte)) : State :=
  portEnd (run.1, run.2.map f)

theorem exec_rrg (cnt addr : Nat) (s : State) :
    exec (.rrg cnt addr) s = .next (accessEnd .bytes (s.registerRead addr cnt)) := rfl

theorem exec_wrg (cnt addr : Nat) (s : State) :
    exec (.wrg cnt addr) s = .next (accessEnd (fun _ => .none) (s.registerWrite addr cnt s.operandBytes)) := rfl

/-- An access refused before its exchange touches nothing. -/
theorem accessEnd_error (f : List Byte → Result) (s : State) (e : OpError) :
    AnswersError s (accessEnd f (s, .error e)) e ∧ Untouched s (accessEnd f (s, .error e)) := portEnd_error s e

/-- What `x`, a register access of `s` inside its domains, answers on the command port: the gate first, then the
exchange of `out`, whose reply gives `result` (R136 to R139). -/
structure AnswersAccess (x : Host.Outcome State Fault Refusal) (s : State) (a : Access) (out : List Byte)
    (result : List Byte → Result) : Prop where
  closed : gateClosed s a → ∃ t, x = .next t ∧ AnswersError s t .illegalStateError ∧ Untouched s t
  fails : ¬gateClosed s a → ExchangeFails s out →
    ∃ t, x = .next t ∧ AnswersError s t .transportError ∧ OnlyEvents s t [.exchange out none]
  answers : ∀ reply, ¬gateClosed s a → Replies s out reply →
    ∃ t, x = .next t ∧ Answers s t (response s.draws (.ok (result reply))) ∧
      OnlyEvents s t [.exchange out (some reply)]

theorem answersAccess_gatedAccess (f : List Byte → Result) (s : State) (a : Access) (q : TransactionRequest) :
    AnswersAccess (.next (accessEnd f (s.gatedAccess a (.ok q)))) s a q.bytesOut
      (fun reply => f (q.response reply)) where
  closed hgate := ⟨_, rfl, by rw [gatedAccess_closed hgate]; exact accessEnd_error f s _⟩
  fails hgate hfail := ⟨_, rfl, by
    rw [gatedAccess_open hgate, State.transact_fails (State.acceptedReply_eq_none.2 hfail)]
    exact portEnd_after_error s _ _⟩
  answers reply hgate hreply := ⟨_, rfl, by
    rw [gatedAccess_open hgate, State.transact_ok (State.acceptedReply_eq_some.2 hreply)]
    exact portEnd_after s _ _⟩

/-- RRG inside its domains answers the last `cnt` bytes of the reply (R136, 42_transactions R112, R114). -/
theorem exec_rrg_answersAccess {s : State} {cnt addr : Nat} (h1 : 1 ≤ cnt) (h15 : cnt ≤ 15)
    (haddr : addr ≤ lastAddress s.cfg.fam) :
    AnswersAccess (exec (.rrg cnt addr) s) s { addr := addr, count := cnt, dir := .read } (readBytes s.cfg addr cnt)
      (fun reply => .bytes (reply.drop (reply.length - cnt))) := by
  rw [exec_rrg, State.registerRead, buildReadRegister_ok h1 h15 haddr, ← readRequest_bytesOut haddr]
  exact answersAccess_gatedAccess .bytes s _ (readRequest s.cfg addr cnt)

/-- WRG inside its domains answers no result (R137, 42_transactions R113, R115). -/
theorem exec_wrg_answersAccess {s : State} {cnt addr : Nat} (h1 : 1 ≤ cnt) (h15 : cnt ≤ 15)
    (hlen : s.operandBytes.length = cnt) (haddr : addr ≤ lastAddress s.cfg.fam) :
    AnswersAccess (exec (.wrg cnt addr) s) s { addr := addr, count := cnt, dir := .write }
      (writeBytes s.cfg addr cnt s.operandBytes) (fun _ => .none) := by
  rw [exec_wrg, State.registerWrite, buildWriteRegister_ok h1 h15 hlen haddr, ← writeRequest_bytesOut haddr]
  exact answersAccess_gatedAccess (fun _ => .none) s _ (writeRequest s.cfg addr cnt s.operandBytes)

/-- Settles O32: the builder refuses the count or the address, or the access runs; the bytes kept fit the port. -/
theorem rrgMeaning : Obligations.RrgMeaning := by
  unfold Obligations.RrgMeaning
  intro s cnt addr out access
  refine ⟨fun hcnt => ⟨_, exec_rrg cnt addr s, ?_⟩, fun h1 h15 haddr => ⟨_, exec_rrg cnt addr s, ?_⟩,
    fun h1 h15 haddr => (exec_rrg_answersAccess h1 h15 haddr).closed,
    fun h1 h15 haddr => (exec_rrg_answersAccess h1 h15 haddr).fails, fun reply h1 h15 haddr hgate hreply => ?_⟩
  · rw [State.registerRead_count hcnt]
    exact accessEnd_error _ s _
  · rw [State.registerRead_range h1 h15 haddr]
    exact accessEnd_error _ s _
  · obtain ⟨t, hexec, hans, honly⟩ := (exec_rrg_answersAccess h1 h15 haddr).answers reply hgate hreply
    have hkept : (reply.drop (reply.length - cnt)).length = cnt := by
      have hsent : cnt + 1 ≤ out.length := (readBytes_length s.cfg addr cnt).1
      have hlen : reply.length = out.length := hreply.2
      rw [List.length_drop]
      omega
    obtain ⟨hport, hrest⟩ := resultBytes_port (b := reply.drop (reply.length - cnt)) (by omega)
    rw [hkept] at hport hrest
    refine ⟨t, _, hexec, hans, rfl, hport, hrest, ?_, honly⟩
    rw [response, Result.length, hkept, BitVec.toNat_ofNat]
    omega

/-- Settles O33: the builder refuses the count, the length of the data or the address, or the access runs. -/
theorem wrgMeaning : Obligations.WrgMeaning := by
  unfold Obligations.WrgMeaning
  intro s cnt addr data out access
  refine ⟨fun hcnt => ⟨_, exec_wrg cnt addr s, ?_⟩, fun h1 h15 hlen haddr => ⟨_, exec_wrg cnt addr s, ?_⟩,
    fun h1 h15 hlen haddr => (exec_wrg_answersAccess h1 h15 hlen haddr).closed,
    fun h1 h15 hlen haddr => (exec_wrg_answersAccess h1 h15 hlen haddr).fails,
    fun reply h1 h15 hlen haddr => (exec_wrg_answersAccess h1 h15 hlen haddr).answers reply⟩
  · rw [State.registerWrite_count hcnt]
    exact accessEnd_error _ s _
  · rw [State.registerWrite_range h1 h15 hlen haddr]
    exact accessEnd_error _ s _

end Sys2Proof.Machine
end

section
/-! ## What moves the mode, and what the host's own path and a reset leave (43_device_mode R140, 70_reset_and_hazards
R210 to R212) -/

namespace Sys2Proof.Machine

/-! ### The mode (R140) -/

/-- An operation that does not move the mode leaves it, whatever it does to the block. -/
theorem Effect.mode_eq {i : Instr} {s s' : State} {err : Option OpError} (h : Effect i s s' err)
    (hi : movesMode i = false) : s'.mode = s.mode := by
  cases h with
  | operandError | illegal | pure | exchanged | exchangeFailed | waitEnded | waitedFailed => rfl
  | waitedRead _ _ _ hrdr => cases hrdr; cases hi
  | started hsts => cases hsts; cases hi
  | startedContinuous hstc => cases hstc; cases hi
  | stopped hstp => cases hstp; cases hi

theorem exec_mode_eq {i : Instr} {s t : State} (h : exec i s = .next t) (hi : movesMode i = false) :
    t.mode = s.mode := by
  obtain ⟨s', err, heff, hend⟩ := exec_effect h
  obtain ⟨-, hmode, -⟩ := hend.fields
  exact hmode.trans (heff.mode_eq hi)

theorem execUndecoded_mode_eq {r : Request} {s t : State} (h : execUndecoded r s = .next t) : t.mode = s.mode := by
  rcases execUndecoded_cases h with ⟨-, rfl⟩ | ⟨-, b, rfl⟩ <;> rfl

/-- Only a command word decodes to an operation that moves the mode. -/
theorem command_of_movesMode {r : Request} {fam : Family} {i : Instr} (hdec : decode (r.image fam) = .ok i)
    (hi : movesMode i = true) : ∃ cw opd n, r = .command cw opd n ∧ decodeCommand cw = .ok i := by
  cases r with
  | command cw opd n => exact ⟨cw, opd, n, rfl, hdec⟩
  | wire opcode data => exact absurd hi (by simp [movesMode_of_decodeWire hdec])

/-- Settles O35: of the four cases of `step_cases` only a reset and the request that runs can move the mode, the latter
only as one of the four operations, which are commands. -/
theorem onlyFourOperationsAndResetMoveTheMode : Obligations.OnlyFourOperationsAndResetMoveTheMode := by
  unfold Obligations.OnlyFourOperationsAndResetMoveTheMode
  intro s t hstep hmoved
  rcases step_cases hstep with ⟨hrst, -⟩ | ⟨-, -, -, rfl⟩ | ⟨r, -, -, -, rfl⟩ | ⟨r, t', -, hpend, -, rfl, hrun⟩
  · exact .inl hrst
  · exact absurd s.idleStep_mode hmoved
  · exact absurd (s.accept_mode r) hmoved
  · rcases hrun with ⟨i, hdec, hexec⟩ | ⟨e, -, hexec⟩
    · have hi : movesMode i = true := by
        by_contra hi
        exact hmoved ((t'.followedBy_mode _).trans (exec_mode_eq hexec (Bool.eq_false_iff.2 hi)))
      obtain ⟨cw, opd, n, rfl, hcw⟩ := command_of_movesMode hdec hi
      exact .inr ⟨cw, opd, n, i, hpend, hcw, hi⟩
    · exact absurd ((t'.followedBy_mode _).trans (execUndecoded_mode_eq hexec)) hmoved

/-! ### Acceptance on the host's own path (logs 8, 15) -/

/-- Settles O9: a step that accepts leaves `accept` of the transaction. -/
theorem hostPathRequestIsAccepted : Obligations.HostPathRequestIsAccepted := by
  unfold Obligations.HostPathRequestIsAccepted
  intro s opcode data hadm hrst hpend hreq
  exact ⟨_, step_accept hadm hrst hpend hreq, rfl, rfl, rfl, rfl, rfl, rfl, s.accept_untouched _⟩

/-! ### The reset event (log 10) -/

theorem step_eq_resetEvent {s : State} (hadm : s.cfg.admitted = true) (hrst : s.sample.rst = true) :
    step s = .next s.resetEvent := by
  simp [step, hadm, admittedStep, hrst]

/-- A command in progress is gone after a reset, and marked as abandoned (R212). -/
theorem State.resetEvent_of_command {s : State} {cw : CommandWord} {opd : PortWord} {n : BitVec 5}
    (h : s.pending = some (.command cw opd n)) :
    s.resetEvent.pending = none ∧ s.abandonEvents = [.abandoned (.command cw opd n)] := by
  constructor
  · rw [State.resetEvent_pending, h]
    rfl
  · simp only [State.abandonEvents, h]

/-- With no command in progress a reset abandons nothing. -/
theorem State.resetEvent_of_not_busy {s : State} (h : s.busyO = false) :
    s.resetEvent.pending = s.pending ∧ s.abandonEvents = [] := by
  rw [State.busyO_eq] at h
  rw [State.resetEvent_pending, State.abandonEvents]
  match hp : s.pending with
  | none => exact ⟨rfl, rfl⟩
  | some (.wire opcode data) => exact ⟨rfl, rfl⟩
  | some (.command cw opd n) => rw [hp] at h; cases h

/-- Settles O12: the step is the reset event, whose record depends on whether a command was in progress. -/
theorem resetEventReachesResetValues : Obligations.ResetEventReachesResetValues := by
  unfold Obligations.ResetEventReachesResetValues
  intro s hadm hrst
  refine ⟨_, step_eq_resetEvent hadm hrst, rfl, rfl, s.resetEvent_busyO, rfl, rfl, rfl, ?_, ?_⟩
  · intro cw opd n hpend
    obtain ⟨hnone, hmark⟩ := State.resetEvent_of_command hpend
    exact ⟨hnone, by rw [State.resetEvent_trace, hmark, State.dropLineEvents]⟩
  · intro hbusy
    obtain ⟨hkept, hmark⟩ := State.resetEvent_of_not_busy hbusy
    exact ⟨hkept, by rw [State.resetEvent_trace, hmark, List.append_nil, State.dropLineEvents]⟩

end Sys2Proof.Machine
end

section
/-! ## Outside the wait: the cancel request and the ready line (43_device_mode R142, 60_exceptions R194, R195)

Two runs are compared, from states that differ in their coming sample alone, and not in its reply. The sample is looked
at by a wait and by an exchange, and used up by the answer; so without a wait the two runs end in one state. -/

namespace Sys2Proof.Machine

/-- The states differ at most in the sample of this step and in what stands on the ports, both gone after it; and the
sample's reply is the same. -/
structure State.SameButWait (s s' : State) : Prop where
  consume : s'.consume = s.consume
  reply   : s'.sample.reply = s.sample.reply

/-- Two runs that come to the same outcome and the same state, the used sample and the ports aside. -/
def EndsAlike {α : Type} (x x' : State × Except OpError α) : Prop := x'.1.consume = x.1.consume ∧ x'.2 = x.2

theorem EndsAlike.eq_pair {α : Type} {x x' : State × Except OpError α} (h : EndsAlike x x') :
    ∃ u u' o, x = (u, o) ∧ x' = (u', o) ∧ u'.consume = u.consume :=
  ⟨x.1, x'.1, x.2, rfl, Prod.ext rfl h.2, h.1⟩

theorem State.cfg_congr {s s' : State} (h : s'.consume = s.consume) : s'.cfg = s.cfg := by
  simpa using congrArg State.cfg h

/-! ### The answer -/

theorem State.respond_congr {s s' : State} (h : s'.consume = s.consume) (o : Except OpError Result) :
    s'.respond o = s.respond o := by
  have hdraws : s'.draws = s.draws := Nat.succ.inj (congrArg State.draws h)
  rw [State.respond, State.respond, h, hdraws]

theorem State.respondWire_congr {s s' : State} (h : s'.consume = s.consume) (o : Except OpError (List Byte)) :
    s'.respondWire o = s.respondWire o := by
  unfold State.respondWire
  rw [h]

/-- Runs that end alike answer alike on the response port; `f` makes their result one for it. -/
theorem EndsAlike.respond {α : Type} {x x' : State × Except OpError α} (h : EndsAlike x x')
    (f : Except OpError α → Except OpError Result) :
    (.next (x'.1.respond (f x'.2)) : Host.Outcome State Fault Refusal) = .next (x.1.respond (f x.2)) := by
  obtain ⟨hstate, hout⟩ := h
  rw [hout, State.respond_congr hstate]

section
variable {s s' : State}

theorem State.SameButWait.cfg (h : s.SameButWait s') : s'.cfg = s.cfg := State.cfg_congr h.consume

theorem State.SameButWait.mode (h : s.SameButWait s') : s'.mode = s.mode := by
  simpa using congrArg State.mode h.consume

theorem State.SameButWait.pending (h : s.SameButWait s') : s'.pending = s.pending := by
  simpa using congrArg State.pending h.consume

/-- Runs that end alike answer alike on the host's own path. -/
theorem State.SameButWait.onFamily (h : s.SameButWait s') {x x' : State × Except OpError (List Byte)}
    (hrun : EndsAlike x x') (fam : Family) : onFamily fam s' x' = onFamily fam s x := by
  obtain ⟨hstate, hout⟩ := hrun
  rw [Machine.onFamily, Machine.onFamily, h.cfg, hout, State.respondWire_congr hstate]

/-- A pure operation looks at the latched request alone. -/
theorem State.SameButWait.exec_of_isPure (h : s.SameButWait s') {i : Instr} (hi : isPure i = true) :
    exec i s' = exec i s := by
  obtain ⟨o, hs, hs'⟩ := exec_pure hi h.pending.symm
  rw [hs, hs', State.respond_congr h.consume]

/-! ### The shared operations -/

/-- Operations that change nothing and end in the same outcome. -/
theorem State.SameButWait.outcome {α : Type} (h : s.SameButWait s') (o : Except OpError α) :
    EndsAlike (s, o) (s', o) := ⟨h.consume, rfl⟩

/-- A transaction looks at the reply alone. -/
theorem State.SameButWait.transact (h : s.SameButWait s') (q : TransactionRequest) :
    EndsAlike (s.transact q) (s'.transact q) := by
  have haccepted : s'.acceptedReply q.bytesOut.length = s.acceptedReply q.bytesOut.length := by
    rw [State.acceptedReply, State.acceptedReply, h.reply]
  rw [State.transact, State.transact, haccepted]
  exact ⟨congrArg (State.emit · _) h.consume, rfl⟩

theorem State.SameButWait.gatedAccess (h : s.SameButWait s') (a : Access)
    (built : Except OpError TransactionRequest) : EndsAlike (s.gatedAccess a built) (s'.gatedAccess a built) := by
  cases built with
  | error e => exact h.outcome _
  | ok q =>
    have hgate : s'.gateRefuses a = s.gateRefuses a := by rw [State.gateRefuses, State.gateRefuses, h.mode, h.cfg]
    simp only [State.gatedAccess, hgate]
    split
    · exact h.outcome _
    · exact h.transact q

theorem State.SameButWait.registerRead (h : s.SameButWait s') (addr count : Nat) :
    EndsAlike (s.registerRead addr count) (s'.registerRead addr count) := by
  rw [State.registerRead, State.registerRead, h.cfg]
  exact h.gatedAccess _ _

theorem State.SameButWait.registerWrite (h : s.SameButWait s') (addr count : Nat) (data : List Byte) :
    EndsAlike (s.registerWrite addr count data) (s'.registerWrite addr count data) := by
  rw [State.registerWrite, State.registerWrite, h.cfg]
  exact h.gatedAccess _ _

/-! ### The operations of the device mode -/

theorem State.SameButWait.startSingle (h : s.SameButWait s') : EndsAlike s.startSingle s'.startSingle := by
  by_cases hm : s.mode = .idle
  · rw [State.startSingle_idle hm, State.startSingle_idle (h.mode.trans hm)]
    exact ⟨congrArg (fun u : State => { u.pulseStart with mode := .conversionPending }) h.consume, rfl⟩
  · rw [State.startSingle_illegal hm, State.startSingle_illegal (h.mode ▸ hm)]
    exact h.outcome _

theorem State.SameButWait.startContinuous (h : s.SameButWait s') :
    EndsAlike s.startContinuous s'.startContinuous := by
  by_cases hm : s.mode = .idle
  · rw [State.startContinuous_idle hm, State.startContinuous_idle (h.mode.trans hm)]
    exact ⟨congrArg (fun u : State => { u.setStart true with mode := .continuous }) h.consume, rfl⟩
  · rw [State.startContinuous_illegal hm, State.startContinuous_illegal (h.mode ▸ hm)]
    exact h.outcome _

theorem State.SameButWait.stopConversion (h : s.SameButWait s') :
    EndsAlike s.stopConversion s'.stopConversion := by
  by_cases hm : s.mode = .idle
  · rw [State.stopConversion_illegal hm, State.stopConversion_illegal (h.mode.trans hm)]
    exact h.outcome _
  · rw [State.stopConversion_active hm, State.stopConversion_active (h.mode ▸ hm)]
    exact ⟨congrArg (fun u : State => { u.setStart false with mode := .idle }) h.consume, rfl⟩

/-- After its exchange the read of RDR looks at the family alone. -/
theorem State.SameButWait.readSample (h : s.SameButWait s') : EndsAlike s.readSample s'.readSample := by
  obtain ⟨u, u', o, hx, hx', hu⟩ := (h.transact (resultTxn s.cfg s.mode)).eq_pair
  rw [State.readSample, State.readSample, h.cfg, h.mode, hx, hx']
  cases o with
  | error e => exact ⟨hu, rfl⟩
  | ok d => exact ⟨hu, congrArg (fun c : BlockConfig => convertSample c.fam d) (State.cfg_congr hu)⟩

/-- RDR looks at the line only in ConversionPending (R142). -/
theorem State.SameButWait.readResult (h : s.SameButWait s') (hm : s.mode ≠ .conversionPending) (t : Nat) :
    EndsAlike (s.readResult t) (s'.readResult t) := by
  match hmode : s.mode, hm with
  | .idle, _ =>
    rw [State.readResult_idle hmode, State.readResult_idle (h.mode.trans hmode)]
    exact h.outcome _
  | .continuous, _ =>
    rw [State.readResult_continuous hmode, State.readResult_continuous (h.mode.trans hmode)]
    exact h.readSample

end

/-- An instruction that is not RDR in ConversionPending gives the two states one outcome. -/
theorem exec_eq_of_sameButWait {i : Instr} {s s' : State} (h : s.SameButWait s')
    (hi : ¬(i = .rdr ∧ s.mode = .conversionPending)) : exec i s' = exec i s := by
  have hlane : s'.unsignedLane = s.unsignedLane := State.unsignedLane_congr h.pending
  have hbytes : s'.operandBytes = s.operandBytes := State.operandBytes_congr h.pending
  have hdata : s'.wireData = s.wireData := State.wireData_congr h.pending
  cases i with
  | decs | encs | decf | cvadc | cvmag =>
    exact h.exec_of_isPure rfl
  | sts => exact h.startSingle.respond id
  | stc => exact h.startContinuous.respond id
  | stp => exact h.stopConversion.respond id
  | rdr =>
    rw [exec, exec, execRdr, execRdr, hlane]
    exact (h.readResult (fun hm => hi ⟨rfl, hm⟩) _).respond id
  | rrg cnt addr => exact (h.registerRead addr cnt).respond (Except.map .bytes)
  | wrg cnt addr =>
    rw [exec, exec, execWrg, execWrg, hbytes]
    exact (h.registerWrite addr cnt _).respond (Except.map fun _ => .none)
  | adcRreg address n => exact h.onFamily (h.registerRead address _) .adc
  | adcWreg address n =>
    rw [exec, exec, execAdcWreg, execAdcWreg, hdata]
    exact h.onFamily (h.registerWrite address _ _) .adc
  | adcReset | adcWake | adcSleep | adcNop | adcRdata | adcRdatac | adcSdatac => exact h.onFamily (h.transact _) .adc
  | magRead address =>
    rw [exec, exec, execMagRead, execMagRead, hdata]
    exact h.onFamily (h.registerRead address _) .mag
  | magWrite address =>
    rw [exec, exec, execMagWrite, execMagWrite, hdata]
    exact h.onFamily (h.registerWrite address _ _) .mag

/-- Settles O41: the samples differ in what a wait looks at alone. -/
theorem cancelAndReadyMatterOnlyInsideTheWait : Obligations.CancelAndReadyMatterOnlyInsideTheWait := by
  unfold Obligations.CancelAndReadyMatterOnlyInsideTheWait
  intro i s p rest c cf l0 l1 hs hi
  refine exec_eq_of_sameButWait ⟨?_, ?_⟩ hi
  · simp only [State.consume, hs, List.tail_cons]
  · simp only [State.sample, hs]

end Sys2Proof.Machine
end

section
/-! ## Measurement conversion (44_measurement R160 to R168)

A conversion takes one length, refuses every other, and gives the signed values of runs of three bytes; the laws follow
from the range of such a value and from its determining the bytes. -/

namespace Sys2Proof.Machine

/-! ### CVADC and CVMAG as operations -/

/-- Settles O24: the frame that `convertAdc` lays out, or its refusal of the length. -/
theorem cvadcMeaning : Obligations.CvadcMeaning := by
  unfold Obligations.CvadcMeaning
  intro s
  refine ⟨fun hlen => ?_, fun _ hlen => ⟨_, ?_, s.respond_error .rangeError⟩⟩
  · obtain ⟨hans, hunt⟩ := s.respond_answers ((convertAdc s.operandBytes).map .code)
    exact ⟨_, _, rfl, hans, convertAdc_carries hlen _, hunt⟩
  · rw [exec, execCvadc, convertAdc_wrongLength hlen, Except.map]

/-- Settles O25: the frame that `convertMag` lays out, or its refusal of the length. -/
theorem cvmagMeaning : Obligations.CvmagMeaning := by
  unfold Obligations.CvmagMeaning
  intro s
  refine ⟨fun hlen => ?_, fun _ hlen => ⟨_, ?_, s.respond_error .rangeError⟩⟩
  · obtain ⟨hans, hunt⟩ := s.respond_answers ((convertMag s.operandBytes).map .frame)
    exact ⟨_, _, rfl, hans, convertMag_carries hlen _, hunt⟩
  · rw [exec, execCvmag, convertMag_wrongLength hlen, Except.map]

/-! ### The laws of the conversions -/

/-- CVADC succeeds on three bytes alone, with their signed value (44_measurement R162). -/
theorem convertAdc_eq_ok_iff {b : List Byte} {v : Int} :
    convertAdc b = .ok v ↔ b.length = 3 ∧ signedValue 24 b = v := by
  by_cases h : b.length = 3
  · rw [convertAdc_ok h, Except.ok.injEq, and_iff_right h]
  · simp [convertAdc_wrongLength h, h]

/-- CVMAG succeeds on a status byte and three runs of three bytes alone, with the runs' signed values
(44_measurement R163, R164). -/
theorem convertMag_eq_ok_iff {b : List Byte} {f : MagFrame} :
    convertMag b = .ok f ↔ ∃ (b0 : Byte) (a0 a1 a2 : List Byte), b = b0 :: (a0 ++ a1 ++ a2) ∧
      a0.length = 3 ∧ a1.length = 3 ∧ a2.length = 3 ∧
      f = { x := signedValue 24 a1, y := signedValue 24 a0, z := -signedValue 24 a2, status := b0.getLsbD 7 } := by
  constructor
  · intro h
    have hlen : b.length = 10 := by
      by_contra hne
      rw [convertMag_wrongLength hne] at h
      cases h
    match b, hlen with
    | [b0, b1, b2, b3, b4, b5, b6, b7, b8, b9], _ =>
      rw [convertMag_ok, Except.ok.injEq] at h
      exact ⟨b0, [b1, b2, b3], [b4, b5, b6], [b7, b8, b9], rfl, rfl, rfl, rfl, h.symm⟩
  · rintro ⟨b0, a0, a1, a2, rfl, h0, h1, h2, rfl⟩
    match a0, a1, a2, h0, h1, h2 with
    | [b1, b2, b3], [b4, b5, b6], [b7, b8, b9], _, _, _ => exact convertMag_ok b0 b1 b2 b3 b4 b5 b6 b7 b8 b9

/-- CVADC is onto the 24-bit range and one to one (44_measurement R168 a). -/
theorem convertAdc_bijective {v : Int} (h1 : -8388608 ≤ v) (h2 : v ≤ 8388607) :
    ∃ b, (b.length = 3 ∧ convertAdc b = .ok v) ∧ ∀ b', convertAdc b' = .ok v → b' = b := by
  obtain ⟨b, ⟨hlen, hdec⟩, -⟩ := (decodeSignedLaws 24 (by omega)).2 v (by omega) (by omega)
  have hval : signedValue 24 b = v := by
    rwa [decodeSigned_ok (by omega) hlen, Except.ok.injEq] at hdec
  refine ⟨b, ⟨hlen, convertAdc_eq_ok_iff.2 ⟨hlen, hval⟩⟩, fun b' hb' => ?_⟩
  obtain ⟨hlen', hval'⟩ := convertAdc_eq_ok_iff.1 hb'
  exact foldSigned24_injective hlen' hlen (hval'.trans hval.symm)

/-- Two frames with one first byte and one result have the same axis bytes (44_measurement R168 b). -/
theorem convertMag_injective {b0 : Byte} {l l' : List Byte} {f : MagFrame} (h : convertMag (b0 :: l) = .ok f)
    (h' : convertMag (b0 :: l') = .ok f) : l = l' := by
  obtain ⟨_, a0, a1, a2, hb, h0, h1, h2, hf⟩ := convertMag_eq_ok_iff.1 h
  obtain ⟨_, a0', a1', a2', hb', h0', h1', h2', hf'⟩ := convertMag_eq_ok_iff.1 h'
  obtain ⟨hx, hy, hz, -⟩ := MagFrame.mk.inj (hf.symm.trans hf')
  obtain rfl := foldSigned24_injective h0 h0' hy
  obtain rfl := foldSigned24_injective h1 h1' hx
  obtain rfl := foldSigned24_injective h2 h2' (neg_injective hz)
  exact (List.cons.inj hb).2.trans (List.cons.inj hb').2.symm

/-- Zero axis bytes give zero axes whatever the status byte is (44_measurement R168 c). -/
theorem convertMag_zeroAxes (b0 : Byte) :
    convertMag (b0 :: List.replicate 9 0x00#8) = .ok { x := 0, y := 0, z := 0, status := b0.getLsbD 7 } := by
  have hzero : signedValue 24 [0x00#8, 0x00#8, 0x00#8] = 0 := by decide
  have hconv := convertMag_ok b0 0x00#8 0x00#8 0x00#8 0x00#8 0x00#8 0x00#8 0x00#8 0x00#8 0x00#8
  rwa [hzero, neg_zero] at hconv

/-- An axis is a 24-bit signed value or the negation of one (44_measurement R164, R168 d). -/
theorem convertMag_axis_range {b : List Byte} {f : MagFrame} (h : convertMag b = .ok f) {a : Int}
    (ha : a ∈ [f.x, f.y, f.z]) : -8388608 ≤ a ∧ a ≤ 8388608 := by
  obtain ⟨_, a0, a1, a2, -, h0, h1, h2, rfl⟩ := convertMag_eq_ok_iff.1 h
  have hr0 := signedValue24_range h0
  have hr1 := signedValue24_range h1
  have hr2 := signedValue24_range h2
  simp only [List.mem_cons, List.not_mem_nil, or_false] at ha
  rcases ha with rfl | rfl | rfl <;> omega

/-- Settles O27: the bijection and the injectivity of the signed values, the zero axes, and the range of an axis. -/
theorem measurementLaws : Obligations.MeasurementLaws := by
  unfold Obligations.MeasurementLaws
  refine ⟨fun v => convertAdc_bijective, fun b0 l l' f => convertMag_injective, fun b0 => ?_, fun b f h a ha => ?_⟩
  · exact ⟨_, convertMag_zeroAxes b0, rfl, rfl, rfl⟩
  · exact ⟨rfl, rfl, convertMag_axis_range h ha⟩

end Sys2Proof.Machine
end

section
/-! ## Responses and errors (60_exceptions R180, R190, R191, R204)

An instruction of the command port always ends in a response, and one of the host's own path runs on a block of its
family or not at all. What stands in the record behind an answer is read off the error it ends in. -/

namespace Sys2Proof.Machine

/-! ### Where an instruction ends -/

/-- An instruction of the command port is answered there; a row of wire bytes is a transaction of its family. -/
theorem exec_cases (i : Instr) (s : State) :
    ((∃ cw, encode i = .command cw) ∧ ∃ (u : State) (o : _), exec i s = .next (u.respond o)) ∨
    ((∃ fam l, encode i = .wire fam l) ∧ ∃ fam run, exec i s = onFamily fam s run) := by
  cases i with
  | decs | encs | decf | cvadc | cvmag | sts | rdr | stc | stp | rrg | wrg => exact .inl ⟨⟨_, rfl⟩, _, _, rfl⟩
  | adcRreg | adcWreg | adcReset | adcWake | adcSleep | adcNop | adcRdata | adcRdatac | adcSdatac | magRead
  | magWrite => exact .inr ⟨⟨_, _, rfl⟩, _, _, rfl⟩

/-! ### Configurations without lines (10_state R25) -/

theorem BlockConfig.admitted_eq_false_iff {c : BlockConfig} :
    c.admitted = false ↔ c.lines.startLine = none ∨ c.lines.readyLine = none := by
  simp only [BlockConfig.admitted, Bool.and_eq_false_iff, Option.isSome_eq_false_iff, Option.isNone_iff_eq_none]

/-- A transaction stops only on a block of the other family. -/
theorem onFamily_refused {fam : Family} {s : State} {run : State × Except OpError (List Byte)} {e : Refusal}
    (h : onFamily fam s run = .refused e) : e = .otherFamily := by
  unfold onFamily at h
  split at h <;> cases h
  rfl

theorem exec_refused {i : Instr} {s : State} {e : Refusal} (h : exec i s = .refused e) : e = .otherFamily := by
  rcases exec_cases i s with ⟨-, u, o, hexec⟩ | ⟨-, fam, run, hexec⟩ <;> rw [hexec] at h
  · cases h
  · exact onFamily_refused h

/-- A request that is no instruction stops for its opcode bytes, or as a transaction does. -/
theorem execUndecoded_refused {r : Request} {s : State} {e : Refusal} (h : execUndecoded r s = .refused e) :
    e = .malformedWireOpcode ∨ e = .otherFamily := by
  unfold execUndecoded at h
  split at h
  · cases h
  · exact .inr (onFamily_refused h)
  · cases h
    exact .inl rfl

theorem runPending_refused {r : Request} {s : State} {e : Refusal} (h : runPending r s = .refused e) :
    e = .malformedWireOpcode ∨ e = .otherFamily := by
  unfold runPending at h
  split at h
  · exact .inr (exec_refused h)
  · exact execUndecoded_refused h

theorem thenAccept_refused {o : Option Request} {x : Host.Outcome State Fault Refusal} {e : Refusal}
    (h : thenAccept o x = .refused e) : x = .refused e := by
  cases x with
  | next | fault => cases h
  | refused e' => exact h

theorem serve_refused {r : Request} {s : State} {e : Refusal} (h : serve r s = .refused e) :
    e = .requestWhileBusy ∨ e = .malformedWireOpcode ∨ e = .otherFamily := by
  unfold serve at h
  split at h
  · cases h
    exact .inl rfl
  · exact .inr (runPending_refused (thenAccept_refused h))

/-- Every stop of an admitted configuration is one of the request in progress. -/
theorem admittedStep_refused {s : State} {e : Refusal} (h : admittedStep s = .refused e) :
    e = .requestWhileBusy ∨ e = .malformedWireOpcode ∨ e = .otherFamily := by
  unfold admittedStep at h
  split at h
  · cases h
  · split at h
    · exact serve_refused h
    · cases h
    · cases h

/-- Settles O11: `step` tests the lines first, and no step behind that test stops under the same name. -/
theorem configurationWithoutLinesIsRefused : Obligations.ConfigurationWithoutLinesIsRefused := by
  unfold Obligations.ConfigurationWithoutLinesIsRefused
  intro s
  rw [← BlockConfig.admitted_eq_false_iff]
  cases hadm : s.cfg.admitted with
  | false => simp [step, hadm]
  | true =>
    have hstep : step s = admittedStep s := by simp [step, hadm]
    constructor
    · intro h
      rw [hstep] at h
      rcases admittedStep_refused h with he | he | he <;> cases he
    · intro h
      cases h

/-! ### Every command is answered (R180) -/

/-- What an instruction does to the block leaves the configuration and uses up no input and no draw. -/
theorem Effect.keeps_cfg_inputs_draws {i : Instr} {s s' : State} {err : Option OpError} (h : Effect i s s' err) :
    s'.cfg = s.cfg ∧ s'.inputs = s.inputs ∧ s'.draws = s.draws := by
  cases h with
  | operandError | illegal | pure | exchanged | exchangeFailed | waitEnded | waitedFailed | waitedRead | started
  | startedContinuous | stopped => exact ⟨rfl, rfl, rfl⟩

/-- The response behind an effect answers the step the effect began in. -/
theorem Effect.respond_answers {i : Instr} {s s' : State} {err : Option OpError} (h : Effect i s s' err)
    (o : Except OpError Result) : Answers s (s'.respond o) (response s'.draws o) := by
  obtain ⟨hcfg, hinputs, hdraws⟩ := h.keeps_cfg_inputs_draws
  exact ⟨rfl, rfl, hcfg, rfl, congrArg List.tail hinputs, congrArg (· + 1) hdraws⟩

/-- An instruction of the command port runs to a response with a code the block produces. -/
theorem exec_command_answers {i : Instr} {cw : CommandWord} (hi : encode i = .command cw) (s : State) :
    ∃ t r, exec i s = .next t ∧ Answers s t r ∧ r.st ∈ producedCodes := by
  rcases exec_cases i s with ⟨-, u, o, hexec⟩ | ⟨⟨fam, l, hwire⟩, -⟩
  · obtain ⟨s', err, heff, hend⟩ := exec_effect hexec
    rcases hend with ⟨o', hu, rfl, -⟩ | ⟨o', hu, -, -⟩
    · rw [hu] at hexec
      exact ⟨_, _, hexec, heff.respond_answers o', by rw [response_st]; exact heff.statusCode_mem⟩
    · cases congrArg State.rsp hu
  · rw [hi] at hwire
    cases hwire

/-- So does every command word, also one that is no instruction (30_encoding R67). -/
theorem runPending_command_answers (s : State) (cw : CommandWord) (opd : PortWord) (n : BitVec 5) :
    ∃ t r, runPending (.command cw opd n) s = .next t ∧ Answers s t r ∧ r.st ∈ producedCodes := by
  cases hdec : decodeCommand cw with
  | ok i =>
    obtain ⟨cw', hi⟩ := encode_of_decodeCommand hdec
    rw [runPending_of_decode (r := .command cw opd n) hdec]
    exact exec_command_answers hi s
  | error e =>
    obtain ⟨⟨r, hans, hst⟩, -⟩ := s.respond_error .reservedOp
    exact ⟨_, r, runPending_reserved ⟨e, hdec⟩, hans, by rw [hst]; decide⟩

theorem State.busyO_of_pending_none {s : State} (h : s.pending = none) : s.busyO = false := by
  rw [State.busyO_eq, h]
  rfl

/-- Only a step with a request in progress gives a response. -/
theorem step_rsp_eq_none {s t : State} (hpend : s.pending = none) (h : step s = .next t) : t.rsp = none := by
  rcases step_cases h with ⟨-, rfl⟩ | ⟨-, -, -, rfl⟩ | ⟨r, -, -, -, rfl⟩ | ⟨r, t', -, hr, -⟩
  · exact s.resetEvent_rsp
  · exact s.idleStep_rsp
  · exact s.accept_rsp r
  · rw [hpend] at hr
    cases hr

/-- Settles O14: the command runs to its answer, which leaves nothing in progress that a next step could answer. -/
theorem everyAcceptedCommandIsAnswered : Obligations.EveryAcceptedCommandIsAnswered := by
  unfold Obligations.EveryAcceptedCommandIsAnswered
  intro s cw opd n hrun
  obtain ⟨t, r, hnext, hans, hst⟩ := runPending_command_answers s cw opd n
  have hpend : t.pending = none := by
    obtain ⟨-, -, -, hpend, -, -⟩ := hans
    exact hpend
  exact ⟨t, r, (step_running hrun).trans hnext, hans, hst, State.busyO_of_pending_none hpend,
    fun t' => step_rsp_eq_none hpend⟩

/-! ### Validation comes before every event (R191 stages 1 to 3, 42_transactions R119) -/

/-- The codes of the errors of the word, of an operand and of the mode: RangeError, CountRangeError,
IllegalStateError and ReservedOp. -/
def validationCodes : List (BitVec 4) := [0x1#4, 0x4#4, 0x5#4, 0xF#4]

/-- What an operation does before it ends in `err`, an error of validation, records nothing. -/
theorem Effect.trace_eq_of_validation {i : Instr} {s s' : State} {err : Option OpError} (h : Effect i s s' err)
    (herr : statusCode err ∈ validationCodes) : s'.trace = s.trace := by
  cases h with
  | operandError | illegal | pure => rfl
  | exchanged | exchangeFailed | waitedFailed | waitedRead | started | startedContinuous | stopped =>
    exact absurd herr (by decide)
  | waitEnded _ _ he => rcases he with rfl | rfl <;> exact absurd herr (by decide)

/-- In `t` a step from `s` has ended; if an error of validation ended it, on the port or on the host's own path, the
record is as it was. -/
def State.RefusesSilently (s t : State) : Prop :=
  (∀ r, t.rsp = some r → r.st ∈ validationCodes → t.trace = s.trace) ∧
  (∀ e, t.wireRsp = some (.failed e) → e.code ∈ validationCodes → t.trace = s.trace)

/-- A step that records nothing. -/
theorem State.refusesSilently_of_trace_eq {s t : State} (h : t.trace = s.trace) : s.RefusesSilently t :=
  ⟨fun _ _ _ => h, fun _ _ _ => h⟩

/-- A step that answers nothing. -/
theorem State.refusesSilently_of_no_answer {s t : State} (hrsp : t.rsp = none) (hwire : t.wireRsp = none) :
    s.RefusesSilently t :=
  ⟨fun r hr => by simp [hrsp] at hr, fun e he => by simp [hwire] at he⟩

/-- An answer on the port. -/
theorem State.refusesSilently_respond {s s' : State} (o : Except OpError Result)
    (h : statusCode (errorOf o) ∈ validationCodes → s'.trace = s.trace) : s.RefusesSilently (s'.respond o) := by
  constructor
  · intro r hr hst
    cases hr
    rw [response_st] at hst
    exact h hst
  · intro e he
    cases he

/-- An answer on the host's own path. -/
theorem State.refusesSilently_respondWire {s s' : State} (o : Except OpError (List Byte))
    (h : statusCode (errorOf o) ∈ validationCodes → s'.trace = s.trace) : s.RefusesSilently (s'.respondWire o) := by
  constructor
  · intro r hr
    cases hr
  · intro e he hcode
    cases o with
    | ok l => cases he
    | error e' =>
      cases he
      exact h hcode

theorem exec_refusesSilently {i : Instr} {s t : State} (h : exec i s = .next t) : s.RefusesSilently t := by
  obtain ⟨s', err, heff, hend⟩ := exec_effect h
  rcases hend with ⟨o, rfl, rfl, -⟩ | ⟨o, rfl, rfl, -⟩
  · exact State.refusesSilently_respond o heff.trace_eq_of_validation
  · exact State.refusesSilently_respondWire o heff.trace_eq_of_validation

/-- A transaction ends in no error but TransportError. -/
theorem State.transact_not_validation (s : State) (q : TransactionRequest) :
    statusCode (errorOf (s.transact q).2) ∉ validationCodes := by
  rcases transact_cases s q with ⟨r, -, ht⟩ | ⟨-, ht⟩ <;> rw [ht]
  · rw [errorOf_ok]
    decide
  · rw [errorOf_error]
    decide

theorem execUndecoded_refusesSilently {r : Request} {s t : State} (h : execUndecoded r s = .next t) :
    s.RefusesSilently t := by
  rcases execUndecoded_cases h with ⟨-, rfl⟩ | ⟨-, b, rfl⟩
  · exact State.refusesSilently_of_trace_eq rfl
  · exact State.refusesSilently_respondWire _ fun herr => absurd herr (s.transact_not_validation (buildBare b))

/-- The four cases of `step_cases`: only the request that runs is answered, and what is latched behind it is not. -/
theorem step_refusesSilently {s t : State} (h : step s = .next t) : s.RefusesSilently t := by
  rcases step_cases h with ⟨-, rfl⟩ | ⟨-, -, -, rfl⟩ | ⟨r, -, -, -, rfl⟩ | ⟨r, t', -, -, -, rfl, hrun⟩
  · exact State.refusesSilently_of_no_answer s.resetEvent_rsp s.resetEvent_wireRsp
  · exact State.refusesSilently_of_trace_eq s.idleStep_trace
  · exact State.refusesSilently_of_trace_eq (s.accept_trace r)
  · have ht' : s.RefusesSilently t' := by
      rcases hrun with ⟨i, -, hexec⟩ | ⟨e, -, hexec⟩
      · exact exec_refusesSilently hexec
      · exact execUndecoded_refusesSilently hexec
    exact ht'

/-- Settles O37: an error of validation is raised by a test of the word, an operand or the mode, before any event. -/
theorem validationComesBeforeEveryEvent : Obligations.ValidationComesBeforeEveryEvent := by
  unfold Obligations.ValidationComesBeforeEveryEvent
  intro s t hstep
  obtain ⟨hport, hwire⟩ := step_refusesSilently hstep
  refine ⟨hport, fun e he hmem => hwire e he ?_⟩
  have hcode : ∀ e ∈ [OpError.rangeError, .countRangeError, .illegalStateError], e.code ∈ validationCodes := by
    decide
  exact hcode e hmem

end Sys2Proof.Machine
end

section
/-! ## A command presented while the block is busy (70_reset_and_hazards R221) -/

namespace Sys2Proof.Machine

/-- `busy_o` is 1 exactly while a command is in progress. -/
theorem State.busyO_eq_true_iff {s : State} :
    s.busyO = true ↔ ∃ r, s.pending = some r ∧ r.isCommand = true := by
  rw [State.busyO_eq, Option.any_eq_true]

/-- A presented command overlaps what runs when that is a command too. -/
theorem commandsOverlap_command (r : Request) (cw : CommandWord) (opd : PortWord) (n : BitVec 5) :
    commandsOverlap r (some (.command cw opd n)) = r.isCommand :=
  Bool.and_true _

/-- A command presented while a command is in progress stops the step before the command in progress runs. -/
theorem serve_of_commandsOverlap {s : State} {r : Request} (ho : commandsOverlap r s.sample.request = true) :
    serve r s = .refused .requestWhileBusy := by
  rw [serve, if_pos ho]

/-- Settles O8: `busy_o` = 1 means that a command is in progress, and the one presented overlaps it. -/
theorem commandWhileBusyIsRefused : Obligations.CommandWhileBusyIsRefused := by
  unfold Obligations.CommandWhileBusyIsRefused
  intro s cw opd n hadm hrst hbusy hreq
  obtain ⟨r, hpend, hcmd⟩ := State.busyO_eq_true_iff.1 hbusy
  have hover : commandsOverlap r s.sample.request = true := by
    rw [hreq, commandsOverlap_command, hcmd]
  calc step s = serve r s := step_serve hadm hrst hpend
    _ = .refused .requestWhileBusy := serve_of_commandsOverlap hover

end Sys2Proof.Machine
end

section
/-! ## Decoding and encoding (30_encoding sections 2 to 5)

Each format of a word, and each shape of opcode bytes, is read from what is laid out in it and laid out again from what
is read. The two round trips then go through the rows of the operation map and of the buses. -/

namespace Sys2Proof.Machine

/-! ### Command words: formats K, M and R (R61) -/

section
variable {op w c a : Nat}

theorem wordK_toNat (ho : op < 16) (hw : w < 256) : (wordK op w).toNat = op * 2 ^ 12 + w := by
  rw [wordK, BitVec.toNat_ofNat, Nat.mod_eq_of_lt (by omega)]

theorem wordR_toNat (ho : op < 16) (hc : c < 32) (ha : a < 128) :
    (wordR op c a).toNat = op * 2 ^ 12 + c * 2 ^ 7 + a := by
  rw [wordR, BitVec.toNat_ofNat, Nat.mod_eq_of_lt (by omega)]

theorem wordK_op (ho : op < 16) (hw : w < 256) : bits (wordK op w).toNat 15 12 = op := by
  rw [wordK_toNat ho hw]
  simp only [bits]
  omega

theorem wordR_op (ho : op < 16) (hc : c < 32) (ha : a < 128) : bits (wordR op c a).toNat 15 12 = op := by
  rw [wordR_toNat ho hc ha]
  simp only [bits]
  omega

theorem formatK_wordK (ho : op < 16) (hw : w < 256) (mk : Nat → Instr) :
    formatK (wordK op w).toNat mk = .ok (mk w) := by
  have hzero : bits (op * 2 ^ 12 + w) 11 8 = 0 := by simp only [bits]; omega
  have hfield : bits (op * 2 ^ 12 + w) 7 0 = w := by simp only [bits]; omega
  rw [wordK_toNat ho hw, formatK, if_pos hzero, hfield]

theorem formatM_wordK (ho : op < 16) (i : Instr) : formatM (wordK op 0).toNat i = .ok i := by
  have hzero : bits (op * 2 ^ 12 + 0) 11 0 = 0 := by simp only [bits]; omega
  rw [wordK_toNat ho (by decide), formatM, if_pos hzero]

theorem formatR_wordR (ho : op < 16) (hc : c < 32) (ha : a < 128) (mk : Nat → Nat → Instr) :
    formatR (wordR op c a).toNat mk = .ok (mk c a) := by
  have hcnt : bits (op * 2 ^ 12 + c * 2 ^ 7 + a) 11 7 = c := by simp only [bits]; omega
  have haddr : bits (op * 2 ^ 12 + c * 2 ^ 7 + a) 6 0 = a := by simp only [bits]; omega
  rw [wordR_toNat ho hc ha, formatR, hcnt, haddr]

end

section
variable {cw : CommandWord} {op : Nat} {i : Instr}

/-- A format K word that is read is the word of its `W`. -/
theorem formatK_eq_ok {mk : Nat → Instr} (hop : bits cw.toNat 15 12 = op) (h : formatK cw.toNat mk = .ok i) :
    ∃ w < 256, mk w = i ∧ wordK op w = cw := by
  unfold formatK at h
  split at h <;> cases h
  rename_i hzero
  refine ⟨_, Nat.mod_lt _ (by decide), rfl, BitVec.eq_of_toNat_eq ?_⟩
  simp only [bits] at hop hzero ⊢
  rw [wordK_toNat (by omega) (by omega)]
  omega

/-- A format M word that is read has nothing but its operation. -/
theorem formatM_eq_ok {j : Instr} (hop : bits cw.toNat 15 12 = op) (h : formatM cw.toNat j = .ok i) :
    j = i ∧ wordK op 0 = cw := by
  unfold formatM at h
  split at h <;> cases h
  rename_i hzero
  refine ⟨rfl, BitVec.eq_of_toNat_eq ?_⟩
  simp only [bits] at hop hzero
  rw [wordK_toNat (by omega) (by omega)]
  omega

/-- A format R word that is read is the word of its count and address. -/
theorem formatR_eq_ok {mk : Nat → Nat → Instr} (hop : bits cw.toNat 15 12 = op) (h : formatR cw.toNat mk = .ok i) :
    ∃ c < 32, ∃ a < 128, mk c a = i ∧ wordR op c a = cw := by
  cases h
  refine ⟨_, Nat.mod_lt _ (by decide), _, Nat.mod_lt _ (by decide), rfl, BitVec.eq_of_toNat_eq ?_⟩
  simp only [bits] at hop ⊢
  rw [wordR_toNat (by omega) (by omega) (by omega)]
  omega

end

/-! ### Opcode bytes (R68, R69, R71) -/

section
variable {b b' : Byte} {a n : Nat}

theorem adcReadByte_bits (ha : a < 16) :
    bits (adcReadByte a).toNat 7 4 = 0x2 ∧ bits (adcReadByte a).toNat 3 0 = a := by
  rw [adcReadByte, or_ofNat_of_lt (.inl rfl) (by omega), BitVec.toNat_ofNat]
  simp only [bits]
  omega

theorem adcWriteByte_bits (ha : a < 16) :
    bits (adcWriteByte a).toNat 7 4 = 0x4 ∧ bits (adcWriteByte a).toNat 3 0 = a := by
  rw [adcWriteByte, or_ofNat_of_lt (.inr rfl) (by omega), BitVec.toNat_ofNat]
  simp only [bits]
  omega

theorem adcCountByte_bits (hn : n < 16) :
    bits (adcCountByte n).toNat 7 4 = 0 ∧ bits (adcCountByte n).toNat 3 0 = n := by
  rw [adcCountByte_eq, BitVec.toNat_ofNat]
  simp only [bits]
  omega

theorem magReadByte_bits (ha : a < 128) :
    bits (magReadByte a).toNat 7 7 = 1 ∧ bits (magReadByte a).toNat 6 0 = a := by
  rw [magReadByte, or_ofNat_of_lt_mag (by omega), BitVec.toNat_ofNat]
  simp only [bits]
  omega

theorem magWriteByte_bits (ha : a < 128) :
    bits (magWriteByte a).toNat 7 7 = 0 ∧ bits (magWriteByte a).toNat 6 0 = a := by
  rw [magWriteByte_eq, BitVec.toNat_ofNat]
  simp only [bits]
  omega

/-- A byte is its two halves, the form of the ADC's opcode bytes. -/
theorem byte_eq_of_halves (hhi : bits b.toNat 7 4 = bits b'.toNat 7 4) (hlo : bits b.toNat 3 0 = bits b'.toNat 3 0) :
    b = b' := by
  apply BitVec.eq_of_toNat_eq
  simp only [bits] at hhi hlo
  omega

/-- A byte is its bit 7 and the rest, the form of the magnetometer's opcode byte. -/
theorem byte_eq_of_topBit (htop : bits b.toNat 7 7 = bits b'.toNat 7 7)
    (hrest : bits b.toNat 6 0 = bits b'.toNat 6 0) : b = b' := by
  apply BitVec.eq_of_toNat_eq
  simp only [bits] at htop hrest
  omega

theorem adcReadByte_of_bits (h : bits b.toNat 7 4 = 0x2) : adcReadByte (bits b.toNat 3 0) = b := by
  obtain ⟨hhi, hlo⟩ := adcReadByte_bits (a := bits b.toNat 3 0) (Nat.mod_lt _ (by decide))
  exact byte_eq_of_halves (hhi.trans h.symm) hlo

theorem adcWriteByte_of_bits (h : bits b.toNat 7 4 = 0x4) : adcWriteByte (bits b.toNat 3 0) = b := by
  obtain ⟨hhi, hlo⟩ := adcWriteByte_bits (a := bits b.toNat 3 0) (Nat.mod_lt _ (by decide))
  exact byte_eq_of_halves (hhi.trans h.symm) hlo

theorem adcCountByte_of_bits (h : bits b.toNat 7 4 = 0) : adcCountByte (bits b.toNat 3 0) = b := by
  obtain ⟨hhi, hlo⟩ := adcCountByte_bits (n := bits b.toNat 3 0) (Nat.mod_lt _ (by decide))
  exact byte_eq_of_halves (hhi.trans h.symm) hlo

theorem magReadByte_of_bits (h : bits b.toNat 7 7 = 1) : magReadByte (bits b.toNat 6 0) = b := by
  obtain ⟨htop, hrest⟩ := magReadByte_bits (a := bits b.toNat 6 0) (Nat.mod_lt _ (by decide))
  exact byte_eq_of_topBit (htop.trans h.symm) hrest

theorem magWriteByte_of_bits (h : bits b.toNat 7 7 = 0) : magWriteByte (bits b.toNat 6 0) = b := by
  obtain ⟨htop, hrest⟩ := magWriteByte_bits (a := bits b.toNat 6 0) (Nat.mod_lt _ (by decide))
  exact byte_eq_of_topBit (htop.trans h.symm) hrest

end

/-! ### Decoding what was encoded -/

section
variable {a n : Nat}

theorem decodeAdcPair_read (ha : a < 16) (hn : n < 16) :
    decodeAdcPair (adcReadByte a) (adcCountByte n) = .ok (.adcRreg a n) := by
  simp [decodeAdcPair, adcReadByte_bits ha, adcCountByte_bits hn]

theorem decodeAdcPair_write (ha : a < 16) (hn : n < 16) :
    decodeAdcPair (adcWriteByte a) (adcCountByte n) = .ok (.adcWreg a n) := by
  simp [decodeAdcPair, adcWriteByte_bits ha, adcCountByte_bits hn]

theorem decodeMagByte_read (ha : a < 128) : decodeMagByte (magReadByte a) = .magRead a := by
  simp [decodeMagByte, magReadByte_bits ha]

theorem decodeMagByte_write (ha : a < 128) : decodeMagByte (magWriteByte a) = .magWrite a := by
  simp [decodeMagByte, magWriteByte_bits ha]

end

/-- Settles O1, row by row: the operation or the opcode byte selects the row, and the row's format reads its fields. -/
theorem decodeOfEncodeIsIdentity : Obligations.DecodeOfEncodeIsIdentity := by
  unfold Obligations.DecodeOfEncodeIsIdentity
  intro i hwf
  cases i with
  | decs w | encs w | decf w =>
    have hw : w < 256 := of_decide_eq_true hwf
    simp [encode, decode, decodeCommand, wordK_op, formatK_wordK, hw]
  | cvadc | cvmag | sts | rdr | stc | stp =>
    simp [encode, decode, decodeCommand, wordK_op, formatM_wordK]
  | rrg c a | wrg c a =>
    obtain ⟨hc, ha⟩ : c < 32 ∧ a < 128 := by simpa [Instr.wf] using hwf
    simp [encode, decode, decodeCommand, wordR_op, formatR_wordR, hc, ha]
  | adcRreg a n =>
    obtain ⟨ha, hn⟩ : a < 16 ∧ n < 16 := by simpa [Instr.wf] using hwf
    exact decodeAdcPair_read ha hn
  | adcWreg a n =>
    obtain ⟨ha, hn⟩ : a < 16 ∧ n < 16 := by simpa [Instr.wf] using hwf
    exact decodeAdcPair_write ha hn
  | adcReset | adcWake | adcSleep | adcNop | adcRdata | adcRdatac | adcSdatac => rfl
  | magRead a => exact congrArg Except.ok (decodeMagByte_read (of_decide_eq_true hwf))
  | magWrite a => exact congrArg Except.ok (decodeMagByte_write (of_decide_eq_true hwf))

/-! ### Encoding what was decoded -/

theorem encode_of_decodeCommand_eq_ok {cw : CommandWord} {i : Instr} (h : decodeCommand cw = .ok i) :
    i.wf = true ∧ encode i = .command cw := by
  unfold decodeCommand at h
  split at h
  case h_1 | h_2 | h_3 =>
    rename_i hop
    obtain ⟨w, hw, rfl, rfl⟩ := formatK_eq_ok hop h
    exact ⟨decide_eq_true hw, rfl⟩
  case h_4 | h_5 | h_6 | h_7 | h_8 | h_9 =>
    rename_i hop
    obtain ⟨rfl, rfl⟩ := formatM_eq_ok hop h
    exact ⟨rfl, rfl⟩
  case h_10 | h_11 =>
    rename_i hop
    obtain ⟨c, hc, a, ha, rfl, rfl⟩ := formatR_eq_ok hop h
    exact ⟨by simp [Instr.wf, hc, ha], rfl⟩
  case h_12 => cases h

theorem encode_of_decodeAdcBare_eq_ok {b : Byte} {i : Instr} (h : decodeAdcBare b = .ok i) :
    i.wf = true ∧ encode i = .wire .adc [b] := by
  unfold decodeAdcBare at h
  split at h <;> cases h
  all_goals
    rename_i hb
    rw [(BitVec.toNat_eq_nat.1 hb).2]
    exact ⟨rfl, rfl⟩

theorem encode_of_decodeAdcPair_eq_ok {b0 b1 : Byte} {i : Instr} (h : decodeAdcPair b0 b1 = .ok i) :
    i.wf = true ∧ encode i = .wire .adc [b0, b1] := by
  have haddr : bits b0.toNat 3 0 < 16 := Nat.mod_lt _ (by decide)
  have hcnt : bits b1.toNat 3 0 < 16 := Nat.mod_lt _ (by decide)
  unfold decodeAdcPair at h
  split at h
  next hzero =>
    split at h <;> cases h
    next hread =>
      exact ⟨by simp [Instr.wf, haddr, hcnt], by rw [encode, adcReadByte_of_bits hread, adcCountByte_of_bits hzero]⟩
    next hwrite =>
      exact ⟨by simp [Instr.wf, haddr, hcnt], by rw [encode, adcWriteByte_of_bits hwrite, adcCountByte_of_bits hzero]⟩
  next => cases h

theorem encode_decodeMagByte (b : Byte) :
    (decodeMagByte b).wf = true ∧ encode (decodeMagByte b) = .wire .mag [b] := by
  have haddr : bits b.toNat 6 0 < 128 := Nat.mod_lt _ (by decide)
  have htop : bits b.toNat 7 7 < 2 := Nat.mod_lt _ (by decide)
  unfold decodeMagByte
  split
  next hread => exact ⟨decide_eq_true haddr, by rw [encode, magReadByte_of_bits hread]⟩
  next hwrite => exact ⟨decide_eq_true haddr, by rw [encode, magWriteByte_of_bits (by omega)]⟩

theorem encode_of_decodeWire_eq_ok {fam : Family} {l : List Byte} {i : Instr} (h : decodeWire fam l = .ok i) :
    i.wf = true ∧ encode i = .wire fam l := by
  unfold decodeWire at h
  split at h
  · exact encode_of_decodeAdcBare_eq_ok h
  · exact encode_of_decodeAdcPair_eq_ok h
  · cases h
    exact encode_decodeMagByte _
  · cases h

/-- Settles O2, for the two levels of encoding. -/
theorem encodeOfDecodeIsIdentity : Obligations.EncodeOfDecodeIsIdentity := by
  unfold Obligations.EncodeOfDecodeIsIdentity
  intro im i h
  cases im with
  | command cw => exact encode_of_decodeCommand_eq_ok h
  | wire fam l => exact encode_of_decodeWire_eq_ok h

/-- Settles O3: the seven words have their fields in the places the tables give. -/
theorem writtenOutWordsDecode : Obligations.WrittenOutWordsDecode := by
  unfold Obligations.WrittenOutWordsDecode
  decide

end Sys2Proof.Machine
end

section
/-! ## The transition table and the language of the mode (43_device_mode R131, R143, 60_exceptions R190)

An operation succeeds exactly when its effect ends in no error. Success then moves the mode as the table says, and an
error leaves both state registers. -/

namespace Sys2Proof.Machine

/-! ### How the end of a step shows whether the operation succeeded -/

theorem State.succeeded_respond_iff (s : State) (o : Except OpError Result) :
    (s.respond o).succeeded ↔ errorOf o = none := by
  cases o <;> simp [State.succeeded, response, okCode, OpError.code_ne_ok]

theorem State.succeeded_respondWire_iff (s : State) (o : Except OpError (List Byte)) :
    (s.respondWire o).succeeded ↔ errorOf o = none := by
  cases o <;> simp [State.succeeded]

theorem State.failed_respond_iff (s : State) (o : Except OpError Result) :
    (s.respond o).failed ↔ ∃ e, errorOf o = some e := by
  cases o <;> simp [State.failed, response, okCode, OpError.code_ne_ok]

theorem State.failed_respondWire_iff (s : State) (o : Except OpError (List Byte)) :
    (s.respondWire o).failed ↔ ∃ e, errorOf o = some e := by
  cases o <;> simp [State.failed]

section
variable {i : Instr} {s s' t : State} {err : Option OpError}

theorem EndsWith.succeeded_iff (h : EndsWith i s' t err) : t.succeeded ↔ err = none := by
  rcases h with ⟨o, rfl, rfl, -⟩ | ⟨o, rfl, rfl, -⟩
  · exact s'.succeeded_respond_iff o
  · exact s'.succeeded_respondWire_iff o

theorem EndsWith.failed_iff (h : EndsWith i s' t err) : t.failed ↔ ∃ e, err = some e := by
  rcases h with ⟨o, rfl, rfl, -⟩ | ⟨o, rfl, rfl, -⟩
  · exact s'.failed_respond_iff o
  · exact s'.failed_respondWire_iff o

/-! ### The table (R131) -/

theorem transition_of_not_movesMode (hi : movesMode i = false) (m : DeviceMode) : transition m i = some m := by
  cases i with
  | sts | rdr | stc | stp => cases hi
  | decs | encs | decf | cvadc | cvmag | rrg | wrg | adcRreg | adcWreg | adcReset | adcWake | adcSleep | adcNop
  | adcRdata | adcRdatac | adcSdatac | magRead | magWrite => rfl

theorem movesMode_eq_false_of_isPure (hi : isPure i = true) : movesMode i = false := by
  cases i with
  | sts | rdr | stc | stp => cases hi
  | decs | encs | decf | cvadc | cvmag | rrg | wrg | adcRreg | adcWreg | adcReset | adcWake | adcSleep | adcNop
  | adcRdata | adcRdatac | adcSdatac | magRead | magWrite => rfl

/-- The Illegal cells of the table: starting outside Idle, reading and stopping in Idle. -/
theorem transition_eq_none {m : DeviceMode} (h : transition m i = none) :
    ((i = .sts ∨ i = .stc) ∧ m ≠ .idle) ∨ ((i = .rdr ∨ i = .stp) ∧ m = .idle) := by
  cases i with
  | sts => exact .inl ⟨.inl rfl, fun hm => by rw [hm] at h; cases h⟩
  | stc => exact .inl ⟨.inr rfl, fun hm => by rw [hm] at h; cases h⟩
  | rdr | stp =>
    cases m with
    | idle => exact .inr ⟨by simp, rfl⟩
    | conversionPending | continuous => cases h
  | decs | encs | decf | cvadc | cvmag | rrg | wrg | adcRreg | adcWreg | adcReset | adcWake | adcSleep | adcNop
  | adcRdata | adcRdatac | adcSdatac | magRead | magWrite => cases h

/-- What an operation does without ending in an error moves the mode as the table says. -/
theorem Effect.transition_eq (h : Effect i s s' none) : transition s.mode i = some s'.mode := by
  cases h with
  | pure hi => exact transition_of_not_movesMode (movesMode_eq_false_of_isPure hi) _
  | exchanged _ _ _ hi =>
    rcases hi with hi | ⟨rfl, hm⟩
    · exact transition_of_not_movesMode hi _
    · rw [State.emit_mode, hm]
      rfl
  | waitedRead _ _ _ hi hm | started hi hm | startedContinuous hi hm => rw [hi, hm]; rfl
  | stopped hi hm =>
    subst hi
    cases hs : s.mode with
    | idle => exact absurd hs hm
    | conversionPending | continuous => rfl

/-- What an operation does before it ends in an error leaves both state registers (60_exceptions R190). -/
theorem Effect.keeps_registers_of_error {e : OpError} (h : Effect i s s' (some e)) :
    s'.mode = s.mode ∧ s'.startLevel = s.startLevel := by
  cases h with
  | operandError | illegal | exchangeFailed | waitEnded | waitedFailed => exact ⟨rfl, rfl⟩

theorem exec_transition_eq (h : exec i s = .next t) (ht : t.succeeded) : transition s.mode i = some t.mode := by
  obtain ⟨s', err, heff, hend⟩ := exec_effect h
  obtain ⟨-, hmode, -⟩ := hend.fields
  cases hend.succeeded_iff.1 ht
  rw [hmode, heff.transition_eq]

/-- An operation in an Illegal cell is refused where it stands. -/
theorem exec_of_transition_eq_none (h : transition s.mode i = none) :
    exec i s = .next (s.respond (.error .illegalStateError)) := by
  rcases transition_eq_none h with ⟨rfl | rfl, hm⟩ | ⟨rfl | rfl, hm⟩
  · rw [exec, execSts, State.startSingle_illegal hm]
  · rw [exec, execStc, State.startContinuous_illegal hm]
  · rw [exec, execRdr, State.readResult_idle hm]
  · rw [exec, execStp, State.stopConversion_illegal hm]

end

/-- Settles O34: the Illegal cells refuse, and an effect without an error follows the table. -/
theorem transitionTable : Obligations.TransitionTable := by
  unfold Obligations.TransitionTable
  intro i s
  exact ⟨fun h => ⟨_, exec_of_transition_eq_none h, s.respond_error _⟩, fun t h ht => exec_transition_eq h ht⟩

/-- Settles O36: no effect that ends in an error writes a state register, and the answer writes none. -/
theorem errorsLeaveTheStateRegisters : Obligations.ErrorsLeaveTheStateRegisters := by
  unfold Obligations.ErrorsLeaveTheStateRegisters
  intro i s t h ht
  obtain ⟨s', err, heff, hend⟩ := exec_effect h
  obtain ⟨-, hmode, hlevel, -⟩ := hend.fields
  obtain ⟨e, rfl⟩ := hend.failed_iff.1 ht
  rw [hmode, hlevel]
  exact heff.keeps_registers_of_error

/-- Settles O38: of the effects that begin in Idle only those of STS and STC end elsewhere, and STP succeeds from every
other mode. -/
theorem waysOutOfAndIntoIdle : Obligations.WaysOutOfAndIntoIdle := by
  unfold Obligations.WaysOutOfAndIntoIdle
  constructor
  · intro i s t h hidle hleft
    obtain ⟨s', err, heff, hend⟩ := exec_effect h
    obtain ⟨-, hmode, -⟩ := hend.fields
    rw [hmode] at hleft
    cases heff with
    | operandError | illegal | pure | exchanged | exchangeFailed | waitEnded | waitedFailed =>
      exact absurd hidle hleft
    | waitedRead | stopped => exact absurd rfl hleft
    | started hi => exact .inl hi
    | startedContinuous hi => exact .inr hi
  · intro s hm
    obtain ⟨hactive, -⟩ := stpMeaning s
    obtain ⟨t, h, hdone, hidle, -⟩ := hactive hm
    exact ⟨t, h, hidle, hdone⟩

/-! ### The language of successful operations (R143 law e) -/

/-- The operations that bring the block from Idle to a mode, as a word of the language begins. -/
def opening : DeviceMode → List Instr
  | .idle              => []
  | .conversionPending => [.sts]
  | .continuous        => [.stc]

/-- A reading in Continuous stretches the loop of the word it stands in. -/
theorem ModeWord.cons_rdr {w : List Instr} (h : ModeWord (.stc :: w)) : ModeWord (.stc :: .rdr :: w) := by
  cases h with
  | continuous rest => exact .continuous (n := _ + 1) rest

/-- An operation that moves the mode as the table says goes in front of a word from the mode it leads to. -/
theorem ModeWord.of_transition {i : Instr} {m m' : DeviceMode} {w : List Instr} (hi : movesMode i = true)
    (hm : transition m i = some m') (h : ModeWord (opening m' ++ w)) : ModeWord (opening m ++ i :: w) := by
  cases i with
  | sts | stc =>
    cases m with
    | idle => cases hm; exact h
    | conversionPending | continuous => cases hm
  | rdr =>
    cases m with
    | idle => cases hm
    | conversionPending => cases hm; exact .single (.inl rfl) h
    | continuous => cases hm; exact h.cons_rdr
  | stp =>
    cases m with
    | idle => cases hm
    | conversionPending => cases hm; exact .single (.inr rfl) h
    | continuous => cases hm; exact .continuous (n := 0) h
  | decs | encs | decf | cvadc | cvmag | rrg | wrg | adcRreg | adcWreg | adcReset | adcWake | adcSleep | adcNop
  | adcRdata | adcRdatac | adcSdatac | magRead | magWrite => cases hi

/-- Successful operations that end in Idle spell, behind the opening of the mode they begin in, a word of the
language. -/
theorem SuccessfulRun.modeWord {s u : State} {l : List Instr} (h : SuccessfulRun s l u) (hu : u.mode = .idle) :
    ModeWord (opening s.mode ++ l.filter movesMode) := by
  induction h with
  | nil =>
    rw [hu]
    exact .nil
  | @cons s t t' u i l runs ok sameMode sameLevel rest ih =>
    have hword := ih hu
    rw [sameMode] at hword
    have hm := exec_transition_eq runs ok
    cases hi : movesMode i with
    | true =>
      rw [List.filter_cons_of_pos hi]
      exact hword.of_transition hi hm
    | false =>
      rw [List.filter_cons_of_neg (by simp [hi])]
      rw [transition_of_not_movesMode hi] at hm
      rwa [Option.some.inj hm]

/-- Settles O39: from Idle the opening is empty. -/
theorem successfulRunsSpellTheLanguage : Obligations.SuccessfulRunsSpellTheLanguage := by
  unfold Obligations.SuccessfulRunsSpellTheLanguage
  intro s u l hrun hs hu
  have hword := hrun.modeWord hu
  rwa [hs] at hword

end Sys2Proof.Machine
end

section
/-! ## Wire instructions and their family (30_encoding opening, logs 8 and 9) -/

namespace Sys2Proof.Machine

/-- A row of wire bytes runs as a transaction of the family whose bus its encoding is on. -/
theorem exec_of_encode_wire {i : Instr} {fam : Family} {opcode : List Byte} (h : encode i = .wire fam opcode)
    (s : State) : ∃ run, exec i s = onFamily fam s run := by
  cases i with
  | decs | encs | decf | cvadc | cvmag | sts | rdr | stc | stp | rrg | wrg => cases h
  | adcRreg | adcWreg | adcReset | adcWake | adcSleep | adcNop | adcRdata | adcRdatac | adcSdatac | magRead
  | magWrite => cases h; exact ⟨_, rfl⟩

theorem onFamily_of_ne {fam : Family} {s : State} (h : s.cfg.fam ≠ fam) (run : State × Except OpError (List Byte)) :
    onFamily fam s run = .refused .otherFamily := by
  rw [onFamily, if_neg h]

/-- An instruction decoded for the block's own family runs. -/
theorem exec_of_decode_next {r : Request} {s : State} {i : Instr} (h : decode (r.image s.cfg.fam) = .ok i) :
    ∃ t, exec i s = .next t := by
  cases r with
  | command cw opd n =>
    obtain ⟨cw', hi⟩ := encode_of_decodeCommand h
    obtain ⟨t, -, hexec, -⟩ := exec_command_answers hi s
    exact ⟨t, hexec⟩
  | wire opcode data =>
    obtain ⟨l, hi⟩ := encode_of_decodeWire h
    obtain ⟨run, hexec⟩ := exec_of_encode_wire hi s
    exact ⟨_, hexec.trans (onFamily_eq_wireEnd rfl)⟩

/-- A request that is no instruction of the block's family stops for its opcode bytes alone. -/
theorem execUndecoded_ne_otherFamily {r : Request} {s : State} {e : DecodeError}
    (h : decode (r.image s.cfg.fam) = .error e) : execUndecoded r s ≠ .refused .otherFamily := by
  match r, h with
  | .command cw opd n, _ => exact nofun
  | .wire [b] data, h =>
    have hbare : execUndecoded (.wire [b] data) s = .next _ :=
      onFamily_eq_wireEnd (fam_eq_adc_of_decodeWire_error h)
    rw [hbare]
    exact nofun
  | .wire [] data, _ | .wire (_ :: _ :: _) data, _ => exact nofun

theorem runPending_ne_otherFamily (r : Request) (s : State) : runPending r s ≠ .refused .otherFamily := by
  cases hdec : decode (r.image s.cfg.fam) with
  | ok i =>
    obtain ⟨t, hexec⟩ := exec_of_decode_next hdec
    rw [runPending_of_decode hdec, hexec]
    exact nofun
  | error e =>
    rw [runPending_of_undecoded hdec]
    exact execUndecoded_ne_otherFamily hdec

/-- A step stops for its lines, for a command presented while one is in progress, or as the request in progress does. -/
theorem step_refused_cases {s : State} {e : Refusal} (h : step s = .refused e) :
    e = .lineAbsent ∨ e = .requestWhileBusy ∨ ∃ r, runPending r s = .refused e := by
  unfold step admittedStep serve at h
  split at h
  · split at h
    · cases h
    · split at h
      · split at h
        · cases h
          exact .inr (.inl rfl)
        · exact .inr (.inr ⟨_, thenAccept_refused h⟩)
      · cases h
      · cases h
  · cases h
    exact .inl rfl

/-- Settles O55: a row of the other family's bus is refused, and a step decodes against its own family. -/
theorem wireInstructionsBelongToTheirFamily : Obligations.WireInstructionsBelongToTheirFamily := by
  unfold Obligations.WireInstructionsBelongToTheirFamily
  constructor
  · intro s i fam opcode hi hfam
    obtain ⟨run, hexec⟩ := exec_of_encode_wire hi s
    rw [hexec, onFamily_of_ne hfam]
  · intro s h
    rcases step_refused_cases h with he | he | ⟨r, hrun⟩
    · cases he
    · cases he
    · exact runPending_ne_otherFamily r s hrun

end Sys2Proof.Machine
end

section
/-! ## The quiet step, gain codes, and the data-ready wait (10_state R20, 40_codec R88, 60_exceptions R192 to R195) -/

namespace Sys2Proof.Machine

/-! ### The quiet step -/

theorem step_eq_idleStep {s : State} (hadm : s.cfg.admitted = true) (hrst : s.sample.rst = false)
    (hpend : s.pending = none) (hreq : s.sample.request = none) : step s = .next s.idleStep := by
  simp [step, hadm, admittedStep, hrst, hpend, hreq]

/-- Settles O7: such a step is `idleStep`, which only uses up its sample. -/
theorem quietStepChangesNothing : Obligations.QuietStepChangesNothing := by
  unfold Obligations.QuietStepChangesNothing
  intro s hadm hrst hpend hreq
  exact ⟨_, step_eq_idleStep hadm hrst hpend hreq, hpend, s.idleStep_rsp, s.idleStep_wireRsp, s.idleStep_cfg,
    s.idleStep_mode, s.idleStep_startLevel, s.idleStep_trace⟩

/-! ### Gain codes -/

/-- The gain of three bytes is their signed value over `GAIN_SCALE`, not reduced (R88). -/
theorem gainDecode_ok {b : List Byte} (h : b.length = 3) :
    gainDecode b = .ok { num := signedValue 24 b, den := 0x400000 } := by
  obtain ⟨h1, h2⟩ := signedValue24_range h
  rw [gainDecode, Params.codeW, decodeSigned_ok (by decide) h]
  exact decodeFraction_ok (by decide) h1 h2 (by decide)

/-- Settles O22: the four codes have the general value, compared as rationals. -/
theorem gainValues : Obligations.GainValues := by
  unfold Obligations.GainValues
  exact ⟨fun b h => gainDecode_ok h, ⟨_, gainDecode_ok rfl, by decide⟩, ⟨_, gainDecode_ok rfl, by decide⟩,
    ⟨_, gainDecode_ok rfl, by decide⟩, ⟨_, gainDecode_ok rfl, by decide⟩⟩

/-! ### The data-ready wait -/

section
variable {p : InputSample} {t : Nat}

/-- A wait is cancelled by a cancel request that is seen first or wins a tie (R194, log 5). -/
theorem InputSample.waitOutcome_eq_cancelled_iff :
    p.waitOutcome t = .cancelled ↔ p.cancel = true ∧ p.cancelFirst = true := by
  unfold InputSample.waitOutcome
  split
  next h => simpa using h
  next h => split <;> simpa using h

/-- Any other wait ends ready when the line is active at the start or, for a positive bound, later (R193, R195). -/
theorem InputSample.waitOutcome_eq_ready_iff :
    p.waitOutcome t = .ready ↔
      ¬(p.cancel = true ∧ p.cancelFirst = true) ∧ (p.lineAtStart = true ∨ (0 < t ∧ p.lineLater = true)) := by
  unfold InputSample.waitOutcome
  split
  next h => simp_all
  next h => split <;> simp_all

/-- Any other wait expires when the line is not seen active (R193, R195). -/
theorem InputSample.waitOutcome_eq_timedOut_iff :
    p.waitOutcome t = .timedOut ↔
      ¬(p.cancel = true ∧ p.cancelFirst = true) ∧ p.lineAtStart = false ∧ (0 < t → p.lineLater = false) := by
  have hthird : p.waitOutcome t = .timedOut ↔ p.waitOutcome t ≠ .cancelled ∧ p.waitOutcome t ≠ .ready := by
    cases p.waitOutcome t <;> decide
  rw [hthird, Ne, Ne, InputSample.waitOutcome_eq_cancelled_iff, InputSample.waitOutcome_eq_ready_iff]
  simp only [not_or, not_and, Bool.not_eq_true]
  tauto

/-- A cancel request that is not seen first does not show in the outcome. -/
theorem InputSample.waitOutcome_of_not_cancelFirst (h : p.cancelFirst = false) :
    p.waitOutcome t = { p with cancel := false }.waitOutcome t := by
  simp [InputSample.waitOutcome, h]

end

/-- Settles O40: each constraint is one direction of what ends a wait ready, expired or cancelled. -/
theorem waitOutcomeIsConstrained : Obligations.WaitOutcomeIsConstrained := by
  unfold Obligations.WaitOutcomeIsConstrained
  intro p t
  have hquiet (hc : p.cancel = false) : ¬(p.cancel = true ∧ p.cancelFirst = true) := by simp [hc]
  refine ⟨fun hc hline => ?ready, fun hc hline => ?lookOnce, fun h => ?timedOut, fun h => ?seen, fun h => ?cancel,
    fun hc hfirst => ?cancelled, InputSample.waitOutcome_of_not_cancelFirst, fun hc hline hlater => ?expired⟩
  case ready => exact InputSample.waitOutcome_eq_ready_iff.2 ⟨hquiet hc, .inl hline⟩
  case lookOnce => exact InputSample.waitOutcome_eq_timedOut_iff.2 ⟨hquiet hc, hline, nofun⟩
  case timedOut => exact (InputSample.waitOutcome_eq_timedOut_iff.1 h).2
  case seen => exact (InputSample.waitOutcome_eq_ready_iff.1 h).2
  case cancel => exact (InputSample.waitOutcome_eq_cancelled_iff.1 h).1
  case cancelled => exact InputSample.waitOutcome_eq_cancelled_iff.2 ⟨hc, hfirst⟩
  case expired => exact InputSample.waitOutcome_eq_timedOut_iff.2 ⟨hquiet hc, hline, fun _ => hlater⟩

end Sys2Proof.Machine
end
